-- ==== Sys2Proof/Word.lean ====
section
/-! DEFINITION. The block's word types: the 64-bit command and response word, the 8-bit byte and symbol, the 9-bit
node index (00_scope.md R6, R7). All values are unsigned. -/

namespace Sys2Proof

/-- A command word of port `CMD` or a response word of port `RSP` (00_scope.md R6, `CMD_W` and `RSP_W`). -/
abbrev Word := BitVec 64

/-- One byte of port `BYTEOUT`, or the data byte of `DEC_BYTE` (00_scope.md R11). -/
abbrev Byte := BitVec 8

/-- One unit of the input alphabet (00_scope.md R10, `SYMBOL_W` = 8). -/
abbrev Symbol := BitVec 8

/-- An index into the node arena (00_scope.md R6, `IDX_W` = 9). -/
abbrev NodeIdx := BitVec 9

end Sys2Proof
end

