-- ==== Sys2Proof/Config.lean ====
section
/-! DEFINITION. The parameters of the block (00_scope.md R6). One of them is open, `FREQ_W`; it stands at its default
(DESIGN CHOICE, log 5; 92_eei_decisions.md allows it). The block has no free value: spec/93_implementation_defined.md
leaves no value of the state open. -/

namespace Sys2Proof

/-- `FREQ_W`, the width of a count, 1 ≤ `FREQ_W` ≤ 32, default 32 (00_scope.md R6). DESIGN CHOICE (log 5): the default. -/
def Config.freqW : Nat := 32

/-- `SYMBOL_W` (00_scope.md R6). -/
def Config.symbolW : Nat := 8

/-- `NSYM`, the number of symbols and of entries of `FT` and `CT` (00_scope.md R6). -/
def Config.nSym : Nat := 256

/-- `NODE_FREQ_W` = `FREQ_W` + `SYMBOL_W`, the width of a node's frequency (00_scope.md R6). -/
def Config.nodeFreqW : Nat := Config.freqW + Config.symbolW

/-- `NNODE_MAX`, the number of node records (00_scope.md R6). -/
def Config.nNodeMax : Nat := 511

/-- `CODE_MAX`, the greatest length of a code (00_scope.md R6). -/
def Config.codeMax : Nat := 255

/-- The greatest count, 2^`FREQ_W` − 1 (41_frequency.md R111). -/
def Config.countMax : Nat := 2 ^ Config.freqW - 1

end Sys2Proof
end

