-- ==== Sys2Proof/Syntax.lean ====
section
/-! DEFINITION. The seventeen commands (30_encoding.md R84) with their operands, and the thirteen status registers
(10_state.md R45). -/

namespace Sys2Proof

/-- The status registers, numbers 0x00 to 0x0C in this order (10_state.md R45). -/
inductive StatusReg where
  | status | nnode | nleaf | root | pqlen | encSymCnt | encBitCnt | packer | decCur | decSymCnt | ftCount | params
  | faultInfo
  deriving DecidableEq, Repr

/-- A command with its operands, one constructor per row of the opcode table (30_encoding.md R84). -/
inductive Instr where
  /-- `NOP` (40_system.md R100). -/
  | nop
  /-- `CLR` (40_system.md R101). -/
  | clr
  /-- `RDREG r` (40_system.md R102). -/
  | rdreg (r : StatusReg)
  /-- `FA_SYM s` (41_frequency.md R111). -/
  | faSym (s : Symbol)
  /-- `FT_SET s, c` (41_frequency.md R112). -/
  | ftSet (s : Symbol) (c : BitVec 32)
  /-- `FT_RD s` (41_frequency.md R113). -/
  | ftRd (s : Symbol)
  /-- `TB_BUILD` (42_tree_builder.md R126). -/
  | tbBuild
  /-- `ND_INFO i` (42_tree_builder.md R131). -/
  | ndInfo (i : NodeIdx)
  /-- `ND_FREQ i` (42_tree_builder.md R132). -/
  | ndFreq (i : NodeIdx)
  /-- `CT_GEN` (43_code_table.md R141). -/
  | ctGen
  /-- `CT_LEN s` (43_code_table.md R144). -/
  | ctLen (s : Symbol)
  /-- `CT_BITS s, k` (43_code_table.md R145). -/
  | ctBits (s : Symbol) (k : BitVec 3)
  /-- `ENC_SYM s` (44_encoder.md R151). -/
  | encSym (s : Symbol)
  /-- `ENC_FLUSH` (44_encoder.md R154). -/
  | encFlush
  /-- `DEC_BIT x` (45_decoder.md R163). -/
  | decBit (x : Bool)
  /-- `DEC_BYTE y, n` (45_decoder.md R164). -/
  | decByte (y : Byte) (n : BitVec 4)
  /-- `DEC_END f` (45_decoder.md R165). -/
  | decEnd (f : Bool)
  deriving DecidableEq, Repr

/-- The names of the commands, without operands (30_encoding.md R84). -/
inductive Mnemonic where
  | nop | clr | rdreg | faSym | ftSet | ftRd | tbBuild | ndInfo | ndFreq | ctGen | ctLen | ctBits | encSym | encFlush
  | decBit | decByte | decEnd
  deriving DecidableEq, Repr

/-- The five operand formats (30_encoding.md R82). -/
inductive Format where
  | z | a | ai | b | ab
  deriving DecidableEq, Repr

/-- The operand format of a command (30_encoding.md R84). -/
def Mnemonic.format : Mnemonic → Format
  | .nop | .clr | .tbBuild | .ctGen | .encFlush => .z
  | .rdreg | .faSym | .ftRd | .ctLen | .encSym => .a
  | .ftSet => .ai
  | .ndInfo | .ndFreq | .decBit | .decEnd => .b
  | .ctBits | .decByte => .ab

/-- The name of a command. -/
def Instr.mnemonic : Instr → Mnemonic
  | .nop => .nop
  | .clr => .clr
  | .rdreg _ => .rdreg
  | .faSym _ => .faSym
  | .ftSet _ _ => .ftSet
  | .ftRd _ => .ftRd
  | .tbBuild => .tbBuild
  | .ndInfo _ => .ndInfo
  | .ndFreq _ => .ndFreq
  | .ctGen => .ctGen
  | .ctLen _ => .ctLen
  | .ctBits _ _ => .ctBits
  | .encSym _ => .encSym
  | .encFlush => .encFlush
  | .decBit _ => .decBit
  | .decByte _ _ => .decByte
  | .decEnd _ => .decEnd

end Sys2Proof
end

