-- ==== Sys2Proof/WellFormed.lean ====
section
/-! DEFINITION. Which commands are legal: the further conditions of the opcode table on operands (30_encoding.md R84,
R85 cases 4, 5, 6). Case 3 (register number) is in the type `StatusReg`, case 2 in the widths of the operands. -/

namespace Sys2Proof

/-- A command with legal operands (30_encoding.md R84, column "further condition"). -/
def Instr.wf : Instr → Bool
  | .nop => true
  | .clr => true
  | .rdreg _ => true
  | .faSym _ => true
  | .ftSet _ c => decide (c.toNat < 2 ^ Config.freqW)
  | .ftRd _ => true
  | .tbBuild => true
  | .ndInfo i => decide (i.toNat ≤ 510)
  | .ndFreq i => decide (i.toNat ≤ 510)
  | .ctGen => true
  | .ctLen _ => true
  | .ctBits _ _ => true
  | .encSym _ => true
  | .encFlush => true
  | .decBit _ => true
  | .decByte _ n => decide (1 ≤ n.toNat ∧ n.toNat ≤ 8)
  | .decEnd _ => true

end Sys2Proof
end

