-- ==== Sys2Proof/Decode.lean ====
section
/-! DEFINITION. The decoder, total on every 64-bit word and rejecting by the name of the case of 30_encoding.md R85, and
the encoder, both written from the opcode table of 30_encoding.md R84. -/

namespace Sys2Proof

/-! ### The four fields of a command word (30_encoding.md R80, R81) -/

/-- `op` = W[63:56]. -/
def fieldOp (w : Word) : BitVec 8 := w.extractLsb' 56 8

/-- `a` = W[55:48]. -/
def fieldA (w : Word) : BitVec 8 := w.extractLsb' 48 8

/-- `b` = W[47:32]. -/
def fieldB (w : Word) : BitVec 16 := w.extractLsb' 32 16

/-- `imm` = W[31:0]. -/
def fieldImm (w : Word) : BitVec 32 := w.extractLsb' 0 32

/-- The word with these fields. -/
def assemble (op a : BitVec 8) (b : BitVec 16) (imm : BitVec 32) : Word := op ++ a ++ b ++ imm

/-! ### Status register numbers (10_state.md R45) -/

/-- The number of a status register. -/
def StatusReg.number : StatusReg → BitVec 8
  | .status => 0x00
  | .nnode => 0x01
  | .nleaf => 0x02
  | .root => 0x03
  | .pqlen => 0x04
  | .encSymCnt => 0x05
  | .encBitCnt => 0x06
  | .packer => 0x07
  | .decCur => 0x08
  | .decSymCnt => 0x09
  | .ftCount => 0x0A
  | .params => 0x0B
  | .faultInfo => 0x0C

/-- All status registers in the order of their numbers. -/
def statusRegs : List StatusReg :=
  [.status, .nnode, .nleaf, .root, .pqlen, .encSymCnt, .encBitCnt, .packer, .decCur, .decSymCnt, .ftCount, .params,
    .faultInfo]

/-- The register of a number, none above 0x0C. -/
def StatusReg.ofNumber (a : BitVec 8) : Option StatusReg := statusRegs.find? (fun r => r.number == a)

/-! ### The opcode table (30_encoding.md R84) -/

/-- One row of the opcode table. -/
structure OpRow where
  mnemonic : Mnemonic
  op : BitVec 8
  mask : Word
  pattern : Word
  deriving DecidableEq, Repr

/-- The row of a command: opcode, mask of the fixed bits, and their value (30_encoding.md R84). -/
def Mnemonic.row : Mnemonic → OpRow
  | .nop => ⟨.nop, 0x00, 0xFFFFFFFFFFFFFFFF, 0x0000000000000000⟩
  | .clr => ⟨.clr, 0x01, 0xFFFFFFFFFFFFFFFF, 0x0100000000000000⟩
  | .rdreg => ⟨.rdreg, 0x02, 0xFF00FFFFFFFFFFFF, 0x0200000000000000⟩
  | .faSym => ⟨.faSym, 0x10, 0xFF00FFFFFFFFFFFF, 0x1000000000000000⟩
  | .ftSet => ⟨.ftSet, 0x11, 0xFF00FFFF00000000, 0x1100000000000000⟩
  | .ftRd => ⟨.ftRd, 0x12, 0xFF00FFFFFFFFFFFF, 0x1200000000000000⟩
  | .tbBuild => ⟨.tbBuild, 0x20, 0xFFFFFFFFFFFFFFFF, 0x2000000000000000⟩
  | .ndInfo => ⟨.ndInfo, 0x21, 0xFFFFFE00FFFFFFFF, 0x2100000000000000⟩
  | .ndFreq => ⟨.ndFreq, 0x22, 0xFFFFFE00FFFFFFFF, 0x2200000000000000⟩
  | .ctGen => ⟨.ctGen, 0x30, 0xFFFFFFFFFFFFFFFF, 0x3000000000000000⟩
  | .ctLen => ⟨.ctLen, 0x31, 0xFF00FFFFFFFFFFFF, 0x3100000000000000⟩
  | .ctBits => ⟨.ctBits, 0x32, 0xFF00FFF8FFFFFFFF, 0x3200000000000000⟩
  | .encSym => ⟨.encSym, 0x40, 0xFF00FFFFFFFFFFFF, 0x4000000000000000⟩
  | .encFlush => ⟨.encFlush, 0x41, 0xFFFFFFFFFFFFFFFF, 0x4100000000000000⟩
  | .decBit => ⟨.decBit, 0x50, 0xFFFFFFFEFFFFFFFF, 0x5000000000000000⟩
  | .decByte => ⟨.decByte, 0x51, 0xFF00FFF0FFFFFFFF, 0x5100000000000000⟩
  | .decEnd => ⟨.decEnd, 0x52, 0xFFFFFFFEFFFFFFFF, 0x5200000000000000⟩

/-- The commands in the order of the opcode table. -/
def mnemonics : List Mnemonic :=
  [.nop, .clr, .rdreg, .faSym, .ftSet, .ftRd, .tbBuild, .ndInfo, .ndFreq, .ctGen, .ctLen, .ctBits, .encSym, .encFlush,
    .decBit, .decByte, .decEnd]

/-- The opcode table, seventeen rows. -/
def opcodeTable : List OpRow := mnemonics.map Mnemonic.row

/-- The row with this opcode, none for the 239 reserved opcodes (30_encoding.md R85 case 1). -/
def rowOfOp (op : BitVec 8) : Option OpRow := opcodeTable.find? (fun r => r.op == op)

/-! ### The decoder (30_encoding.md R86) -/

/-- Why a word is illegal: the six cases of 30_encoding.md R85, in its order. -/
inductive Illegal where
  | reservedOpcode
  | unusedFieldNonZero
  | registerNumber
  | nodeIndex
  | bitCount
  | countTooLarge
  deriving DecidableEq, Repr

/-- The operands of a command whose fixed bits match, or the further condition that fails (30_encoding.md R83, R84). -/
def decodeOperands (m : Mnemonic) (w : Word) : Except Illegal Instr :=
  let a := fieldA w
  let b := fieldB w
  let imm := fieldImm w
  match m with
  | .nop => .ok .nop
  | .clr => .ok .clr
  | .rdreg =>
    match StatusReg.ofNumber a with
    | some r => .ok (.rdreg r)
    | none => .error .registerNumber
  | .faSym => .ok (.faSym a)
  | .ftSet => if imm.toNat < 2 ^ Config.freqW then .ok (.ftSet a imm) else .error .countTooLarge
  | .ftRd => .ok (.ftRd a)
  | .tbBuild => .ok .tbBuild
  | .ndInfo => if b.toNat ≤ 510 then .ok (.ndInfo (b.setWidth 9)) else .error .nodeIndex
  | .ndFreq => if b.toNat ≤ 510 then .ok (.ndFreq (b.setWidth 9)) else .error .nodeIndex
  | .ctGen => .ok .ctGen
  | .ctLen => .ok (.ctLen a)
  | .ctBits => .ok (.ctBits a (b.setWidth 3))
  | .encSym => .ok (.encSym a)
  | .encFlush => .ok .encFlush
  | .decBit => .ok (.decBit (b.getLsbD 0))
  | .decByte => if 1 ≤ b.toNat ∧ b.toNat ≤ 8 then .ok (.decByte a (b.setWidth 4)) else .error .bitCount
  | .decEnd => .ok (.decEnd (b.getLsbD 0))

/-- The decoder, total on every word (30_encoding.md R86). It depends on the word alone (R89). -/
def decode (w : Word) : Except Illegal Instr :=
  match rowOfOp (fieldOp w) with
  | none => .error .reservedOpcode
  | some row => if w &&& row.mask = row.pattern then decodeOperands row.mnemonic w else .error .unusedFieldNonZero

/-! ### The encoder (30_encoding.md R80, R83, R84) -/

/-- The `a` field of a command, zero where its format does not use it. -/
def Instr.encodeA : Instr → BitVec 8
  | .rdreg r => r.number
  | .faSym s => s
  | .ftSet s _ => s
  | .ftRd s => s
  | .ctLen s => s
  | .ctBits s _ => s
  | .encSym s => s
  | .decByte y _ => y
  | .nop | .clr | .tbBuild | .ndInfo _ | .ndFreq _ | .ctGen | .encFlush | .decBit _ | .decEnd _ => 0

/-- The `b` field of a command, zero where its format does not use it. -/
def Instr.encodeB : Instr → BitVec 16
  | .ndInfo i => i.setWidth 16
  | .ndFreq i => i.setWidth 16
  | .ctBits _ k => k.setWidth 16
  | .decBit x => (BitVec.ofBool x).setWidth 16
  | .decByte _ n => n.setWidth 16
  | .decEnd f => (BitVec.ofBool f).setWidth 16
  | .nop | .clr | .rdreg _ | .faSym _ | .ftSet _ _ | .ftRd _ | .tbBuild | .ctGen | .ctLen _ | .encSym _ | .encFlush => 0

/-- The `imm` field of a command, zero where its format does not use it. -/
def Instr.encodeImm : Instr → BitVec 32
  | .ftSet _ c => c
  | .nop | .clr | .rdreg _ | .faSym _ | .ftRd _ | .tbBuild | .ndInfo _ | .ndFreq _ | .ctGen | .ctLen _ | .ctBits _ _
  | .encSym _ | .encFlush | .decBit _ | .decByte _ _ | .decEnd _ => 0

/-- The command word of a command. -/
def encode (i : Instr) : Word := assemble i.mnemonic.row.op i.encodeA i.encodeB i.encodeImm

/-! ### The host's view of the decoder -/

/-- What the decoder reads from the word whose bits are `w`, bit 0 the least significant bit of the one 64-bit word of a
command (30_encoding.md R80); the bits from `nbits` up are 0. -/
def decodeTableWord (nbits w : Nat) : Option Instr :=
  match decode (BitVec.ofNat 64 (w % 2 ^ nbits)) with
  | .ok i => some i
  | .error _ => none

end Sys2Proof
end

