-- ==== Sys2Proof/Machine/State.lean ====
section
/-! DEFINITION. The state of the core (10_state.md R20), the value of every element of it after hardware reset (R55), and
the reasons for which a step of the model can stop. -/

namespace Sys2Proof.Machine

/-! ### Entries of the memories -/

/-- An entry of the frequency table `FT` (10_state.md R23). -/
structure FtEntry where
  /-- 1 when the symbol is a key of the table. -/
  v : Bool
  /-- The count. -/
  cnt : BitVec 32
  deriving DecidableEq, Repr

/-- The four kinds of a node record (10_state.md R25). -/
inductive NodeKind where
  | free | leaf | internal | sentinel
  deriving DecidableEq, Repr

/-- A record of the node arena `NODE` (10_state.md R24). -/
structure NodeRec where
  kind : NodeKind
  sym : Symbol
  freq : BitVec 40
  left : NodeIdx
  right : NodeIdx
  deriving DecidableEq, Repr

/-- An entry of the code table `CT`; bit i of the code stands at bit i of `bits` (10_state.md R29). -/
structure CtEntry where
  /-- 1 when the symbol has a code. -/
  v : Bool
  /-- The code's length. -/
  len : BitVec 8
  /-- The code, its first bit (the edge leaving the root) at bit 0. -/
  bits : BitVec 255
  deriving DecidableEq, Repr

/-! ### Ports -/

/-- One beat that has crossed an output port (10_state.md R40; 00_scope.md R11). -/
inductive Beat where
  /-- a response word on `RSP` -/
  | rsp (w : Word)
  /-- a logical bit on `BITOUT` -/
  | bit (x : Bool)
  /-- a packed byte on `BYTEOUT` -/
  | byte (y : Byte)
  /-- a decoded symbol on `SYMOUT` -/
  | sym (y : Symbol)
  deriving DecidableEq, Repr

/-- One move of the host at the block's inputs (00_scope.md R11; 70_reset_and_hazards.md R205). -/
inductive HostInput where
  /-- a command word offered on `CMD` -/
  | command (w : Word)
  /-- `RST` asserted, between commands (70_reset_and_hazards.md R200) -/
  | rst
  deriving DecidableEq, Repr

/-! ### The state -/

/-- The architectural state of the core (10_state.md R20). -/
structure State where
  /-- `FT`, as the list of its entries that differ from the reset entry (10_state.md R23; log 7). -/
  ft : List (Nat × FtEntry)
  /-- `NODE`, as the list of its records that differ from the reset record (10_state.md R24; log 7). -/
  node : List (Nat × NodeRec)
  /-- `NNODE` (10_state.md R26). -/
  nnode : BitVec 10
  /-- `NLEAF` (10_state.md R26). -/
  nleaf : BitVec 9
  /-- `ROOT` (10_state.md R27). -/
  root : NodeIdx
  /-- `TREE_VALID` (10_state.md R27). -/
  treeValid : Bool
  /-- `PQ[0..PQLEN−1]`, its length being `PQLEN` (10_state.md R28; log 6). -/
  pq : List NodeIdx
  /-- `CT`, as the list of its entries that differ from the reset entry (10_state.md R29; log 7). -/
  ct : List (Nat × CtEntry)
  /-- `CODES_VALID` (10_state.md R30). -/
  codesValid : Bool
  /-- `ENC_SYMCNT` (10_state.md R31). -/
  encSymCnt : BitVec 40
  /-- `ENC_BITCNT` (10_state.md R31). -/
  encBitCnt : BitVec 48
  /-- `PK_BUF` (10_state.md R32). -/
  pkBuf : Byte
  /-- `PK_CNT` (10_state.md R32). -/
  pkCnt : BitVec 3
  /-- `DEC_CUR` (10_state.md R33). -/
  decCur : NodeIdx
  /-- `DEC_SYMCNT` (10_state.md R33). -/
  decSymCnt : BitVec 40
  /-- `FAULT` (10_state.md R34). -/
  fault : Bool
  /-- `ERR` (10_state.md R34). -/
  err : BitVec 8
  /-- `FAULTINFO` (10_state.md R34). -/
  faultInfo : BitVec 36
  /-- The beats of all output ports since reset, oldest first (10_state.md R40; 20_memory.md R74; log 4). -/
  beats : List Beat
  /-- The host's moves not yet taken, the next one first. The MODEL's own field (DESIGN CHOICE, log 1). -/
  inputs : List HostInput
  deriving DecidableEq, Repr

/-- The state right after hardware reset (10_state.md R55; 70_reset_and_hazards.md R200). -/
def State.reset : State where
  ft := []
  node := []
  nnode := 0
  nleaf := 0
  root := 0
  treeValid := false
  pq := []
  ct := []
  codesValid := false
  encSymCnt := 0
  encBitCnt := 0
  pkBuf := 0
  pkCnt := 0
  decCur := 0
  decSymCnt := 0
  fault := false
  err := 0
  faultInfo := 0
  beats := []
  inputs := []

/-- The reasons for which the model's machine stops. The block's own faults are no such stop: they are next states
(60_exceptions.md R184). None of these can occur in a state that meets the block's invariants (10_state.md R50). -/
inductive Fault where
  /-- Raised by `CT_GEN`, `DEC_BIT`, `DEC_BYTE` and `DEC_END` when a pointer of the state is 511, and by `ND_INFO` and
  `ND_FREQ` on an operand 511, which no legal word has: the arena has records 0 to 510 only (10_state.md R24). Safe: the
  model stops where the spec gives no record (DESIGN CHOICE, log 9). -/
  | nodeIndexAbsent
  /-- Raised by `CT_GEN` when its walk takes more than the 511 iterations the spec bounds it by (43_code_table.md R141).
  Safe: it occurs only on records that form no tree (DESIGN CHOICE, log 10). -/
  | walkOverrun
  /-- Raised by `CT_GEN` when a leaf is deeper than the 255 bits of a code (43_code_table.md R141). Safe: it occurs only on
  records that form no tree (DESIGN CHOICE, log 10). -/
  | codeTooLong
  deriving DecidableEq, Repr

/-- The reasons for which the model refuses an instruction. -/
inductive Refusal where
  /-- Raised by an arm of `exec` that has no meaning yet; no arm of this model is such an arm. Safe: the model stops. -/
  | notModelled (mnemonic : String)
  deriving DecidableEq, Repr

end Sys2Proof.Machine
end

