-- ==== Sys2Proof/Machine/Memory.lean ====
section
/-! DEFINITION. The block's entry-indexed memories (20_memory.md R60, R66): a memory is the list of its entries that differ
from the reset entry, indices strictly rising, so that equal memories are equal lists (log 7). What an unlisted index reads
as is the entry's reset value (10_state.md R55). -/

namespace Sys2Proof.Machine

/-- The reset value of an entry of `FT` (10_state.md R55). -/
def FtEntry.empty : FtEntry := ⟨false, 0⟩

/-- The reset value of a record of `NODE`: `FREE`, every field 0 (10_state.md R25, R55). -/
def NodeRec.empty : NodeRec := ⟨.free, 0, 0, 0, 0⟩

/-- The reset value of an entry of `CT` (10_state.md R55). -/
def CtEntry.empty : CtEntry := ⟨false, 0, 0⟩

/-- `MemRead(M, i)` of 00_scope.md R9; an unlisted index reads as `dflt`. -/
def Memory.read {α : Type} (dflt : α) : List (Nat × α) → Nat → α
  | [], _ => dflt
  | (k, v) :: m, i => if k = i then v else Memory.read dflt m i

/-- The memory without entry `i`. -/
def Memory.erase {α : Type} (m : List (Nat × α)) (i : Nat) : List (Nat × α) := m.filter (fun c => c.1 != i)

/-- The memory with entry `i` put in its place among rising indices. -/
def Memory.insert {α : Type} (i : Nat) (v : α) : List (Nat × α) → List (Nat × α)
  | [] => [(i, v)]
  | c :: m => if i < c.1 then (i, v) :: c :: m else c :: Memory.insert i v m

/-- `MemWrite(M, i)` of 00_scope.md R9; writing the reset entry removes the index from the list. -/
def Memory.write {α : Type} [DecidableEq α] (dflt : α) (m : List (Nat × α)) (i : Nat) (v : α) : List (Nat × α) :=
  if v = dflt then Memory.erase m i else Memory.insert i v (Memory.erase m i)

/-- The canonical form of a memory of `size` entries: indices strictly rising and below `size`, no entry equal to what an
unlisted index reads as. -/
abbrev Memory.wf {α : Type} [DecidableEq α] (size : Nat) (dflt : α) (m : List (Nat × α)) : Prop :=
  m.Pairwise (fun c d => c.1 < d.1) ∧ ∀ c ∈ m, c.1 < size ∧ c.2 ≠ dflt

/-! ### The three memories of the state by index -/

/-- `FT[s]` (10_state.md R23). -/
def State.ftAt (s : State) (y : Symbol) : FtEntry := Memory.read FtEntry.empty s.ft y.toNat

/-- `FT[s] <- e`. -/
def State.setFt (s : State) (y : Symbol) (e : FtEntry) : State :=
  { s with ft := Memory.write FtEntry.empty s.ft y.toNat e }

/-- The record at an index of the arena, as the list names it or `FREE`. At 511, which is no record's index, a canonical arena
names none, so this reads `FREE` (DESIGN CHOICE, log 9). -/
def nodeRec (node : List (Nat × NodeRec)) (i : NodeIdx) : NodeRec := Memory.read NodeRec.empty node i.toNat

/-- The record at an index taken from the state, none at 511: the arena has records 0 to 510 (10_state.md R24; log 9). -/
def nodeRec? (node : List (Nat × NodeRec)) (i : NodeIdx) : Option NodeRec :=
  if i.toNat < Config.nNodeMax then some (nodeRec node i) else none

/-- `NODE[i]` (10_state.md R24). -/
def State.nodeAt (s : State) (i : NodeIdx) : NodeRec := nodeRec s.node i

/-- `NODE[i] <- n`. At 511, which is no record's index, the entry is stored in the list all the same, outside its canonical form;
no command writes there, since `TB_BUILD` allocates at most 511 records from index 0 (DESIGN CHOICE, log 9). -/
def State.setNode (s : State) (i : NodeIdx) (n : NodeRec) : State :=
  { s with node := Memory.write NodeRec.empty s.node i.toNat n }

/-- `CT[s]` (10_state.md R29). -/
def State.ctAt (s : State) (y : Symbol) : CtEntry := Memory.read CtEntry.empty s.ct y.toNat

/-- `PQ[j]`; entries at positions from `PQLEN` up are 0 (10_state.md R28). -/
def State.pqAt (s : State) (j : Nat) : NodeIdx := s.pq.getD j 0

/-- `PQLEN` (10_state.md R28; log 6). -/
def State.pqLen (s : State) : BitVec 9 := BitVec.ofNat 9 s.pq.length

/-! ### The traces of the four output ports (10_state.md R40) -/

/-- The trace of `RSP`. -/
def State.rspTrace (s : State) : List Word :=
  s.beats.filterMap (fun b => match b with | .rsp w => some w | _ => none)

/-- The trace of `BITOUT`. -/
def State.bitTrace (s : State) : List Bool :=
  s.beats.filterMap (fun b => match b with | .bit x => some x | _ => none)

/-- The trace of `BYTEOUT`. -/
def State.byteTrace (s : State) : List Byte :=
  s.beats.filterMap (fun b => match b with | .byte y => some y | _ => none)

/-- The trace of `SYMOUT`. -/
def State.symTrace (s : State) : List Symbol :=
  s.beats.filterMap (fun b => match b with | .sym y => some y | _ => none)

/-- The level of the output `FAULT_O` (10_state.md R41). -/
def State.faultO (s : State) : Bool := s.fault

end Sys2Proof.Machine
end

