-- ==== Sys2Proof/Machine/Operands.lean ====
section
/-! DEFINITION. What the operands of the commands select: the symbols in order, the bits of a data byte, the bits of a code
and a 32-bit chunk of it, and the fields of a node record as they are read out. -/

namespace Sys2Proof.Machine

/-- The symbol values 0, 1, …, 255 in ascending order (42_tree_builder.md R124). -/
def allSymbols : List Symbol := (List.range Config.nSym).map (BitVec.ofNat 8)

/-- The n high bits of a data byte, bit 7 first: y[7], y[6], …, y[8−n] (45_decoder.md R164; 20_memory.md R63). -/
def byteBits (y : Byte) (n : BitVec 4) : List Bool := (List.range n.toNat).map (fun i => y.getMsbD i)

/-- The bit string of a code: `bits[0]`, …, `bits[len − 1]` (10_state.md R29; 44_encoder.md R155). -/
def CtEntry.code (e : CtEntry) : List Bool := (List.range e.len.toNat).map (fun i => e.bits.getLsbD i)

/-- A path stored as `bits`: path[i] at bit i, the bits above the path 0 (43_code_table.md R141; 10_state.md R29). -/
def pathBits (path : List Bool) : BitVec 255 := (BitVec.ofBoolListLE path).setWidth 255

/-- The entry of `CT` for a leaf at the end of a path (43_code_table.md R141). -/
def CtEntry.ofPath (path : List Bool) : CtEntry := ⟨true, BitVec.ofNat 8 path.length, pathBits path⟩

/-- Code bits 32k to 32k+31, code bit 32k+j at bit j, position 255 reading 0 (43_code_table.md R145; 20_memory.md R64). -/
def CtEntry.chunk (e : CtEntry) (k : BitVec 3) : BitVec 32 := e.bits.extractLsb' (32 * k.toNat) 32

/-- The 2-bit number of a node kind (10_state.md R24). -/
def NodeKind.number : NodeKind → BitVec 2
  | .free => 0
  | .leaf => 1
  | .internal => 2
  | .sentinel => 3

/-- The read-out of a node's structure, `{right, left, sym, kind}` (42_tree_builder.md R131). -/
def NodeRec.info (n : NodeRec) : BitVec 56 := (n.right ++ n.left ++ n.sym ++ n.kind.number).setWidth 56

/-- The child an edge leads to: bit 0 the left child, bit 1 the right child (43_code_table.md R140). -/
def NodeRec.child (n : NodeRec) (x : Bool) : NodeIdx := if x then n.right else n.left

end Sys2Proof.Machine
end

