-- ==== Sys2Proof/Machine/Flags.lean ====
section
/-! DEFINITION. The status flags (10_state.md R35), the saturating counters (R31, R33) and the status registers (R45, R46,
R47). The block has no arithmetic condition codes. -/

namespace Sys2Proof.Machine

/-- `sat_N(v + 1)`: the next value of a counter that saturates at 2^N − 1 (00_scope.md R7; 10_state.md R31). -/
def satInc {n : Nat} (c : BitVec n) : BitVec n := if c = BitVec.allOnes n then c else c + 1

/-- `DEC_MID`, derived: the decoder stands mid-codeword (10_state.md R35). -/
def State.decMid (s : State) : Bool := s.treeValid && (s.decCur != s.root)

/-- `STATUS` (10_state.md R46). -/
def State.status (s : State) : BitVec 16 :=
  s.err ++ (0 : BitVec 4) ++ BitVec.ofBool s.decMid ++ BitVec.ofBool s.codesValid ++ BitVec.ofBool s.treeValid
    ++ BitVec.ofBool s.fault

/-- `FTCOUNT`, derived: the number of keys of the frequency table (10_state.md R45). -/
def State.ftCount (s : State) : BitVec 9 := BitVec.ofNat 9 (allSymbols.countP (fun y => (s.ftAt y).v))

/-- `PARAMS`, a constant (10_state.md R47). -/
def params : BitVec 34 :=
  BitVec.ofNat 10 Config.nNodeMax ++ BitVec.ofNat 8 Config.nodeFreqW ++ BitVec.ofNat 8 Config.freqW
    ++ BitVec.ofNat 8 Config.symbolW

/-- `zext_56(REG(r))`: the value of a status register (10_state.md R45). -/
def State.reg (s : State) : StatusReg → BitVec 56
  | .status => s.status.setWidth 56
  | .nnode => s.nnode.setWidth 56
  | .nleaf => s.nleaf.setWidth 56
  | .root => s.root.setWidth 56
  | .pqlen => s.pqLen.setWidth 56
  | .encSymCnt => s.encSymCnt.setWidth 56
  | .encBitCnt => s.encBitCnt.setWidth 56
  | .packer => (s.pkCnt ++ s.pkBuf).setWidth 56
  | .decCur => s.decCur.setWidth 56
  | .decSymCnt => s.decSymCnt.setWidth 56
  | .ftCount => s.ftCount.setWidth 56
  | .params => params.setWidth 56
  | .faultInfo => s.faultInfo.setWidth 56

end Sys2Proof.Machine
end

