-- ==== Sys2Proof/Machine/Ops.lean ====
section
/-! DEFINITION. The operations the commands share: emitting beats and responses (00_scope.md R9; 30_encoding.md R87),
taking a fault (60_exceptions.md R184) and leaving the fault state (R187), clearing (42_tree_builder.md R127). -/

namespace Sys2Proof.Machine

/-! ### Faults and status codes -/

/-- The seven faults that a command can raise (60_exceptions.md R180). -/
inductive BlockFault where
  | invalidInput | missingCode | truncatedStream | corruptTree | corruptStream | freqOverflow | illegalCommand
  deriving DecidableEq, Repr

/-- The code of a fault, its value in `ERR` and in the response's `st` (60_exceptions.md R180; 30_encoding.md R88). -/
def BlockFault.code : BlockFault → BitVec 8
  | .invalidInput => 0x01
  | .missingCode => 0x02
  | .truncatedStream => 0x03
  | .corruptTree => 0x04
  | .corruptStream => 0x05
  | .freqOverflow => 0x06
  | .illegalCommand => 0x07

/-- The status `OK` (30_encoding.md R88). -/
def statusOk : BitVec 8 := 0x00

/-- The status `Aborted`, which appears only in responses (30_encoding.md R88). -/
def statusAborted : BitVec 8 := 0x08

/-! ### Beats and responses -/

/-- `emit P(v)`: append one beat (00_scope.md R9; 10_state.md R40). -/
def State.emit (s : State) (b : Beat) : State := { s with beats := s.beats ++ [b] }

/-- The response word `{st, data}` (30_encoding.md R87). -/
def responseWord (st : BitVec 8) (d : BitVec 56) : Word := st ++ d

/-- `respond(st, d)`: append the command's response (00_scope.md R9). -/
def State.respond (s : State) (st : BitVec 8) (d : BitVec 56) : State := s.emit (.rsp (responseWord st d))

/-- The end of a command that succeeds: its state with the response `OK` and its data. -/
def succeed (s : State) (d : BitVec 56) : Host.Outcome State Fault Refusal := .next (s.respond statusOk d)

/-! ### Taking a fault and leaving the fault state -/

/-- What `FAULTINFO` records of the faulting word: `{FBIT, b, a, op}` (60_exceptions.md R182, R184). -/
def faultInfoOf (fbit : BitVec 4) (w : Word) : BitVec 36 := fbit ++ fieldB w ++ fieldA w ++ fieldOp w

/-- `raise F` while the command word is `w` and the bit index of a `DEC_BYTE` is `fbit` (0 for every other command): the
fault is latched and the command answers its code (60_exceptions.md R184). What the command wrote before stays. -/
def State.raiseFault (s : State) (f : BlockFault) (fbit : BitVec 4) (w : Word) : State :=
  { s with fault := true, err := f.code, faultInfo := faultInfoOf fbit w }.respond f.code 0

/-- The end of a command that raises a fault. -/
def raised (s : State) (f : BlockFault) (fbit : BitVec 4) (w : Word) : Host.Outcome State Fault Refusal :=
  .next (s.raiseFault f fbit w)

/-- Every element of 10_state.md R55 at its reset value but the traces, which are kept: the only way software leaves the
fault state (40_system.md R101; 60_exceptions.md R187). The host's pending moves are no part of the session. -/
def State.clearSession (s : State) : State := { State.reset with beats := s.beats, inputs := s.inputs }

/-- Hardware reset: every element at its reset value, the traces empty (70_reset_and_hazards.md R200). The host's later
moves are still to come. -/
def State.hardReset (s : State) : State := { State.reset with inputs := s.inputs }

/-! ### Clearing what derives from the table -/

/-- `clear_derived()`: everything but `FT`, the fault registers and the traces to its reset value
(42_tree_builder.md R127). -/
def State.clearDerived (s : State) : State :=
  { State.reset with
    ft := s.ft, fault := s.fault, err := s.err, faultInfo := s.faultInfo, beats := s.beats, inputs := s.inputs }

end Sys2Proof.Machine
end

