-- ==== Sys2Proof/Machine/CodeTable.lean ====
section
/-! DEFINITION. The code-table unit CG: `CT_GEN`, `CT_LEN`, `CT_BITS` (43_code_table.md). -/

namespace Sys2Proof.Machine

/-- An entry of the walk stack `GS`; its `len` is the length of its path (43_code_table.md R142; 10_state.md R36). -/
structure WalkEntry where
  node : NodeIdx
  path : List Bool
  deriving DecidableEq, Repr

/-- How the walk of `CT_GEN` ends: with the table, at a `FREE` record, or with a stop of the model (logs 9, 10). -/
inductive WalkResult where
  | done (ct : List (Nat × CtEntry))
  | corrupt (ct : List (Nat × CtEntry))
  | stop (f : Fault)
  deriving DecidableEq, Repr

/-- The pre-order walk with an explicit stack, the right child pushed first (43_code_table.md R141, R142); the number
bounds its iterations. -/
def walk (node : List (Nat × NodeRec)) : Nat → List WalkEntry → List (Nat × CtEntry) → WalkResult
  | _, [], ct => .done ct
  | 0, _ :: _, _ => .stop .walkOverrun
  | k + 1, e :: gs, ct =>
    match nodeRec? node e.node with
    | none => .stop .nodeIndexAbsent
    | some n =>
      match n.kind with
      | .leaf =>
        if e.path.length ≤ Config.codeMax then
          walk node k gs (Memory.write CtEntry.empty ct n.sym.toNat (CtEntry.ofPath e.path))
        else .stop .codeTooLong
      | .sentinel => walk node k gs ct
      | .internal => walk node k (⟨n.left, e.path ++ [false]⟩ :: ⟨n.right, e.path ++ [true]⟩ :: gs) ct
      | .free => .corrupt ct

/-- `CT_GEN` (43_code_table.md R141): at most 511 iterations of the walk, from the root with the empty path. -/
def execCtGen (s : State) : Host.Outcome State Fault Refusal :=
  if s.treeValid then
    match walk s.node Config.nNodeMax [⟨s.root, []⟩] [] with
    | .done ct => succeed { s with ct := ct, codesValid := true } (s.nleaf.setWidth 56)
    | .corrupt ct => raised { s with ct := ct, codesValid := false } .corruptTree 0 (encode .ctGen)
    | .stop f => .fault f
  else raised s .corruptTree 0 (encode .ctGen)

/-- `CT_LEN s`: read a code's length, `{v, len}` (43_code_table.md R144). -/
def execCtLen (y : Symbol) (s : State) : Host.Outcome State Fault Refusal :=
  succeed s ((BitVec.ofBool (s.ctAt y).v ++ (s.ctAt y).len).setWidth 56)

/-- `CT_BITS s, k`: read 32 bits of a code (43_code_table.md R145). -/
def execCtBits (y : Symbol) (k : BitVec 3) (s : State) : Host.Outcome State Fault Refusal :=
  succeed s (((s.ctAt y).chunk k).setWidth 56)

end Sys2Proof.Machine
end

