-- ==== Sys2Proof/Machine/Decoder.lean ====
section
/-! DEFINITION. The decoder unit DE: the automaton and `DEC_BIT`, `DEC_BYTE`, `DEC_END` (45_decoder.md). -/

namespace Sys2Proof.Machine

/-- How `dec_bit` ends: in a state with the emitted symbol or none, in a fault that changed nothing, or in a stop of the
model at a pointer that is no record's (log 9). -/
inductive DecResult where
  | moved (s : State) (emitted : Option Symbol)
  | raises (f : BlockFault)
  | absent
  deriving DecidableEq, Repr

/-- The decoder at a leaf: emit its symbol, count it, back to the root (45_decoder.md R162). -/
def State.emitSym (s : State) (y : Symbol) : State :=
  { s.emit (.sym y) with decSymCnt := satInc s.decSymCnt, decCur := s.root }

/-- `dec_bit(x)`, the one transition of the automaton (45_decoder.md R162). -/
def decBit (x : Bool) (s : State) : DecResult :=
  if s.treeValid then
    match nodeRec? s.node s.decCur with
    | none => .absent
    | some n =>
      if n.kind = .internal then
        match nodeRec? s.node (n.child x) with
        | none => .absent
        | some c =>
          match c.kind with
          | .internal => .moved { s with decCur := n.child x } none
          | .leaf => .moved (s.emitSym c.sym) (some c.sym)
          | .sentinel => .raises .corruptStream
          | .free => .raises .corruptTree
      else .raises .corruptTree
  else .raises .corruptTree

/-- `DEC_BIT x` (45_decoder.md R163). -/
def execDecBit (x : Bool) (s : State) : Host.Outcome State Fault Refusal :=
  match decBit x s with
  | .moved s1 none => succeed s1 0
  | .moved s1 (some y) => succeed s1 (((1 : BitVec 1) ++ y).setWidth 56)
  | .raises f => raised s f 0 (encode (.decBit x))
  | .absent => .fault .nodeIndexAbsent

/-- The loop of `DEC_BYTE`: `i` the index of the next bit, `k` the symbols so far, `w` the command word
(45_decoder.md R164). -/
def decBits (w : Word) : List Bool → Nat → Nat → State → Host.Outcome State Fault Refusal
  | [], _, k, s => succeed s (BitVec.ofNat 56 k)
  | x :: xs, i, k, s =>
    match decBit x s with
    | .moved s1 none => decBits w xs (i + 1) k s1
    | .moved s1 (some _) => decBits w xs (i + 1) (k + 1) s1
    | .raises f => raised s f (BitVec.ofNat 4 i) w
    | .absent => .fault .nodeIndexAbsent

/-- `DEC_BYTE y, n`: the n high bits of a byte, bit 7 first (45_decoder.md R164). -/
def execDecByte (y : Byte) (n : BitVec 4) (s : State) : Host.Outcome State Fault Refusal :=
  decBits (encode (.decByte y n)) (byteBits y n) 0 0 s

/-- `DEC_END f`: the bitstream has ended (45_decoder.md R165). The root's frequency is read only when the check is asked
for. -/
def execDecEnd (f : Bool) (s : State) : Host.Outcome State Fault Refusal :=
  if s.treeValid then
    if s.decCur = s.root then
      if f then
        match nodeRec? s.node s.root with
        | none => .fault .nodeIndexAbsent
        | some n =>
          if s.decSymCnt = n.freq then succeed { s with decSymCnt := 0 } (s.decSymCnt.setWidth 56)
          else raised s .corruptStream 0 (encode (.decEnd f))
      else succeed { s with decSymCnt := 0 } (s.decSymCnt.setWidth 56)
    else raised s .truncatedStream 0 (encode (.decEnd f))
  else raised s .corruptTree 0 (encode (.decEnd f))

end Sys2Proof.Machine
end

