-- ==== Sys2Proof/Machine/Encoder.lean ====
section
/-! DEFINITION. The encoder unit EN and the bit packer: `ENC_SYM`, `ENC_FLUSH` (44_encoder.md). -/

namespace Sys2Proof.Machine

/-- `emit_bit(x)`: one bit to `BITOUT` and into the packer, the eighth to `BYTEOUT` as well (44_encoder.md R152). -/
def State.emitBit (s : State) (x : Bool) : State :=
  let s1 := { s.emit (.bit x) with encBitCnt := satInc s.encBitCnt }
  let buf : Byte := s.pkBuf.setWidth 7 ++ BitVec.ofBool x
  let cnt : BitVec 4 := s.pkCnt.setWidth 4 + 1
  if cnt = 8 then { s1.emit (.byte buf) with pkBuf := 0, pkCnt := 0 }
  else { s1 with pkBuf := buf, pkCnt := cnt.setWidth 3 }

/-- The bits of a code through `emit_bit`, in order (44_encoder.md R151). -/
def State.emitBits (s : State) (c : List Bool) : State := c.foldl State.emitBit s

/-- `ENC_SYM s` (44_encoder.md R151): the check comes before any bit. -/
def execEncSym (y : Symbol) (s : State) : Host.Outcome State Fault Refusal :=
  if (s.ctAt y).v then
    let s1 := s.emitBits (s.ctAt y).code
    succeed { s1 with encSymCnt := satInc s1.encSymCnt } ((s.ctAt y).len.setWidth 56)
  else raised s .missingCode 0 (encode (.encSym y))

/-- The number of pad bits of the final byte, (8 − `PK_CNT`) mod 8 (44_encoder.md R154). -/
def State.padCount (s : State) : Nat := (8 - s.pkCnt.toNat) % 8

/-- `ENC_FLUSH` (44_encoder.md R154): the real bits high, the pad zeros low; packer and counters cleared. -/
def execEncFlush (s : State) : Host.Outcome State Fault Refusal :=
  let s1 := if s.pkCnt = 0 then s else s.emit (.byte (s.pkBuf <<< s.padCount))
  let d : BitVec 51 := BitVec.ofNat 3 s.padCount ++ s.encBitCnt
  succeed { s1 with pkBuf := 0, pkCnt := 0, encBitCnt := 0, encSymCnt := 0 } (d.setWidth 56)

end Sys2Proof.Machine
end

