-- ==== Sys2Proof/Machine/Frequency.lean ====
section
/-! DEFINITION. The frequency unit FA: `FA_SYM`, `FT_SET`, `FT_RD` (41_frequency.md). -/

namespace Sys2Proof.Machine

/-- `FA_SYM s`: count one symbol, `FreqOverflow` at the greatest count (41_frequency.md R111). -/
def execFaSym (y : Symbol) (s : State) : Host.Outcome State Fault Refusal :=
  if (s.ftAt y).cnt.toNat = Config.countMax then raised s .freqOverflow 0 (encode (.faSym y))
  else
    let c := (s.ftAt y).cnt + 1
    succeed (s.setFt y ⟨true, c⟩) (c.setWidth 56)

/-- `FT_SET s, c`: set one table entry (41_frequency.md R112). -/
def execFtSet (y : Symbol) (c : BitVec 32) (s : State) : Host.Outcome State Fault Refusal :=
  succeed (s.setFt y ⟨true, c⟩) 0

/-- `FT_RD s`: read one table entry, `{v, cnt}` (41_frequency.md R113). -/
def execFtRd (y : Symbol) (s : State) : Host.Outcome State Fault Refusal :=
  succeed s ((BitVec.ofBool (s.ftAt y).v ++ (s.ftAt y).cnt).setWidth 56)

end Sys2Proof.Machine
end

