-- ==== Sys2Proof/Machine/System.lean ====
section
/-! DEFINITION. The system commands `NOP`, `CLR`, `RDREG` (40_system.md). -/

namespace Sys2Proof.Machine

/-- `NOP` (40_system.md R100). -/
def execNop (s : State) : Host.Outcome State Fault Refusal := succeed s 0

/-- `CLR` (40_system.md R101). -/
def execClr (s : State) : Host.Outcome State Fault Refusal := succeed s.clearSession 0

/-- `RDREG r` (40_system.md R102). -/
def execRdreg (r : StatusReg) (s : State) : Host.Outcome State Fault Refusal := succeed s (s.reg r)

end Sys2Proof.Machine
end

