-- ==== Sys2Proof/Machine/Tree.lean ====
section
/-! DEFINITION. The tree unit TB: the priority queue, `TB_BUILD`, `ND_INFO`, `ND_FREQ` (42_tree_builder.md). -/

namespace Sys2Proof.Machine

/-! ### The priority queue -/

/-- `key(i) < key(j)`, the key of a node being its frequency and then its index (42_tree_builder.md R121). -/
def keyLt (node : List (Nat × NodeRec)) (i j : NodeIdx) : Bool :=
  decide ((nodeRec node i).freq < (nodeRec node j).freq)
    || (decide ((nodeRec node i).freq = (nodeRec node j).freq) && decide (i < j))

/-- `pq_insert(i)`: behind the queued nodes of smaller key (42_tree_builder.md R122). -/
def State.pqInsert (s : State) (i : NodeIdx) : State :=
  let p := s.pq.countP (fun j => keyLt s.node j i)
  { s with pq := s.pq.take p ++ i :: s.pq.drop p }

/-- The queue after `pq_pop()` (42_tree_builder.md R123); the popped node is `PQ[0]`. -/
def State.pqPop (s : State) : State := { s with pq := s.pq.tail }

/-! ### Building -/

/-- Allocate the next record, which takes index `NNODE` (10_state.md R26). -/
def State.allocNode (s : State) (n : NodeRec) : State :=
  { s.setNode (s.nnode.setWidth 9) n with nnode := s.nnode + 1 }

/-- The index the next record takes (10_state.md R26). -/
def State.nextIdx (s : State) : NodeIdx := s.nnode.setWidth 9

/-- One turn of the scan of the table: a leaf for a key, inserted into the queue (42_tree_builder.md R124). -/
def State.scanSymbol (s : State) (y : Symbol) : State :=
  if (s.ftAt y).v then
    let i := s.nextIdx
    let s1 := s.allocNode ⟨.leaf, y, (s.ftAt y).cnt.setWidth 40, 0, 0⟩
    { s1 with nleaf := s1.nleaf + 1 }.pqInsert i
  else s

/-- The scan of the table in ascending symbol order (42_tree_builder.md R124). -/
def State.scanTable (s : State) : State := allSymbols.foldl State.scanSymbol s

/-- `single_symbol()`: the lone leaf on the left, a sentinel on the right (42_tree_builder.md R129). -/
def State.singleSymbol (s : State) : State :=
  let l := s.pqAt 0
  let s1 := s.pqPop
  let t := s1.nextIdx
  let s2 := s1.allocNode ⟨.sentinel, 0, 0, 0, 0⟩
  let r := s2.nextIdx
  let s3 := s2.allocNode ⟨.internal, 0, (s2.nodeAt l).freq, l, t⟩
  s3.pqInsert r

/-- `merge_step()`: the two nodes of least key become the children of a new node, in removal order
(42_tree_builder.md R125). -/
def State.mergeStep (s : State) : State :=
  let x := s.pqAt 0
  let s1 := s.pqPop
  let y := s1.pqAt 0
  let s2 := s1.pqPop
  let r := s2.nextIdx
  let s3 := s2.allocNode ⟨.internal, 0, (s2.nodeAt x).freq + (s2.nodeAt y).freq, x, y⟩
  s3.pqInsert r

/-- `while PQLEN > 1: merge_step()`, at most so many times (42_tree_builder.md R126). -/
def State.mergeLoop : Nat → State → State
  | 0, s => s
  | n + 1, s => if 1 < s.pq.length then State.mergeLoop n s.mergeStep else s

/-- The last lines of `TB_BUILD`: the node left in the queue is the root (42_tree_builder.md R126). -/
def State.finishTree (s : State) : State := { s with root := s.pqAt 0, treeValid := true, decCur := s.pqAt 0 }

/-- The tree built from a scanned table that has a key: the sentinel tree for one key, else the merge loop, of at most 255
merges (42_tree_builder.md R126; 00_scope.md R15). -/
def State.buildTree (s : State) : State :=
  if s.nleaf = 1 then s.singleSymbol.finishTree else (s.mergeLoop 255).finishTree

/-- `TB_BUILD` (42_tree_builder.md R126, R128). -/
def execTbBuild (s : State) : Host.Outcome State Fault Refusal :=
  let s1 := s.clearDerived.scanTable
  if s1.nleaf = 0 then raised s1 .invalidInput 0 (encode .tbBuild)
  else
    let s2 := s1.buildTree
    succeed s2 ((s2.nnode ++ s2.root).setWidth 56)

/-! ### Read-out -/

/-- `ND_INFO i`: read a node's structure (42_tree_builder.md R131). -/
def execNdInfo (i : NodeIdx) (s : State) : Host.Outcome State Fault Refusal :=
  match nodeRec? s.node i with
  | some n => succeed s n.info
  | none => .fault .nodeIndexAbsent

/-- `ND_FREQ i`: read a node's frequency (42_tree_builder.md R132). -/
def execNdFreq (i : NodeIdx) (s : State) : Host.Outcome State Fault Refusal :=
  match nodeRec? s.node i with
  | some n => succeed s (n.freq.setWidth 56)
  | none => .fault .nodeIndexAbsent

end Sys2Proof.Machine
end

