-- ==== Sys2Proof/Machine/Dispatch.lean ====
section
/-! DEFINITION. One arm per command: the rule of its mnemonic (00_scope.md R16, last line of the step). -/

namespace Sys2Proof.Machine

def exec (i : Instr) (s : State) : Host.Outcome State Fault Refusal :=
  match i with
  | .nop => Sys2Proof.Machine.execNop s
  | .clr => Sys2Proof.Machine.execClr s
  | .rdreg r => Sys2Proof.Machine.execRdreg r s
  | .faSym y => Sys2Proof.Machine.execFaSym y s
  | .ftSet y c => Sys2Proof.Machine.execFtSet y c s
  | .ftRd y => Sys2Proof.Machine.execFtRd y s
  | .tbBuild => Sys2Proof.Machine.execTbBuild s
  | .ndInfo n => Sys2Proof.Machine.execNdInfo n s
  | .ndFreq n => Sys2Proof.Machine.execNdFreq n s
  | .ctGen => Sys2Proof.Machine.execCtGen s
  | .ctLen y => Sys2Proof.Machine.execCtLen y s
  | .ctBits y k => Sys2Proof.Machine.execCtBits y k s
  | .encSym y => Sys2Proof.Machine.execEncSym y s
  | .encFlush => Sys2Proof.Machine.execEncFlush s
  | .decBit x => Sys2Proof.Machine.execDecBit x s
  | .decByte y n => Sys2Proof.Machine.execDecByte y n s
  | .decEnd f => Sys2Proof.Machine.execDecEnd f s

end Sys2Proof.Machine
end

