-- ==== Sys2Proof/Machine/Sequencer.lean ====
section
/-! DEFINITION. The sequencer: which of the host's moves comes next, and what the core does with an accepted word
(00_scope.md R13, R16; 60_exceptions.md R186, R188). -/

namespace Sys2Proof.Machine

/-- The set `ALWAYS`: the commands that execute while `FAULT` = 1 (60_exceptions.md R186). -/
def runsInFaultState : Instr → Bool
  | .nop => true
  | .clr => true
  | .rdreg _ => true
  | .faSym _ => false
  | .ftSet _ _ => false
  | .ftRd _ => true
  | .tbBuild => false
  | .ndInfo _ => true
  | .ndFreq _ => true
  | .ctGen => false
  | .ctLen _ => true
  | .ctBits _ _ => true
  | .encSym _ => false
  | .encFlush => false
  | .decBit _ => false
  | .decByte _ _ => false
  | .decEnd _ => false

/-- The answer to a word that does not execute in the fault state: `Aborted`, no state changes (60_exceptions.md R186). -/
def aborted (s : State) : Host.Outcome State Fault Refusal := .next (s.respond statusAborted 0)

/-- The step of the core on an accepted command word (00_scope.md R16). -/
def acceptWord (w : Word) (s : State) : Host.Outcome State Fault Refusal :=
  match decode w with
  | .error _ => if s.fault then aborted s else raised s .illegalCommand 0 w
  | .ok i => if s.fault && !runsInFaultState i then aborted s else exec i s

/-- The next move of the host: a command word is accepted, `RST` resets the core, and with no move pending the block
idles with its state kept (00_scope.md R16; 70_reset_and_hazards.md R200, R205; log 1). -/
def takeInput (s : State) : Host.Outcome State Fault Refusal :=
  match s.inputs with
  | [] => .next s
  | .rst :: rest => .next { s with inputs := rest }.hardReset
  | .command w :: rest => acceptWord w { s with inputs := rest }

/-- The state with one more word at the head of the host's moves (log 2). -/
def offerWord (w : Word) (s : State) : State := { s with inputs := .command w :: s.inputs }

end Sys2Proof.Machine
end

