-- ==== Sys2Proof/Machine/Step.lean ====
section
/-! DEFINITION. One step of the machine: the next move of the host is taken whole (00_scope.md R13, R16). -/

namespace Sys2Proof.Machine

/-- One step (00_scope.md R13, R16). -/
def step (s : State) : Host.Outcome State Fault Refusal := takeInput s

/-- The state with the command word whose bits are `w` as the host's next move (log 2). -/
def State.withFetchWord (s : State) (nbits w : Nat) : State := offerWord (BitVec.ofNat 64 (w % 2 ^ nbits)) s

end Sys2Proof.Machine
end

