-- ==== Sys2Proof/Safety.lean ====
section
/-! DEFINITION. What the claims mean by a good state and a good run: paths through the tree, the invariants the spec states
(10_state.md R26 to R34, R50 to R52, 20_memory.md R67), and runs of a sequence of commands (70_reset_and_hazards.md R213). -/

namespace Sys2Proof.Machine

/-! ### Paths -/

/-- The node a sequence of edges leads to from a node, bit 0 the left edge, bit 1 the right edge; none where the path leaves
the internal nodes before its end (43_code_table.md R140). -/
def followPath (node : List (Nat × NodeRec)) : NodeIdx → List Bool → Option NodeIdx
  | i, [] => some i
  | i, x :: xs =>
    match nodeRec? node i with
    | some n => if n.kind = .internal then followPath node (n.child x) xs else none
    | none => none

/-- The path leads from the root to a leaf that holds the symbol. -/
def State.leadsTo (s : State) (path : List Bool) (y : Symbol) : Prop :=
  ∃ i, followPath s.node s.root path = some i ∧ (s.nodeAt i).kind = .leaf ∧ (s.nodeAt i).sym = y

/-- Node `j` is the child of the internal node `i` along edge `x`. -/
def State.isChild (s : State) (i : NodeIdx) (x : Bool) (j : NodeIdx) : Prop :=
  (s.nodeAt i).kind = .internal ∧ (s.nodeAt i).child x = j

/-! ### Invariants -/

/-- What holds of the arena whenever `TREE_VALID` = 1 (10_state.md R24, R25, R26, R50; 20_memory.md R67;
42_tree_builder.md R130). -/
structure TreeInv (s : State) : Prop where
  /-- There are 1 to 256 leaves (R26). -/
  leafRange : 1 ≤ s.nleaf.toNat ∧ s.nleaf.toNat ≤ 256
  /-- `NNODE` = 2·`NLEAF` − 1 with two leaves or more (R26). -/
  sizeMany : 2 ≤ s.nleaf.toNat → s.nnode.toNat = 2 * s.nleaf.toNat - 1
  /-- With one leaf `NNODE` = 3, the leaf on the root's left and the sentinel on its right (R26; 42_tree_builder.md
  R129). -/
  sizeOne : s.nleaf.toNat = 1 → s.nnode.toNat = 3 ∧ (s.nodeAt s.root).left = 0 ∧ (s.nodeAt s.root).right = 1
  /-- The allocated records are those below `NNODE` (R26). -/
  allocated : ∀ i : NodeIdx, (s.nodeAt i).kind ≠ .free ↔ i.toNat < s.nnode.toNat
  /-- The leaves are the records below `NLEAF` (20_memory.md R67). -/
  leafPlace : ∀ i : NodeIdx, (s.nodeAt i).kind = .leaf ↔ i.toNat < s.nleaf.toNat
  /-- The leaves stand in ascending symbol order, so their symbols are distinct (R50 item 5; 20_memory.md R67). -/
  leafOrder : ∀ i j : NodeIdx, i.toNat < j.toNat → j.toNat < s.nleaf.toNat →
    (s.nodeAt i).sym.toNat < (s.nodeAt j).sym.toNat
  /-- A leaf has no children, and a count for its frequency (R24). -/
  leafFields : ∀ i : NodeIdx, (s.nodeAt i).kind = .leaf →
    (s.nodeAt i).left = 0 ∧ (s.nodeAt i).right = 0 ∧ (s.nodeAt i).freq.toNat ≤ Config.countMax
  /-- A sentinel holds nothing and exists only beside a single leaf (R25). -/
  sentinelFields : ∀ i : NodeIdx, (s.nodeAt i).kind = .sentinel →
    s.nleaf.toNat = 1 ∧ s.nodeAt i = ⟨.sentinel, 0, 0, 0, 0⟩
  /-- An internal node has two children, allocated before it, and no symbol (R24, R50 items 1 and 4). -/
  childBelow : ∀ i : NodeIdx, (s.nodeAt i).kind = .internal →
    (s.nodeAt i).left.toNat < i.toNat ∧ (s.nodeAt i).right.toNat < i.toNat ∧ (s.nodeAt i).sym = 0
  /-- An internal node's frequency is the sum of its children's, as natural numbers (R50 item 3;
  42_tree_builder.md R135). -/
  freqSum : ∀ i : NodeIdx, (s.nodeAt i).kind = .internal →
    (s.nodeAt i).freq.toNat = (s.nodeAt (s.nodeAt i).left).freq.toNat + (s.nodeAt (s.nodeAt i).right).freq.toNat
  /-- Every record but the root is the child of exactly one internal record, on one side of it (R50 item 4). -/
  oneParent : ∀ j : NodeIdx, j.toNat < s.nnode.toNat → j ≠ s.root →
    ∃ i x, s.isChild i x j ∧ ∀ i' x', s.isChild i' x' j → i' = i ∧ x' = x
  /-- The root is the last record and internal (R50 item 6). -/
  rootLast : s.root.toNat + 1 = s.nnode.toNat ∧ (s.nodeAt s.root).kind = .internal

/-- What holds of the code table whenever `CODES_VALID` = 1 (10_state.md R29, R30). -/
structure CodesInv (s : State) : Prop where
  /-- The codes are those of the current tree (R30). -/
  tree : s.treeValid = true
  /-- Every leaf's symbol has a code (R30). -/
  covers : ∀ i : NodeIdx, (s.nodeAt i).kind = .leaf → (s.ctAt (s.nodeAt i).sym).v = true
  /-- A code has at least one bit and is the path to its symbol's leaf (R29, R30). -/
  paths : ∀ y : Symbol, (s.ctAt y).v = true → 1 ≤ (s.ctAt y).len.toNat ∧ s.leadsTo (s.ctAt y).code y
  /-- The bits above a code's length are 0 (R29). -/
  highBits : ∀ (y : Symbol) (k : Nat), (s.ctAt y).len.toNat ≤ k → (s.ctAt y).bits.getLsbD k = false
  /-- An entry that is not valid is all zero (R29). -/
  invalid : ∀ y : Symbol, (s.ctAt y).v = false → s.ctAt y = ⟨false, 0, 0⟩

/-- What holds of the state without a tree (10_state.md R27, R28, R30, R33; 42_tree_builder.md R127). -/
structure NoTree (s : State) : Prop where
  node : s.node = []
  nnode : s.nnode = 0
  nleaf : s.nleaf = 0
  root : s.root = 0
  pq : s.pq = []
  codes : s.codesValid = false
  decCur : s.decCur = 0

/-- The three memories stand in their canonical form (log 7). -/
abbrev State.memWf (s : State) : Prop :=
  Memory.wf 256 FtEntry.empty s.ft ∧ Memory.wf 511 NodeRec.empty s.node ∧ Memory.wf 256 CtEntry.empty s.ct

/-- The invariant of the block. -/
structure Inv (s : State) : Prop where
  /-- The memories are canonical. -/
  memories : s.memWf
  /-- An entry of `FT` that is no key has count 0 (10_state.md R51), and a count fits `FREQ_W` bits (R23). -/
  table : ∀ y : Symbol, ((s.ftAt y).v = false → (s.ftAt y).cnt = 0) ∧ (s.ftAt y).cnt.toNat ≤ Config.countMax
  /-- With a tree: the tree's invariants (R50), the queue holds the root alone (R28), and the decoder stands on an internal
  node (R52). -/
  tree : s.treeValid = true → TreeInv s ∧ s.pq = [s.root] ∧ (s.nodeAt s.decCur).kind = .internal
  /-- Without a tree everything that derives from one is at its reset value. -/
  noTree : s.treeValid = false → NoTree s
  /-- With codes: each leaf's path (R30). -/
  codes : s.codesValid = true → CodesInv s
  /-- Without codes the code table is empty (R30). -/
  noCodes : s.codesValid = false → s.ct = []
  /-- The packer's bits above `PK_CNT` are 0 (R32). -/
  packerBits : s.pkBuf.toNat < 2 ^ s.pkCnt.toNat
  /-- The packer holds the bits beyond the last full byte, while the bit counter has not saturated
  (44_encoder.md R153). -/
  packerCount : s.encBitCnt.toNat < 2 ^ 48 - 1 → s.pkCnt.toNat = s.encBitCnt.toNat % 8
  /-- `ERR` and `FAULTINFO` are 0 without a fault (R34). -/
  noFault : s.fault = false → s.err = 0 ∧ s.faultInfo = 0
  /-- `ERR` names one of the seven faults in the fault state (R34; 60_exceptions.md R180). -/
  faultCode : s.fault = true → 1 ≤ s.err.toNat ∧ s.err.toNat ≤ 7

/-! ### Runs -/

/-- The state with these commands as the host's next moves. -/
def State.feed (s : State) (is : List Instr) : State := { s with inputs := is.map (fun i => .command (encode i)) }

/-- The outcome of sending a sequence of commands and running until each is answered (70_reset_and_hazards.md R213). -/
def runCommands (is : List Instr) (s : State) : Host.Outcome State Fault Refusal :=
  Host.Core.run Sys2Proof.core is.length (s.feed is)

end Sys2Proof.Machine
end

