-- ==== Sys2Proof/Certificates/Slice0/Obligations.lean ====
section
/-! DEFINITION. The statements about the block, for the provers. What they say of a result is written here from the rules of
spec/, in numbers and by reads of the state. -/

namespace Sys2Proof.Spec

open Sys2Proof.Machine

/-! ### Responses and faults -/

/-- The response word with this status and this data (30_encoding.md R87). -/
def word (st d : Nat) : Word := BitVec.ofNat 64 (st * 2 ^ 56 + d)

/-- The state with one more response on `RSP`, everything else as it is. -/
def answer (s : State) (st d : Nat) : State := { s with beats := s.beats ++ [.rsp (word st d)] }

/-- The value of `FAULTINFO` for these fields (60_exceptions.md R182). -/
def info (fbit b a op : Nat) : Nat := fbit * 2 ^ 32 + b * 2 ^ 16 + a * 2 ^ 8 + op

/-- The state with a fault of this code latched and answered, everything else as it is (60_exceptions.md R184). -/
def latched (s : State) (code fi : Nat) : State :=
  { s with
    fault := true, err := BitVec.ofNat 8 code, faultInfo := BitVec.ofNat 36 fi,
    beats := s.beats ++ [.rsp (word code 0)] }

/-- The set `ALWAYS` (60_exceptions.md R186). -/
def always : List Mnemonic := [.nop, .clr, .rdreg, .ftRd, .ndInfo, .ndFreq, .ctLen, .ctBits]

/-- The faults a command can raise (60_exceptions.md R180, column "raised by"). -/
def faultsOf : Mnemonic → List Nat
  | .tbBuild => [1]
  | .encSym => [2]
  | .decEnd => [3, 4, 5]
  | .ctGen => [4]
  | .decBit | .decByte => [4, 5]
  | .faSym => [6]
  | .nop | .clr | .rdreg | .ftSet | .ftRd | .ndInfo | .ndFreq | .ctLen | .ctBits | .encFlush => []

/-- 1 for true, 0 for false. -/
def num (x : Bool) : Nat := if x then 1 else 0

/-! ### Illegal words -/

/-- The six cases of 30_encoding.md R85, on the fields `op` = W[63:56], `a` = W[55:48], `b` = W[47:32], `imm` = W[31:0]
of a word taken as numbers; the unused fields are those of R82 and the unused bits of `b` those of R83. -/
def illegal (w : Word) : Prop :=
  let op := w.toNat / 2 ^ 56
  let a := w.toNat / 2 ^ 48 % 2 ^ 8
  let b := w.toNat / 2 ^ 32 % 2 ^ 16
  let imm := w.toNat % 2 ^ 32
  (op ∉ [0x00, 0x01, 0x02, 0x10, 0x11, 0x12, 0x20, 0x21, 0x22, 0x30, 0x31, 0x32, 0x40, 0x41, 0x50, 0x51, 0x52]) ∨
  (op ∈ [0x00, 0x01, 0x20, 0x30, 0x41] ∧ (a ≠ 0 ∨ b ≠ 0 ∨ imm ≠ 0)) ∨
  (op ∈ [0x02, 0x10, 0x12, 0x31, 0x40] ∧ (b ≠ 0 ∨ imm ≠ 0)) ∨
  (op = 0x11 ∧ b ≠ 0) ∨
  (op ∈ [0x21, 0x22] ∧ (a ≠ 0 ∨ imm ≠ 0 ∨ 2 ^ 9 ≤ b)) ∨
  (op ∈ [0x50, 0x52] ∧ (a ≠ 0 ∨ imm ≠ 0 ∨ 2 ^ 1 ≤ b)) ∨
  (op = 0x32 ∧ (imm ≠ 0 ∨ 2 ^ 3 ≤ b)) ∨
  (op = 0x51 ∧ (imm ≠ 0 ∨ 2 ^ 4 ≤ b)) ∨
  (op = 0x02 ∧ 0x0C < a) ∨
  (op ∈ [0x21, 0x22] ∧ b = 511) ∨
  (op = 0x51 ∧ (b = 0 ∨ 8 < b)) ∨
  (op = 0x11 ∧ 2 ^ Config.freqW ≤ imm)

/-! ### Reads of the state -/

/-- Every element of 10_state.md R55 but the traces reads as its reset value. -/
def atReset (t : State) : Prop :=
  (∀ y : Symbol, t.ftAt y = ⟨false, 0⟩) ∧ (∀ i : NodeIdx, t.nodeAt i = ⟨.free, 0, 0, 0, 0⟩) ∧
  (∀ y : Symbol, t.ctAt y = ⟨false, 0, 0⟩) ∧ t.pq = [] ∧ t.nnode = 0 ∧ t.nleaf = 0 ∧ t.root = 0 ∧ t.treeValid = false ∧
  t.codesValid = false ∧ t.encSymCnt = 0 ∧ t.encBitCnt = 0 ∧ t.pkBuf = 0 ∧ t.pkCnt = 0 ∧ t.decCur = 0 ∧
  t.decSymCnt = 0 ∧ t.fault = false ∧ t.err = 0 ∧ t.faultInfo = 0 ∧ t.faultO = false

/-- The memory `ft'` is the frequency table of `s` with entry `y` replaced, and stays canonical. -/
def ftReplaced (s : State) (y : Symbol) (e : FtEntry) (ft' : List (Nat × FtEntry)) : Prop :=
  (∀ z : Symbol, Memory.read FtEntry.empty ft' z.toNat = if z = y then e else s.ftAt z) ∧
  (Memory.wf 256 FtEntry.empty s.ft → Memory.wf 256 FtEntry.empty ft')

/-- The value of a status register (10_state.md R45, R46, R47). -/
def regValue (s : State) : StatusReg → Nat
  | .status =>
    s.err.toNat * 2 ^ 8 + num (s.treeValid && (s.decCur != s.root)) * 8 + num s.codesValid * 4 + num s.treeValid * 2
      + num s.fault
  | .nnode => s.nnode.toNat
  | .nleaf => s.nleaf.toNat
  | .root => s.root.toNat
  | .pqlen => s.pq.length % 2 ^ 9
  | .encSymCnt => s.encSymCnt.toNat
  | .encBitCnt => s.encBitCnt.toNat
  | .packer => s.pkCnt.toNat * 2 ^ 8 + s.pkBuf.toNat
  | .decCur => s.decCur.toNat
  | .decSymCnt => s.decSymCnt.toNat
  | .ftCount => ((List.range 256).filter (fun y => (s.ftAt (BitVec.ofNat 8 y)).v)).length
  | .params => 0x1FF282008
  | .faultInfo => s.faultInfo.toNat

/-- The number of a status register in a word of `RDREG` (10_state.md R45). -/
def regNumber : StatusReg → Nat
  | .status => 0x00
  | .nnode => 0x01
  | .nleaf => 0x02
  | .root => 0x03
  | .pqlen => 0x04
  | .encSymCnt => 0x05
  | .encBitCnt => 0x06
  | .packer => 0x07
  | .decCur => 0x08
  | .decSymCnt => 0x09
  | .ftCount => 0x0A
  | .params => 0x0B
  | .faultInfo => 0x0C

/-- The number of a node kind (10_state.md R24). -/
def kindNumber : NodeKind → Nat
  | .free => 0
  | .leaf => 1
  | .internal => 2
  | .sentinel => 3

/-- The key of node `i` lies before the key of node `j`: by frequency, then by index (42_tree_builder.md R121). -/
def keyBefore (s : State) (i j : NodeIdx) : Prop :=
  (s.nodeAt i).freq.toNat < (s.nodeAt j).freq.toNat ∨
  ((s.nodeAt i).freq.toNat = (s.nodeAt j).freq.toNat ∧ i.toNat < j.toNat)

/-- The queue is sorted ascending by key (10_state.md R28). -/
def queueSorted (s : State) : Prop := s.pq.Pairwise (keyBefore s)

/-- Record `j` lies below record `r` and is no child of a record below `r`: it waits in the queue when `r` is made
(42_tree_builder.md R124, R125). -/
def waiting (s : State) (r j : NodeIdx) : Prop :=
  j.toNat < r.toNat ∧ ∀ (i : NodeIdx) (x : Bool), i.toNat < r.toNat → ¬ s.isChild i x j

/-- The number of keys of the frequency table of `s` below the symbol `y`. -/
def keysBelow (s : State) (y : Symbol) : Nat :=
  ((List.range y.toNat).filter (fun z => (s.ftAt (BitVec.ofNat 8 z)).v)).length

/-- A sum over the keys of the frequency table of `s`. -/
def keySum (s : State) (f : Symbol → Nat) : Nat :=
  ((List.range 256).map (fun y => if (s.ftAt (BitVec.ofNat 8 y)).v then f (BitVec.ofNat 8 y) else 0)).sum

/-! ### Packed bits -/

/-- The byte of eight bits, the earliest most significant (20_memory.md R63). -/
def byteOf (l : List Bool) : Byte := BitVec.ofNat 8 (l.foldl (fun acc x => 2 * acc + num x) 0)

/-- The full bytes of a bit string. -/
def fullBytes : List Bool → List Byte
  | a :: b :: c :: d :: e :: f :: g :: h :: l => byteOf [a, b, c, d, e, f, g, h] :: fullBytes l
  | _ => []

/-- The bits after the last full byte. -/
def leftOver : List Bool → List Bool
  | _ :: _ :: _ :: _ :: _ :: _ :: _ :: _ :: l => leftOver l
  | l => l

/-- The bits waiting in the packer, the earliest first (10_state.md R32). -/
def pending (s : State) : List Bool :=
  (List.range s.pkCnt.toNat).map (fun j => s.pkBuf.getLsbD (s.pkCnt.toNat - 1 - j))

/-- The commands that feed packed bytes holding so many bits to the decoder (70_reset_and_hazards.md R206). -/
def byteCommands : List Byte → Nat → List Instr
  | [], _ => []
  | y :: ys, n => .decByte y (BitVec.ofNat 4 (min 8 n)) :: byteCommands ys (n - 8)

/-- The bits `DEC_BYTE y, n` consumes: y[7], y[6], …, y[8−n] (45_decoder.md R164). -/
def highBits (y : Byte) (n : BitVec 4) : List Bool := (List.range n.toNat).map (fun i => y.getLsbD (7 - i))

/-- The decoded symbols among the beats since a state. -/
def symbolsSince (s u : State) : List Symbol :=
  (u.beats.drop s.beats.length).filterMap (fun b => match b with | .sym y => some y | _ => none)

/-- From node `c` the bits are codewords that end in leaves with these symbols, the first a walk on from `c` and each later one
from the root, and then a walk to the internal node `e` (45_decoder.md R161). -/
def decodesTo (s : State) : NodeIdx → List Bool → List Symbol → NodeIdx → Prop
  | c, bits, [], e => followPath s.node c bits = some e ∧ e.toNat ≤ 510 ∧ (s.nodeAt e).kind = .internal
  | c, bits, y :: ys, e =>
    ∃ (p rest : List Bool) (l : NodeIdx), bits = p ++ rest ∧ p ≠ [] ∧ followPath s.node c p = some l ∧ l.toNat ≤ 510 ∧
      (s.nodeAt l).kind = .leaf ∧ (s.nodeAt l).sym = y ∧ decodesTo s s.root rest ys e

/-- The state after a leaf is reached: its symbol emitted and counted, the pointer back at the root, and the answer
(45_decoder.md R162, R163). -/
def symbolOut (s : State) (y : Symbol) : State :=
  { s with
    decCur := s.root, decSymCnt := BitVec.ofNat 40 (min (s.decSymCnt.toNat + 1) (2 ^ 40 - 1)),
    beats := s.beats ++ [.sym y, .rsp (word 0 (2 ^ 8 + y.toNat))] }

end Sys2Proof.Spec

open Sys2Proof Sys2Proof.Machine Sys2Proof.Spec

/-! ### Encoding (30_encoding.md) -/

/-- Decoding the word of a legal command gives the command back, with every operand at every value (R80 to R86). -/
def Obligations.DecodeOfEncode : Prop :=
  ∀ i : Instr, i.wf = true → decode (encode i) = .ok i

/-- A word that decodes is the word of the command it decodes to, and the command is legal: each word has one meaning
(R85, R86). -/
def Obligations.EncodeOfDecode : Prop :=
  ∀ (w : Word) (i : Instr), decode w = .ok i → encode i = w ∧ i.wf = true

/-- A word is illegal in exactly the six cases of R85; every other word is a command with legal fields. An illegal word raises
`IllegalCommand` when `FAULT` = 0 and is answered `Aborted` when `FAULT` = 1 (R85). -/
def Obligations.IllegalWordsAreTheSixCases : Prop :=
  (∀ w : Word, (∃ e, decode w = .error e) ↔ illegal w) ∧
  (∀ w : Word, ¬ illegal w → ∃ i, decode w = .ok i ∧ i.wf = true) ∧
  (∀ (s : State) (w : Word) (rest : List HostInput), s.inputs = .command w :: rest → illegal w →
    (s.fault = false → step s = .next (latched { s with inputs := rest } 7
      (info 0 (w.toNat / 2 ^ 32 % 2 ^ 16) (w.toNat / 2 ^ 48 % 2 ^ 8) (w.toNat / 2 ^ 56)))) ∧
    (s.fault = true → step s = .next (answer { s with inputs := rest } 8 0)))

/-- For each of the seventeen rows of R84 a word that the spec writes out decodes to the command it stands for (R84, R90; the
examples of R100 to R102, R111 to R113, R126, R131, R132, R141, R144, R145, R151, R154, R163 to R165). -/
def Obligations.ExampleWordsDecode : Prop :=
  decode 0x0000000000000000 = .ok .nop ∧ decode 0x0100000000000000 = .ok .clr ∧
  decode 0x0200000000000000 = .ok (.rdreg .status) ∧ decode 0x1061000000000000 = .ok (.faSym 0x61) ∧
  decode 0x1161000000000005 = .ok (.ftSet 0x61 5) ∧ decode 0x1261000000000000 = .ok (.ftRd 0x61) ∧
  decode 0x2000000000000000 = .ok .tbBuild ∧ decode 0x2100000800000000 = .ok (.ndInfo 8) ∧
  decode 0x2200000800000000 = .ok (.ndFreq 8) ∧ decode 0x3000000000000000 = .ok .ctGen ∧
  decode 0x3162000000000000 = .ok (.ctLen 0x62) ∧ decode 0x3262000000000000 = .ok (.ctBits 0x62 0) ∧
  decode 0x4062000000000000 = .ok (.encSym 0x62) ∧ decode 0x4100000000000000 = .ok .encFlush ∧
  decode 0x5000000100000000 = .ok (.decBit true) ∧ decode 0x516E000800000000 = .ok (.decByte 0x6E 8) ∧
  decode 0x5200000100000000 = .ok (.decEnd true)

/-! ### The sequencer (00_scope.md, 60_exceptions.md, 70_reset_and_hazards.md) -/

/-- The step is the function of R16 of the state and the accepted word, which is taken off the host's moves: a legal word runs
its command unless the fault state forbids it, in which case it is answered `Aborted`; an illegal word raises `IllegalCommand`
(60_exceptions.md R184) or, in the fault state, is answered `Aborted`. -/
def Obligations.StepRunsDecodedCommand : Prop :=
  ∀ (s : State) (w : Word) (rest : List HostInput), s.inputs = .command w :: rest →
    (∀ i, decode w = .ok i → (s.fault = false ∨ i.mnemonic ∈ always) → step s = exec i { s with inputs := rest }) ∧
    (∀ i, decode w = .ok i → s.fault = true → i.mnemonic ∉ always →
      step s = .next (answer { s with inputs := rest } 8 0)) ∧
    (∀ e, decode w = .error e → s.fault = true → step s = .next (answer { s with inputs := rest } 8 0)) ∧
    (∀ e, decode w = .error e → s.fault = false →
      step s = .next (latched { s with inputs := rest } 7
        (info 0 (w.toNat / 2 ^ 32 % 2 ^ 16) (w.toNat / 2 ^ 48 % 2 ^ 8) (w.toNat / 2 ^ 56))))

/-- A step takes the host's next move and no other, and while the host makes no move the block idles and keeps all state
(70_reset_and_hazards.md R200, R205; 60_exceptions.md R197). That the moves stand in the state as a queue, that an idle block
takes steps at all, and that `RST` drops no later move are the model's choices (logs 1, 2, 3). -/
def Obligations.HostMovesAreTakenInOrder : Prop :=
  ∀ s : State,
    (s.inputs = [] → step s = .next s) ∧
    (∀ rest, s.inputs = .rst :: rest → ∃ t, step s = .next t ∧ t.inputs = rest) ∧
    (∀ w rest t, s.inputs = .command w :: rest → step s = .next t → t.inputs = rest)

/-- Hardware reset puts every element at its reset value with the traces empty, and `CLR` puts every element at the same value
with the traces kept, its response `OK` 0 appended (10_state.md R55; 40_system.md R101; 70_reset_and_hazards.md R201). -/
def Obligations.ResetAndClrValues : Prop :=
  (atReset State.reset ∧ State.reset.beats = []) ∧
  (∀ (s : State) (rest : List HostInput), s.inputs = .rst :: rest → ∃ t, step s = .next t ∧ atReset t ∧ t.beats = []) ∧
  (∀ s : State, ∃ t, exec .clr s = .next t ∧ atReset t ∧ t.beats = s.beats ++ [.rsp (word 0 0)])

/-- Every accepted word appends exactly one response, after all its other beats; nothing is removed from the traces; the status
is one of 0x00 to 0x08, and the data is 0 whenever the status is not `OK` (30_encoding.md R87, R88; 20_memory.md R74). -/
def Obligations.OneResponsePerCommandLast : Prop :=
  ∀ (s t : State) (w : Word) (rest : List HostInput), s.inputs = .command w :: rest → step s = .next t →
    ∃ (bs : List Beat) (r : Word), t.beats = s.beats ++ bs ++ [.rsp r] ∧ (∀ r', Beat.rsp r' ∉ bs) ∧
      r.toNat / 2 ^ 56 ≤ 8 ∧ (r.toNat / 2 ^ 56 ≠ 0 → r.toNat % 2 ^ 56 = 0)

/-- In the fault state only `ALWAYS` executes: every word but `CLR` leaves the whole state as it is but for the response, and a
word that is illegal or outside `ALWAYS` is answered `Aborted` with data 0 (60_exceptions.md R186). -/
def Obligations.FaultStateChangesNothing : Prop :=
  ∀ (s : State) (w : Word) (rest : List HostInput), s.fault = true → s.inputs = .command w :: rest → decode w ≠ .ok .clr →
    ∃ (t : State) (r : Word), step s = .next t ∧ t = { s with inputs := rest, beats := s.beats ++ [.rsp r] } ∧
      ((∀ i, decode w = .ok i → i.mnemonic ∉ always) → r = word 8 0)

/-- A step that enters the fault state latches a fault the word's command can raise, and records the word: `op`, `a`, `b`, and
a bit index that only `DEC_BYTE` has; it answers the fault's code (60_exceptions.md R180, R182, R184). -/
def Obligations.FaultEntryRecordsTheWord : Prop :=
  ∀ (s t : State) (w : Word) (rest : List HostInput), s.inputs = .command w :: rest → s.fault = false → step s = .next t →
    t.fault = true →
    ∃ k code : Nat, k ≤ 7 ∧ t.err = BitVec.ofNat 8 code ∧
      t.faultInfo = BitVec.ofNat 36
        (info k (w.toNat / 2 ^ 32 % 2 ^ 16) (w.toNat / 2 ^ 48 % 2 ^ 8) (w.toNat / 2 ^ 56)) ∧
      t.rspTrace = s.rspTrace ++ [word code 0] ∧
      (∀ e, decode w = .error e → code = 7 ∧ k = 0) ∧
      (∀ i, decode w = .ok i → code ∈ faultsOf i.mnemonic ∧ (i.mnemonic ≠ .decByte → k = 0))

/-- Faults are precise: in a state of the block's invariants, a command other than `TB_BUILD` and `DEC_BYTE` that raises a
fault changes nothing else (60_exceptions.md R185, which the spec derives). -/
def Obligations.FaultsArePrecise : Prop :=
  ∀ (i : Instr) (s t : State), Inv s → s.fault = false → i.mnemonic ≠ .tbBuild → i.mnemonic ≠ .decByte →
    exec i s = .next t → t.fault = true → ∃ code fi : Nat, t = latched s code fi

/-- What each command leaves alone: the elements of state are written only by the commands of their owner, `TB_BUILD` and `CLR`
(10_state.md R20, R23, R27 to R34; 20_memory.md R61), and only the encoder and the decoder emit data. -/
def Obligations.ElementsAreWrittenByTheirOwners : Prop :=
  ∀ (i : Instr) (s t : State), exec i s = .next t →
    (i.mnemonic ∉ [.faSym, .ftSet, .clr] → t.ft = s.ft) ∧
    (i.mnemonic ∉ [.tbBuild, .clr] →
      t.node = s.node ∧ t.nnode = s.nnode ∧ t.nleaf = s.nleaf ∧ t.root = s.root ∧ t.treeValid = s.treeValid
        ∧ t.pq = s.pq) ∧
    (i.mnemonic ∉ [.ctGen, .tbBuild, .clr] → t.ct = s.ct ∧ t.codesValid = s.codesValid) ∧
    (i.mnemonic ∉ [.encSym, .encFlush, .tbBuild, .clr] →
      t.encSymCnt = s.encSymCnt ∧ t.encBitCnt = s.encBitCnt ∧ t.pkBuf = s.pkBuf ∧ t.pkCnt = s.pkCnt) ∧
    (i.mnemonic ∉ [.decBit, .decByte, .decEnd, .tbBuild, .clr] → t.decCur = s.decCur ∧ t.decSymCnt = s.decSymCnt) ∧
    (i.mnemonic ≠ .clr → s.fault = true → t.fault = true) ∧
    (i.mnemonic ≠ .encSym → t.bitTrace = s.bitTrace) ∧
    (i.mnemonic ∉ [.encSym, .encFlush] → t.byteTrace = s.byteTrace) ∧
    (i.mnemonic ∉ [.decBit, .decByte] → t.symTrace = s.symTrace) ∧
    t.inputs = s.inputs

/-! ### System commands (40_system.md) -/

/-- `NOP` answers `OK` 0 and changes nothing (R100). -/
def Obligations.NopOnlyAnswers : Prop :=
  ∀ s : State, exec .nop s = .next (answer s 0 0)

/-- `RDREG r` answers the register's value and changes nothing, for each of the thirteen registers; the word with the number R45
gives a register reads that register, and a register number above 0x0C has no legal word (R102; 10_state.md R45, R46,
R47). -/
def Obligations.RdregReadsTheRegister : Prop :=
  (∀ (r : StatusReg) (s : State), exec (.rdreg r) s = .next (answer s 0 (regValue s r))) ∧
  (∀ a : BitVec 8, 0x0C < a.toNat → ∃ e, decode (BitVec.ofNat 64 (0x02 * 2 ^ 56 + a.toNat * 2 ^ 48)) = .error e) ∧
  (∀ r : StatusReg, decode (BitVec.ofNat 64 (0x02 * 2 ^ 56 + regNumber r * 2 ^ 48)) = .ok (.rdreg r))

/-! ### Frequency unit (41_frequency.md) -/

/-- `FA_SYM s` makes the symbol a key, counts one and answers the new count; at the greatest count it raises `FreqOverflow` and
changes nothing else (R111). -/
def Obligations.FaSymCountsOrOverflows : Prop :=
  ∀ (y : Symbol) (s : State),
    ((s.ftAt y).cnt.toNat < 2 ^ Config.freqW - 1 →
      ∃ ft', exec (.faSym y) s = .next (answer { s with ft := ft' } 0 ((s.ftAt y).cnt.toNat + 1)) ∧
        ftReplaced s y ⟨true, BitVec.ofNat 32 ((s.ftAt y).cnt.toNat + 1)⟩ ft') ∧
    ((s.ftAt y).cnt.toNat = 2 ^ Config.freqW - 1 →
      exec (.faSym y) s = .next (latched s 6 (info 0 0 y.toNat 0x10)))

/-- `FT_SET s, c` makes the symbol a key with count c, overwriting what stood there, and answers 0 (R112). -/
def Obligations.FtSetReplacesTheEntry : Prop :=
  ∀ (y : Symbol) (c : BitVec 32) (s : State),
    ∃ ft', exec (.ftSet y c) s = .next (answer { s with ft := ft' } 0 0) ∧ ftReplaced s y ⟨true, c⟩ ft'

/-- `FT_RD s` answers the valid bit at bit 32 and the count below it, and changes nothing (R113). -/
def Obligations.FtRdReadsTheEntry : Prop :=
  ∀ (y : Symbol) (s : State),
    exec (.ftRd y) s = .next (answer s 0 (num (s.ftAt y).v * 2 ^ 32 + (s.ftAt y).cnt.toNat))

/-- After `FA_SYM` of each symbol of a sequence from the empty table, without a fault, every symbol's count is the number of
its occurrences and it is a key exactly when there is one (R115, which the spec derives from R111). -/
def Obligations.CountingPassCounts : Prop :=
  ∀ (l : List Symbol) (s : State), s.ft = [] → s.fault = false →
    ∃ t, runCommands (l.map .faSym) s = .next t ∧
      (t.fault = false → ∀ y : Symbol, (t.ftAt y).cnt.toNat = l.count y ∧ ((t.ftAt y).v = true ↔ 1 ≤ l.count y))

/-! ### Tree unit (42_tree_builder.md) -/

/-- `pq_insert` of a node not in the queue keeps the queue sorted by key, adds that node alone, and changes nothing else
(R121, R122). -/
def Obligations.PqInsertKeepsTheOrder : Prop :=
  ∀ (s : State) (i : NodeIdx), queueSorted s → i ∉ s.pq →
    queueSorted (s.pqInsert i) ∧ (s.pqInsert i).pq.Perm (i :: s.pq) ∧ s.pqInsert i = { s with pq := (s.pqInsert i).pq }

/-- The merge step makes the two queued nodes of least key the left and right child, in that order, of the next record, with
the sum of their frequencies, and queues it; the queue stays sorted and nothing else changes (R123, R125). -/
def Obligations.MergeStepJoinsTheTwoLeast : Prop :=
  ∀ (s : State) (x y : NodeIdx) (rest : List NodeIdx), s.pq = x :: y :: rest → s.nnode.toNat ≤ 510 → queueSorted s →
    (∀ i ∈ s.pq, i.toNat < s.nnode.toNat) →
    let r : NodeIdx := BitVec.ofNat 9 s.nnode.toNat
    let t := s.mergeStep
    (∀ j, t.nodeAt j =
      if j = r then
        ⟨.internal, 0, BitVec.ofNat 40 ((s.nodeAt x).freq.toNat + (s.nodeAt y).freq.toNat), x, y⟩
      else s.nodeAt j) ∧
    t.nnode.toNat = s.nnode.toNat + 1 ∧ t.pq.Perm (r :: rest) ∧ queueSorted t ∧
    t = { s with node := t.node, nnode := t.nnode, pq := t.pq }

/-- `TB_BUILD` on a table without keys raises `InvalidInput` after clearing the derived state; the table is kept (R126, R127,
R128). -/
def Obligations.TbBuildOfEmptyTableFaults : Prop :=
  ∀ s : State, (∀ y : Symbol, (s.ftAt y).v = false) →
    exec .tbBuild s = .next (latched
      { State.reset with
        ft := s.ft, fault := s.fault, err := s.err, faultInfo := s.faultInfo, beats := s.beats, inputs := s.inputs }
      1 0x20)

/-- `TB_BUILD` on a table with a key builds the tree of R130 and answers its size and root. The arena meets R50, the leaves are
the keys in ascending order with their counts, no leaf's path is a prefix of another's; the derived state is cleared, the
queue holds the root, the decoder stands on it, and everything else is as before (R126, R127; the shape is that of R130 and
R50, which the spec derives). -/
def Obligations.TbBuildBuildsTheTree : Prop :=
  ∀ s : State, (∃ y : Symbol, (s.ftAt y).v = true) →
    ∃ t, exec .tbBuild s = .next t ∧
      t = { s with
        node := t.node, nnode := t.nnode, nleaf := t.nleaf, root := t.root, treeValid := true, pq := [t.root], ct := [],
        codesValid := false, encSymCnt := 0, encBitCnt := 0, pkBuf := 0, pkCnt := 0, decCur := t.root, decSymCnt := 0,
        beats := s.beats ++ [.rsp (word 0 (t.nnode.toNat * 2 ^ 9 + t.root.toNat))] } ∧
      Memory.wf 511 NodeRec.empty t.node ∧ TreeInv t ∧
      (∀ y : Symbol, (s.ftAt y).v = true →
        ∃ i : NodeIdx, i.toNat < t.nleaf.toNat ∧ t.nodeAt i = ⟨.leaf, y, BitVec.ofNat 40 (s.ftAt y).cnt.toNat, 0, 0⟩) ∧
      (∀ i : NodeIdx, i.toNat < t.nleaf.toNat → (s.ftAt (t.nodeAt i).sym).v = true) ∧
      (∀ (p q : List Bool) (y z : Symbol), t.leadsTo p y → t.leadsTo q z → p <+: q → p = q)

/-- With two keys or more the tree is the one the greedy merge builds, record by record. The n keys are the first n records, in
ascending symbol order; each later record up to the root has as left child the node of least key, frequency first and index
second, among those waiting when it is made, as right child the second least, and as frequency their sum; the records above
the root are free (R121, R124, R125, R126). One key is the case of `SingleKeyTree`. -/
def Obligations.TbBuildMergesInKeyOrder : Prop :=
  ∀ s : State, 2 ≤ keySum s (fun _ => 1) →
    ∃ t, exec .tbBuild s = .next t ∧
      t.nleaf.toNat = keySum s (fun _ => 1) ∧ t.nnode.toNat = 2 * t.nleaf.toNat - 1 ∧
      t.root.toNat = 2 * t.nleaf.toNat - 2 ∧
      (∀ y : Symbol, (s.ftAt y).v = true →
        t.nodeAt (BitVec.ofNat 9 (keysBelow s y)) = ⟨.leaf, y, BitVec.ofNat 40 (s.ftAt y).cnt.toNat, 0, 0⟩) ∧
      (∀ r : NodeIdx, t.nleaf.toNat ≤ r.toNat → r.toNat < t.nnode.toNat →
        ∃ x y : NodeIdx, waiting t r x ∧ waiting t r y ∧ keyBefore t x y ∧
          (∀ j, waiting t r j → j ≠ x → j ≠ y → keyBefore t y j) ∧
          t.nodeAt r = ⟨.internal, 0, BitVec.ofNat 40 ((t.nodeAt x).freq.toNat + (t.nodeAt y).freq.toNat), x, y⟩) ∧
      (∀ r : NodeIdx, t.nnode.toNat ≤ r.toNat → t.nodeAt r = ⟨.free, 0, 0, 0, 0⟩)

/-- With one key the tree is the leaf on the left and the sentinel on the right of the root (R129). -/
def Obligations.SingleKeyTree : Prop :=
  ∀ (s : State) (y : Symbol), (∀ z : Symbol, (s.ftAt z).v = true ↔ z = y) →
    ∃ t, exec .tbBuild s = .next t ∧ t.rspTrace = s.rspTrace ++ [word 0 0x602] ∧ t.nnode = 3 ∧ t.nleaf = 1 ∧ t.root = 2 ∧
      t.treeValid = true ∧ t.decCur = 2 ∧ t.pq = [2] ∧
      t.nodeAt 0 = ⟨.leaf, y, BitVec.ofNat 40 (s.ftAt y).cnt.toNat, 0, 0⟩ ∧
      t.nodeAt 1 = ⟨.sentinel, 0, 0, 0, 0⟩ ∧
      t.nodeAt 2 = ⟨.internal, 0, BitVec.ofNat 40 (s.ftAt y).cnt.toNat, 0, 1⟩ ∧
      (∀ i : NodeIdx, 2 < i.toNat → t.nodeAt i = ⟨.free, 0, 0, 0, 0⟩)

/-- `TB_BUILD` is a function of the table alone: equal tables give equal trees, whatever else differs (R134, which
the spec derives from R121, R124 and R126). -/
def Obligations.TbBuildDependsOnTheTableAlone : Prop :=
  ∀ s s' : State, (∀ y : Symbol, s.ftAt y = s'.ftAt y) →
    ∃ t t', exec .tbBuild s = .next t ∧ exec .tbBuild s' = .next t' ∧ t.node = t'.node ∧ t.nnode = t'.nnode ∧
      t.nleaf = t'.nleaf ∧ t.root = t'.root ∧ t.treeValid = t'.treeValid

/-- The root's frequency is the sum of all counts, as natural numbers: no node's frequency wraps (R135 and 10_state.md R50
item 3, which the spec derives). -/
def Obligations.RootFrequencyIsTheTotal : Prop :=
  ∀ s : State, (∃ y : Symbol, (s.ftAt y).v = true) →
    ∃ t, exec .tbBuild s = .next t ∧ (t.nodeAt t.root).freq.toNat = keySum s (fun y => (s.ftAt y).cnt.toNat)

/-- `ND_INFO i` answers kind, symbol and children of a record and changes nothing (R131). -/
def Obligations.NdInfoReadsTheRecord : Prop :=
  ∀ (i : NodeIdx) (s : State), i.toNat ≤ 510 →
    exec (.ndInfo i) s = .next (answer s 0
      ((s.nodeAt i).right.toNat * 2 ^ 19 + (s.nodeAt i).left.toNat * 2 ^ 10 + (s.nodeAt i).sym.toNat * 2 ^ 2
        + kindNumber (s.nodeAt i).kind))

/-- `ND_FREQ i` answers a record's frequency and changes nothing (R132). -/
def Obligations.NdFreqReadsTheFrequency : Prop :=
  ∀ (i : NodeIdx) (s : State), i.toNat ≤ 510 →
    exec (.ndFreq i) s = .next (answer s 0 (s.nodeAt i).freq.toNat)

/-- Where the model stops at the index 511 of no record: `ND_INFO` and `ND_FREQ` on it as an operand, `DEC_BIT` at a pointer or a
child 511, `DEC_BYTE` at the first of its bits at which `DEC_BIT` would stop, `DEC_END 1` at the root 511 while `DEC_END 0`
reads no record and answers, and `CT_GEN` where left edges lead to 511; an arena in which any path leads there gets no codes.
All of this is the model's choice (logs 9, 17): the spec gives the arena no record 511 (10_state.md R24). -/
def Obligations.AbsentRecordStops : Prop :=
  (∀ s : State, exec (.ndInfo 511) s = .fault .nodeIndexAbsent ∧ exec (.ndFreq 511) s = .fault .nodeIndexAbsent) ∧
  (∀ (s : State) (x : Bool), s.treeValid = true → s.decCur = 511 → exec (.decBit x) s = .fault .nodeIndexAbsent) ∧
  (∀ (s : State) (x : Bool), s.treeValid = true → s.decCur.toNat ≤ 510 → s.isChild s.decCur x 511 →
    exec (.decBit x) s = .fault .nodeIndexAbsent) ∧
  (∀ (y : Byte) (n : BitVec 4) (i : Nat) (s u : State) (f : Fault), i < n.toNat → n.toNat ≤ 8 → s.fault = false →
    runCommands (((highBits y n).take i).map .decBit) s = .next u → u.fault = false →
    exec (.decBit (y.getLsbD (7 - i))) u = .fault f → exec (.decByte y n) s = .fault f) ∧
  (∀ s : State, s.treeValid = true → s.root = 511 → s.decCur = 511 →
    exec (.decEnd true) s = .fault .nodeIndexAbsent ∧
    exec (.decEnd false) s = .next (answer { s with decSymCnt := 0 } 0 s.decSymCnt.toNat)) ∧
  (∀ (s : State) (k : Nat), s.treeValid = true → k ≤ 510 →
    followPath s.node s.root (List.replicate k false) = some 511 → exec .ctGen s = .fault .nodeIndexAbsent) ∧
  (∀ (s t : State) (p : List Bool), s.treeValid = true → exec .ctGen s = .next t → t.codesValid = true →
    followPath s.node s.root p ≠ some 511)

/-! ### Code-table unit (43_code_table.md) -/

/-- `CT_GEN` with no valid tree raises `CorruptTree` and changes nothing else (R141). -/
def Obligations.CtGenNeedsATree : Prop :=
  ∀ s : State, s.treeValid = false → exec .ctGen s = .next (latched s 4 0x30)

/-- `CT_GEN` on a tree that meets R50 gives every leaf's symbol its path from the root, at most 255 bits, and no other symbol
an entry; it answers the number of leaves and changes nothing else (R140, R141, R143). -/
def Obligations.CtGenAssignsRootPaths : Prop :=
  ∀ s : State, s.treeValid = true → TreeInv s →
    ∃ ct', exec .ctGen s = .next (answer { s with ct := ct', codesValid := true } 0 s.nleaf.toNat) ∧
      Memory.wf 256 CtEntry.empty ct' ∧
      ∀ y : Symbol,
        (∀ p, s.leadsTo p y → (Memory.read CtEntry.empty ct' y.toNat).v = true ∧
          (Memory.read CtEntry.empty ct' y.toNat).len.toNat = p.length ∧
          ∀ k, (Memory.read CtEntry.empty ct' y.toNat).bits.getLsbD k = p.getD k false) ∧
        ((∃ i, (s.nodeAt i).kind = .leaf ∧ (s.nodeAt i).sym = y) → ∃ p, s.leadsTo p y) ∧
        ((∀ i, (s.nodeAt i).kind = .leaf → (s.nodeAt i).sym ≠ y) →
          Memory.read CtEntry.empty ct' y.toNat = ⟨false, 0, 0⟩)

/-- `CT_LEN s` answers the valid bit at bit 8 and the length below it, and changes nothing (R144). -/
def Obligations.CtLenReadsTheLength : Prop :=
  ∀ (y : Symbol) (s : State),
    exec (.ctLen y) s = .next (answer s 0 (num (s.ctAt y).v * 2 ^ 8 + (s.ctAt y).len.toNat))

/-- `CT_BITS s, k` answers code bits 32k to 32k+31, code bit 32k+j at data bit j, position 255 and everything above bit 31
reading 0, and changes nothing (R145). -/
def Obligations.CtBitsReadsAChunk : Prop :=
  ∀ (y : Symbol) (k : BitVec 3) (s : State),
    ∃ d : BitVec 56, exec (.ctBits y k) s = .next (answer s 0 d.toNat) ∧
      ∀ j, d.getLsbD j =
        (decide (j < 32) && decide (32 * k.toNat + j ≤ 254) && (s.ctAt y).bits.getLsbD (32 * k.toNat + j))

/-- The code table is prefix-free: no symbol's code is a prefix of another's, nor of the sentinel's unassigned path, nor that
path of a code (R146, which the spec derives from R141 and R50). -/
def Obligations.CodesArePrefixFree : Prop :=
  ∀ s : State, Inv s → s.codesValid = true →
    (∀ y z : Symbol, (s.ctAt y).v = true → (s.ctAt z).v = true → y ≠ z → ¬ (s.ctAt y).code <+: (s.ctAt z).code) ∧
    (∀ (y : Symbol) (p : List Bool) (i : NodeIdx), (s.ctAt y).v = true → followPath s.node s.root p = some i →
      (s.nodeAt i).kind = .sentinel → ¬ p <+: (s.ctAt y).code ∧ ¬ (s.ctAt y).code <+: p)

/-- The weighted path length of the codes is the sum of the frequencies of the internal records
(42_tree_builder.md R133, where the spec derives it). -/
def Obligations.WeightedPathLengthIsInternalSum : Prop :=
  ∀ s : State, Inv s → s.codesValid = true →
    ((List.range s.nleaf.toNat).map (fun i =>
      (s.nodeAt (BitVec.ofNat 9 i)).freq.toNat * (s.ctAt (s.nodeAt (BitVec.ofNat 9 i)).sym).len.toNat)).sum
    = ((List.range 511).map (fun i =>
      if (s.nodeAt (BitVec.ofNat 9 i)).kind = .internal then (s.nodeAt (BitVec.ofNat 9 i)).freq.toNat else 0)).sum

/-- Optimality: for every table with a key, the codes of `TB_BUILD; CT_GEN` have the least weighted path length among all
prefix codes for the keys in which every codeword has at least one bit (42_tree_builder.md R133). -/
def Obligations.CodesAreOptimal : Prop :=
  ∀ (s : State) (c : Symbol → List Bool), s.fault = false → (∃ y : Symbol, (s.ftAt y).v = true) →
    (∀ y : Symbol, (s.ftAt y).v = true → c y ≠ []) →
    (∀ y z : Symbol, (s.ftAt y).v = true → (s.ftAt z).v = true → y ≠ z → ¬ c y <+: c z) →
    ∃ t, runCommands [.tbBuild, .ctGen] s = .next t ∧ t.fault = false ∧
      keySum s (fun y => (s.ftAt y).cnt.toNat * (t.ctAt y).len.toNat) ≤
        keySum s (fun y => (s.ftAt y).cnt.toNat * (c y).length)

/-! ### Encoder unit (44_encoder.md) -/

/-- `ENC_SYM s` with a code: the code's bits appear on `BITOUT`, and behind the bits already waiting they complete their bytes on
`BYTEOUT`, most significant bit first, the rest waiting; both counters advance, saturating; the answer is the length and
nothing else changes. Without a code it raises `MissingCode` and changes nothing else (R151, R152). -/
def Obligations.EncSymEmitsTheCode : Prop :=
  ∀ (y : Symbol) (s : State),
    ((s.ctAt y).v = true →
      ∃ t, exec (.encSym y) s = .next t ∧
        t.bitTrace = s.bitTrace ++ (s.ctAt y).code ∧
        t.byteTrace = s.byteTrace ++ fullBytes (pending s ++ (s.ctAt y).code) ∧
        pending t = leftOver (pending s ++ (s.ctAt y).code) ∧
        t.encBitCnt.toNat = min (s.encBitCnt.toNat + (s.ctAt y).len.toNat) (2 ^ 48 - 1) ∧
        t.encSymCnt.toNat = min (s.encSymCnt.toNat + 1) (2 ^ 40 - 1) ∧
        t.rspTrace = s.rspTrace ++ [word 0 (s.ctAt y).len.toNat] ∧ t.symTrace = s.symTrace ∧
        t = { s with
          beats := t.beats, encSymCnt := t.encSymCnt, encBitCnt := t.encBitCnt, pkBuf := t.pkBuf, pkCnt := t.pkCnt }) ∧
    ((s.ctAt y).v = false → exec (.encSym y) s = .next (latched s 2 (info 0 0 y.toNat 0x40)))

/-- Packed bytes: of the bits emitted from an empty packer, byte m on `BYTEOUT` holds bits 8m to 8m+7, bit 8m+j at byte bit
7−j, and the bits beyond the last full byte wait (R152, R153). -/
def Obligations.PackedBytesHoldTheStream : Prop :=
  ∀ (l : List Bool) (s : State), s.pkCnt = 0 → s.pkBuf = 0 →
    ∃ bytes : List Byte, (s.emitBits l).byteTrace = s.byteTrace ++ bytes ∧ bytes.length = l.length / 8 ∧
      (s.emitBits l).pkCnt.toNat = l.length % 8 ∧ (s.emitBits l).bitTrace = s.bitTrace ++ l ∧
      (∀ m j, m < l.length / 8 → j < 8 → (bytes.getD m 0).getLsbD (7 - j) = l.getD (8 * m + j) false) ∧
      (∀ j, j < l.length % 8 →
        (s.emitBits l).pkBuf.getLsbD (l.length % 8 - 1 - j) = l.getD (8 * (l.length / 8) + j) false)

/-- `ENC_FLUSH` emits the waiting bits as a final byte, real bits high and zeros below, emits no byte from an empty packer,
answers pad and bit count, and clears the packer and both counters; nothing else changes (R154). -/
def Obligations.EncFlushEndsTheStream : Prop :=
  ∀ s : State,
    ∃ t, exec .encFlush s = .next t ∧
      t = { s with
        pkBuf := 0, pkCnt := 0, encBitCnt := 0, encSymCnt := 0,
        beats := s.beats ++ (if s.pkCnt = 0 then []
          else [.byte (byteOf (pending s ++ List.replicate (8 - s.pkCnt.toNat) false))])
          ++ [.rsp (word 0 ((8 - s.pkCnt.toNat) % 8 * 2 ^ 48 + s.encBitCnt.toNat))] }

/-- A run of `ENC_SYM` over symbols that all have codes puts the concatenation of the codes on `BITOUT` (R155, which the
spec derives from R151 and R152). -/
def Obligations.EncodingPassConcatenatesCodes : Prop :=
  ∀ (l : List Symbol) (s : State), s.fault = false → (∀ y ∈ l, (s.ctAt y).v = true) →
    ∃ t, runCommands (l.map .encSym) s = .next t ∧ t.fault = false ∧ t.ct = s.ct ∧
      t.bitTrace = s.bitTrace ++ (l.map (fun y => (s.ctAt y).code)).flatten

/-- Without a generated code table every `ENC_SYM` raises `MissingCode` (R151; 10_state.md R30). -/
def Obligations.EncSymNeedsGeneratedCodes : Prop :=
  ∀ (s : State) (y : Symbol), Inv s → s.codesValid = false →
    exec (.encSym y) s = .next (latched s 2 (info 0 0 y.toNat 0x40))

/-! ### Decoder unit (45_decoder.md) -/

/-- `DEC_BIT x` on every kind of tree and node: an edge to an internal node moves the pointer, an edge to a leaf emits its
symbol and returns to the root, an edge to the sentinel raises `CorruptStream`; no tree, a pointer on no internal node and a
child that is free raise `CorruptTree`. A raise changes nothing else (R162, R163). -/
def Obligations.DecBitWalksTheTree : Prop :=
  ∀ (x : Bool) (s : State),
    (s.treeValid = false → exec (.decBit x) s = .next (latched s 4 (info 0 (num x) 0 0x50))) ∧
    (s.treeValid = true → s.decCur.toNat ≤ 510 → (s.nodeAt s.decCur).kind ≠ .internal →
      exec (.decBit x) s = .next (latched s 4 (info 0 (num x) 0 0x50))) ∧
    (s.treeValid = true → s.decCur.toNat ≤ 510 → (s.nodeAt s.decCur).kind = .internal →
      ∀ c : NodeIdx, c = (if x then (s.nodeAt s.decCur).right else (s.nodeAt s.decCur).left) → c.toNat ≤ 510 →
        ((s.nodeAt c).kind = .internal → exec (.decBit x) s = .next (answer { s with decCur := c } 0 0)) ∧
        ((s.nodeAt c).kind = .leaf → exec (.decBit x) s = .next (symbolOut s (s.nodeAt c).sym)) ∧
        ((s.nodeAt c).kind = .sentinel → exec (.decBit x) s = .next (latched s 5 (info 0 (num x) 0 0x50))) ∧
        ((s.nodeAt c).kind = .free → exec (.decBit x) s = .next (latched s 4 (info 0 (num x) 0 0x50))))

/-- `DEC_BYTE y, n` is `DEC_BIT` of the n high bits of y, bit 7 first, in one command, except for the single response and for
the first fault ending the command with the index of its bit recorded (R164). -/
def Obligations.DecByteIsItsBits : Prop :=
  ∀ (y : Byte) (n : BitVec 4) (s u : State), 1 ≤ n.toNat → n.toNat ≤ 8 → s.fault = false →
    (runCommands ((highBits y n).map .decBit) s = .next u → u.fault = false →
      exec (.decByte y n) s = .next { u with
        inputs := s.inputs,
        beats := s.beats ++ (symbolsSince s u).map .sym ++ [.rsp (word 0 (symbolsSince s u).length)] }) ∧
    (∀ (i : Nat) (v : State), i < n.toNat →
      runCommands (((highBits y n).take i).map .decBit) s = .next u → u.fault = false →
      exec (.decBit (y.getLsbD (7 - i))) u = .next v → v.fault = true →
      exec (.decByte y n) s = .next (latched
        { u with inputs := s.inputs, beats := s.beats ++ (symbolsSince s u).map .sym } v.err.toNat
        (info i n.toNat y.toNat 0x51)))

/-- Where the n high bits of its byte walk the tree from the pointer through the codewords of some symbols to an internal node,
`DEC_BYTE` completes: it emits exactly those symbols in that order, counts them, answers their number, leaves the pointer on
that node and changes nothing else. On a tree with two leaves or more the bits of every byte walk so (R164, R169). -/
def Obligations.DecByteCompletes : Prop :=
  ∀ (y : Byte) (n : BitVec 4) (s : State), 1 ≤ n.toNat → n.toNat ≤ 8 → s.treeValid = true →
    (∀ (out : List Symbol) (e : NodeIdx), decodesTo s s.decCur (highBits y n) out e →
      exec (.decByte y n) s = .next { s with
        decCur := e, decSymCnt := BitVec.ofNat 40 (min (s.decSymCnt.toNat + out.length) (2 ^ 40 - 1)),
        beats := s.beats ++ out.map .sym ++ [.rsp (word 0 out.length)] }) ∧
    (TreeInv s → 2 ≤ s.nleaf.toNat → (s.nodeAt s.decCur).kind = .internal →
      ∃ (out : List Symbol) (e : NodeIdx), out.length ≤ n.toNat ∧ decodesTo s s.decCur (highBits y n) out e)

/-- `DEC_END f`: `CorruptTree` without a tree, then `TruncatedStream` off the root, then `CorruptStream` when the check is asked
for and the counts differ; otherwise it answers the count and clears it. A raise changes nothing else (R165, R188). -/
def Obligations.DecEndChecksInOrder : Prop :=
  ∀ (f : Bool) (s : State),
    (s.treeValid = false → exec (.decEnd f) s = .next (latched s 4 (info 0 (num f) 0 0x52))) ∧
    (s.treeValid = true → s.decCur ≠ s.root → exec (.decEnd f) s = .next (latched s 3 (info 0 (num f) 0 0x52))) ∧
    (s.treeValid = true → s.decCur = s.root → f = false →
      exec (.decEnd f) s = .next (answer { s with decSymCnt := 0 } 0 s.decSymCnt.toNat)) ∧
    (s.treeValid = true → s.decCur = s.root → f = true → s.root.toNat ≤ 510 →
      (s.decSymCnt.toNat = (s.nodeAt s.root).freq.toNat →
        exec (.decEnd f) s = .next (answer { s with decSymCnt := 0 } 0 s.decSymCnt.toNat)) ∧
      (s.decSymCnt.toNat ≠ (s.nodeAt s.root).freq.toNat →
        exec (.decEnd f) s = .next (latched s 5 (info 0 (num f) 0 0x52))))

/-- The single-symbol tree: every bit 0 emits the symbol and stays at the root, every bit 1 raises `CorruptStream`, `DEC_END 0`
succeeds, and `DEC_END 1` succeeds exactly when the count of decoded symbols is the key's count (R168, which
the spec derives from R162 and R129). -/
def Obligations.SingleSymbolDecoding : Prop :=
  ∀ s : State, s.treeValid = true → TreeInv s → s.nleaf.toNat = 1 → (s.nodeAt s.decCur).kind = .internal →
    s.decCur = s.root ∧
    exec (.decBit false) s = .next (symbolOut s (s.nodeAt 0).sym) ∧
    exec (.decBit true) s = .next (latched s 5 (info 0 1 0 0x50)) ∧
    exec (.decEnd false) s = .next (answer { s with decSymCnt := 0 } 0 s.decSymCnt.toNat) ∧
    (s.decSymCnt = (s.nodeAt 0).freq →
      exec (.decEnd true) s = .next (answer { s with decSymCnt := 0 } 0 s.decSymCnt.toNat)) ∧
    (s.decSymCnt ≠ (s.nodeAt 0).freq → exec (.decEnd true) s = .next (latched s 5 (info 0 1 0 0x52)))

/-- The decoder never reads the code table: with any other code table it does the same (R163; 43_code_table.md R147). -/
def Obligations.DecoderIgnoresTheCodeTable : Prop :=
  ∀ (i : Instr) (s t : State) (ct' : List (Nat × CtEntry)) (v : Bool), i.mnemonic ∈ [.decBit, .decByte, .decEnd] →
    exec i s = .next t →
    exec i { s with ct := ct', codesValid := v } = .next { t with ct := ct', codesValid := v }

/-- Round trip by bits: over equal tables that cover a non-empty sequence, building, generating and encoding gives a bit string
whose decoding, after a build of its own, is the sequence; no command faults. The count check passes too when the table is the
exact count of the sequence (R167, which the spec derives). -/
def Obligations.RoundTripByBits : Prop :=
  ∀ (s s' : State) (l : List Symbol) (f : Bool), l ≠ [] → s.fault = false → s'.fault = false →
    (∀ y : Symbol, s.ftAt y = s'.ftAt y) → (∀ y ∈ l, (s.ftAt y).v = true) →
    (f = true → ∀ y : Symbol, (s.ftAt y).v = decide (y ∈ l) ∧ (s.ftAt y).cnt.toNat = l.count y) →
    ∃ (u v : State) (bits : List Bool),
      runCommands ([.tbBuild, .ctGen] ++ l.map .encSym) s = .next u ∧ u.fault = false ∧
      u.bitTrace = s.bitTrace ++ bits ∧
      runCommands ([.tbBuild] ++ bits.map .decBit ++ [.decEnd f]) s' = .next v ∧ v.fault = false ∧
      v.symTrace = s'.symTrace ++ l

/-- Round trip by packed bytes: the same with the bytes of `BYTEOUT` up to the flush, fed by `DEC_BYTE` with the number of bits
the encoder emitted (R164; R167, which the spec derives; 70_reset_and_hazards.md R204, R206, R210). -/
def Obligations.RoundTripByBytes : Prop :=
  ∀ (s s' : State) (l : List Symbol) (f : Bool), l ≠ [] → s.fault = false → s'.fault = false →
    (∀ y : Symbol, s.ftAt y = s'.ftAt y) → (∀ y ∈ l, (s.ftAt y).v = true) →
    (f = true → ∀ y : Symbol, (s.ftAt y).v = decide (y ∈ l) ∧ (s.ftAt y).cnt.toNat = l.count y) →
    ∃ (u v : State) (bits : List Bool) (bytes : List Byte),
      runCommands ([.tbBuild, .ctGen] ++ l.map .encSym ++ [.encFlush]) s = .next u ∧ u.fault = false ∧
      u.bitTrace = s.bitTrace ++ bits ∧ u.byteTrace = s.byteTrace ++ bytes ∧
      runCommands ([.tbBuild] ++ byteCommands bytes bits.length ++ [.decEnd f]) s' = .next v ∧ v.fault = false ∧
      v.symTrace = s'.symTrace ++ l

/-! ### Invariants (10_state.md) and termination -/

/-- The state after reset meets the invariant, whatever moves the host is about to make. -/
def Obligations.ResetMeetsTheInvariant : Prop :=
  ∀ moves : List HostInput, Inv { State.reset with inputs := moves }

/-- Every step keeps the invariant (R26 to R34; R50, R51, R52, which the spec derives; 20_memory.md R67). -/
def Obligations.StepKeepsTheInvariant : Prop :=
  ∀ s t : State, Inv s → step s = .next t → Inv t

/-- From every state of the invariant a step completes, and an accepted word, whichever of the 2^64 it is, gets its one
response: no word and no tree brings the model to a stop (00_scope.md R15, which the spec derives; 30_encoding.md R85). -/
def Obligations.StepNeverStops : Prop :=
  ∀ s : State, Inv s →
    ∃ t, step s = .next t ∧
      ∀ w rest, s.inputs = .command w :: rest → ∃ r, t.rspTrace = s.rspTrace ++ [r]

/-- Every step keeps the three memories in their canonical form, from every state, so that equal memories are equal lists
(the model's representation, log 7). -/
def Obligations.StepKeepsMemoriesCanonical : Prop :=
  ∀ s t : State, s.memWf → step s = .next t → t.memWf

/-- The state after reset, as each command sees it (70_reset_and_hazards.md R202, which the spec derives). -/
def Obligations.FirstCommandAfterReset : Prop :=
  ∀ (bs : List Beat) (moves : List HostInput) (s : State), s = { State.reset with beats := bs, inputs := moves } →
    (∀ y, exec (.ftRd y) s = .next (answer s 0 0)) ∧
    (∀ i : NodeIdx, i.toNat ≤ 510 →
      exec (.ndInfo i) s = .next (answer s 0 0) ∧ exec (.ndFreq i) s = .next (answer s 0 0)) ∧
    (∀ y, exec (.ctLen y) s = .next (answer s 0 0)) ∧
    (∀ y k, exec (.ctBits y k) s = .next (answer s 0 0)) ∧
    (∀ r, exec (.rdreg r) s = .next (answer s 0 (if r = .params then 0x1FF282008 else 0))) ∧
    (∀ y, exec (.faSym y) s = .next (answer { s with ft := [(y.toNat, ⟨true, 1⟩)] } 0 1)) ∧
    (∀ y c, exec (.ftSet y c) s = .next (answer { s with ft := [(y.toNat, ⟨true, c⟩)] } 0 0)) ∧
    exec .tbBuild s = .next (latched s 1 0x20) ∧
    exec .ctGen s = .next (latched s 4 0x30) ∧
    (∀ x, exec (.decBit x) s = .next (latched s 4 (info 0 (num x) 0 0x50))) ∧
    (∀ y (n : BitVec 4), 1 ≤ n.toNat → n.toNat ≤ 8 →
      exec (.decByte y n) s = .next (latched s 4 (info 0 n.toNat y.toNat 0x51))) ∧
    (∀ f, exec (.decEnd f) s = .next (latched s 4 (info 0 (num f) 0 0x52))) ∧
    (∀ y, exec (.encSym y) s = .next (latched s 2 (info 0 0 y.toNat 0x40))) ∧
    exec .encFlush s = .next (answer s 0 0)
end

