-- ==== Sys2Proof/Laws/Decode.lean ====
section
/-! SUPPORT. The laws of the command word: its fields and the word of its fields are inverse, a mask acts field by field, and
what the decoder's success and failure come to (30_encoding.md R80 to R86). -/

namespace Sys2Proof

/-! ### Fields -/

theorem assemble_toNat (op a : BitVec 8) (b : BitVec 16) (imm : BitVec 32) :
    (assemble op a b imm).toNat = op.toNat * 2 ^ 56 + a.toNat * 2 ^ 48 + b.toNat * 2 ^ 32 + imm.toNat := by
  have h1 := op.isLt; have h2 := a.isLt; have h3 := b.isLt; have h4 := imm.isLt
  simp only [assemble, BitVec.toNat_append]
  rw [← Nat.shiftLeft_add_eq_or_of_lt h4, ← Nat.shiftLeft_add_eq_or_of_lt h3, ← Nat.shiftLeft_add_eq_or_of_lt h2]
  simp only [Nat.shiftLeft_eq]
  omega

theorem fieldOp_toNat (w : Word) : (fieldOp w).toNat = w.toNat / 2 ^ 56 := by
  have := w.isLt
  simp only [fieldOp, BitVec.extractLsb'_toNat, Nat.shiftRight_eq_div_pow]
  omega

theorem fieldA_toNat (w : Word) : (fieldA w).toNat = w.toNat / 2 ^ 48 % 2 ^ 8 := by
  simp only [fieldA, BitVec.extractLsb'_toNat, Nat.shiftRight_eq_div_pow]

theorem fieldB_toNat (w : Word) : (fieldB w).toNat = w.toNat / 2 ^ 32 % 2 ^ 16 := by
  simp only [fieldB, BitVec.extractLsb'_toNat, Nat.shiftRight_eq_div_pow]

theorem fieldImm_toNat (w : Word) : (fieldImm w).toNat = w.toNat % 2 ^ 32 := by
  simp only [fieldImm, BitVec.extractLsb'_toNat, Nat.shiftRight_zero]

@[simp] theorem fieldOp_assemble (op a : BitVec 8) (b : BitVec 16) (imm : BitVec 32) :
    fieldOp (assemble op a b imm) = op := by
  apply BitVec.eq_of_toNat_eq
  have h2 := a.isLt; have h3 := b.isLt; have h4 := imm.isLt
  rw [fieldOp_toNat, assemble_toNat]
  omega

@[simp] theorem fieldA_assemble (op a : BitVec 8) (b : BitVec 16) (imm : BitVec 32) :
    fieldA (assemble op a b imm) = a := by
  apply BitVec.eq_of_toNat_eq
  have h2 := a.isLt; have h3 := b.isLt; have h4 := imm.isLt
  rw [fieldA_toNat, assemble_toNat]
  omega

@[simp] theorem fieldB_assemble (op a : BitVec 8) (b : BitVec 16) (imm : BitVec 32) :
    fieldB (assemble op a b imm) = b := by
  apply BitVec.eq_of_toNat_eq
  have h3 := b.isLt; have h4 := imm.isLt
  rw [fieldB_toNat, assemble_toNat]
  omega

@[simp] theorem fieldImm_assemble (op a : BitVec 8) (b : BitVec 16) (imm : BitVec 32) :
    fieldImm (assemble op a b imm) = imm := by
  apply BitVec.eq_of_toNat_eq
  have h4 := imm.isLt
  rw [fieldImm_toNat, assemble_toNat]
  omega

/-- A word is the word of its fields. -/
@[simp] theorem assemble_fields (w : Word) : assemble (fieldOp w) (fieldA w) (fieldB w) (fieldImm w) = w := by
  apply BitVec.eq_of_toNat_eq
  have := w.isLt
  rw [assemble_toNat, fieldOp_toNat, fieldA_toNat, fieldB_toNat, fieldImm_toNat]
  omega

theorem assemble_inj {op op' a a' : BitVec 8} {b b' : BitVec 16} {imm imm' : BitVec 32} :
    assemble op a b imm = assemble op' a' b' imm' ↔ op = op' ∧ a = a' ∧ b = b' ∧ imm = imm' := by
  constructor
  · intro h
    exact ⟨by simpa using congrArg fieldOp h, by simpa using congrArg fieldA h, by simpa using congrArg fieldB h,
      by simpa using congrArg fieldImm h⟩
  · rintro ⟨rfl, rfl, rfl, rfl⟩
    rfl

/-- A mask acts field by field. -/
theorem assemble_and (op op' a a' : BitVec 8) (b b' : BitVec 16) (imm imm' : BitVec 32) :
    assemble op a b imm &&& assemble op' a' b' imm' = assemble (op &&& op') (a &&& a') (b &&& b') (imm &&& imm') := by
  show ((op ++ a ++ b ++ imm) &&& (op' ++ a' ++ b' ++ imm') : BitVec (8 + 8 + 16 + 32)) = _
  rw [BitVec.and_append, BitVec.and_append, BitVec.and_append]
  rfl

/-- The fixed bits of a word, field by field. -/
theorem mask_eq_iff (w : Word) (mo ma po pa : BitVec 8) (mb pb : BitVec 16) (mi qi : BitVec 32) :
    w &&& assemble mo ma mb mi = assemble po pa pb qi ↔
      fieldOp w &&& mo = po ∧ fieldA w &&& ma = pa ∧ fieldB w &&& mb = pb ∧ fieldImm w &&& mi = qi := by
  conv_lhs => rw [← assemble_fields w]
  rw [assemble_and, assemble_inj]

/-! ### The table -/

/-- The mask of the fixed bits of `a`: all of it where the format does not use it (30_encoding.md R82). -/
def Format.maskA : Format → BitVec 8
  | .z | .b => 0xFF
  | .a | .ai | .ab => 0

/-- The mask of the fixed bits of `imm` (30_encoding.md R82). -/
def Format.maskImm : Format → BitVec 32
  | .z | .a | .b | .ab => 0xFFFFFFFF
  | .ai => 0

/-- The mask of the fixed bits of `b`: the high bits a command does not use (30_encoding.md R83). -/
def Mnemonic.maskB : Mnemonic → BitVec 16
  | .ndInfo | .ndFreq => 0xFE00
  | .ctBits => 0xFFF8
  | .decBit | .decEnd => 0xFFFE
  | .decByte => 0xFFF0
  | .nop | .clr | .rdreg | .faSym | .ftSet | .ftRd | .tbBuild | .ctGen | .ctLen | .encSym | .encFlush => 0xFFFF

/-- Every mask of the table covers the opcode, the unused fields and the unused bits of `b`. -/
theorem row_mask (m : Mnemonic) : m.row.mask = assemble 0xFF m.format.maskA m.maskB m.format.maskImm := by
  cases m <;> decide

/-- Every match of the table is the opcode with zeros below. -/
theorem row_pattern (m : Mnemonic) : m.row.pattern = assemble m.row.op 0 0 0 := by
  cases m <;> decide

@[simp] theorem row_mnemonic (m : Mnemonic) : m.row.mnemonic = m := by cases m <;> rfl

/-- The opcode finds its row. -/
theorem rowOfOp_op (m : Mnemonic) : rowOfOp m.row.op = some m.row := by cases m <;> decide

/-- A row that is found is the row of a command and has the opcode. -/
theorem rowOfOp_some {op : BitVec 8} {r : OpRow} (h : rowOfOp op = some r) : ∃ m : Mnemonic, r = m.row ∧ m.row.op = op := by
  have hm := List.mem_of_find?_eq_some h
  have hp := List.find?_some h
  obtain ⟨m, -, rfl⟩ := List.mem_map.1 hm
  exact ⟨m, rfl, by simpa using hp⟩

/-- The fixed bits of a row: opcode, unused fields zero, unused bits of `b` zero (30_encoding.md R82, R83). -/
theorem row_matches_iff (m : Mnemonic) (w : Word) : w &&& m.row.mask = m.row.pattern ↔
    fieldOp w = m.row.op ∧ fieldA w &&& m.format.maskA = 0 ∧ fieldB w &&& m.maskB = 0
      ∧ fieldImm w &&& m.format.maskImm = 0 := by
  rw [row_mask, row_pattern, mask_eq_iff, show (0xFF : BitVec 8) = BitVec.allOnes 8 from rfl, BitVec.and_allOnes]

/-- The decoder's success, without the table: the fixed bits match and the operands are accepted. -/
theorem decode_ok_iff (w : Word) (i : Instr) : decode w = .ok i ↔
    ∃ m : Mnemonic, fieldOp w = m.row.op ∧ w &&& m.row.mask = m.row.pattern ∧ decodeOperands m w = .ok i := by
  unfold decode
  constructor
  · intro h
    split at h
    · cases h
    · next r hr =>
      obtain ⟨m, rfl, hop⟩ := rowOfOp_some hr
      split at h
      · next hm => exact ⟨m, hop.symm, hm, by simpa using h⟩
      · cases h
  · rintro ⟨m, hop, hm, hd⟩
    rw [hop, rowOfOp_op]
    simp [hm, hd]

/-- The command an accepted set of operands belongs to is the row's. -/
theorem decodeOperands_mnemonic {m : Mnemonic} {w : Word} {i : Instr} (h : decodeOperands m w = .ok i) :
    i.mnemonic = m := by
  cases m <;> simp only [decodeOperands] at h
  case rdreg =>
    split at h
    · cases h; rfl
    · cases h
  case ftSet => split at h <;> cases h; rfl
  case ndInfo => split at h <;> cases h; rfl
  case ndFreq => split at h <;> cases h; rfl
  case decByte => split at h <;> cases h; rfl
  all_goals (cases h; rfl)

/-! ### The encoder -/

@[simp] theorem fieldOp_encode (i : Instr) : fieldOp (encode i) = i.mnemonic.row.op := by simp [encode]
@[simp] theorem fieldA_encode (i : Instr) : fieldA (encode i) = i.encodeA := by simp [encode]
@[simp] theorem fieldB_encode (i : Instr) : fieldB (encode i) = i.encodeB := by simp [encode]
@[simp] theorem fieldImm_encode (i : Instr) : fieldImm (encode i) = i.encodeImm := by simp [encode]

/-- A register's number finds the register. -/
@[simp] theorem ofNumber_number (r : StatusReg) : StatusReg.ofNumber r.number = some r := by cases r <;> decide

end Sys2Proof
end

