-- ==== Sys2Proof/Laws/State.lean ====
section
/-! SUPPORT. One lemma per field per named update of the state, each true by unfolding, so that no later proof unfolds an
update. -/

namespace Sys2Proof.Machine

/-! ### `emit` -/

@[simp] theorem State.emit_ft (s : State) (b : Beat) : (s.emit b).ft = s.ft := rfl
@[simp] theorem State.emit_node (s : State) (b : Beat) : (s.emit b).node = s.node := rfl
@[simp] theorem State.emit_nnode (s : State) (b : Beat) : (s.emit b).nnode = s.nnode := rfl
@[simp] theorem State.emit_nleaf (s : State) (b : Beat) : (s.emit b).nleaf = s.nleaf := rfl
@[simp] theorem State.emit_root (s : State) (b : Beat) : (s.emit b).root = s.root := rfl
@[simp] theorem State.emit_treeValid (s : State) (b : Beat) : (s.emit b).treeValid = s.treeValid := rfl
@[simp] theorem State.emit_pq (s : State) (b : Beat) : (s.emit b).pq = s.pq := rfl
@[simp] theorem State.emit_ct (s : State) (b : Beat) : (s.emit b).ct = s.ct := rfl
@[simp] theorem State.emit_codesValid (s : State) (b : Beat) : (s.emit b).codesValid = s.codesValid := rfl
@[simp] theorem State.emit_encSymCnt (s : State) (b : Beat) : (s.emit b).encSymCnt = s.encSymCnt := rfl
@[simp] theorem State.emit_encBitCnt (s : State) (b : Beat) : (s.emit b).encBitCnt = s.encBitCnt := rfl
@[simp] theorem State.emit_pkBuf (s : State) (b : Beat) : (s.emit b).pkBuf = s.pkBuf := rfl
@[simp] theorem State.emit_pkCnt (s : State) (b : Beat) : (s.emit b).pkCnt = s.pkCnt := rfl
@[simp] theorem State.emit_decCur (s : State) (b : Beat) : (s.emit b).decCur = s.decCur := rfl
@[simp] theorem State.emit_decSymCnt (s : State) (b : Beat) : (s.emit b).decSymCnt = s.decSymCnt := rfl
@[simp] theorem State.emit_fault (s : State) (b : Beat) : (s.emit b).fault = s.fault := rfl
@[simp] theorem State.emit_err (s : State) (b : Beat) : (s.emit b).err = s.err := rfl
@[simp] theorem State.emit_faultInfo (s : State) (b : Beat) : (s.emit b).faultInfo = s.faultInfo := rfl
@[simp] theorem State.emit_beats (s : State) (b : Beat) : (s.emit b).beats = s.beats ++ [b] := rfl
@[simp] theorem State.emit_inputs (s : State) (b : Beat) : (s.emit b).inputs = s.inputs := rfl

/-! ### `respond` -/

@[simp] theorem State.respond_ft (s : State) (st : BitVec 8) (d : BitVec 56) : (s.respond st d).ft = s.ft := rfl
@[simp] theorem State.respond_node (s : State) (st : BitVec 8) (d : BitVec 56) : (s.respond st d).node = s.node := rfl
@[simp] theorem State.respond_nnode (s : State) (st : BitVec 8) (d : BitVec 56) : (s.respond st d).nnode = s.nnode := rfl
@[simp] theorem State.respond_nleaf (s : State) (st : BitVec 8) (d : BitVec 56) : (s.respond st d).nleaf = s.nleaf := rfl
@[simp] theorem State.respond_root (s : State) (st : BitVec 8) (d : BitVec 56) : (s.respond st d).root = s.root := rfl
@[simp] theorem State.respond_treeValid (s : State) (st : BitVec 8) (d : BitVec 56) : (s.respond st d).treeValid = s.treeValid := rfl
@[simp] theorem State.respond_pq (s : State) (st : BitVec 8) (d : BitVec 56) : (s.respond st d).pq = s.pq := rfl
@[simp] theorem State.respond_ct (s : State) (st : BitVec 8) (d : BitVec 56) : (s.respond st d).ct = s.ct := rfl
@[simp] theorem State.respond_codesValid (s : State) (st : BitVec 8) (d : BitVec 56) : (s.respond st d).codesValid = s.codesValid := rfl
@[simp] theorem State.respond_encSymCnt (s : State) (st : BitVec 8) (d : BitVec 56) : (s.respond st d).encSymCnt = s.encSymCnt := rfl
@[simp] theorem State.respond_encBitCnt (s : State) (st : BitVec 8) (d : BitVec 56) : (s.respond st d).encBitCnt = s.encBitCnt := rfl
@[simp] theorem State.respond_pkBuf (s : State) (st : BitVec 8) (d : BitVec 56) : (s.respond st d).pkBuf = s.pkBuf := rfl
@[simp] theorem State.respond_pkCnt (s : State) (st : BitVec 8) (d : BitVec 56) : (s.respond st d).pkCnt = s.pkCnt := rfl
@[simp] theorem State.respond_decCur (s : State) (st : BitVec 8) (d : BitVec 56) : (s.respond st d).decCur = s.decCur := rfl
@[simp] theorem State.respond_decSymCnt (s : State) (st : BitVec 8) (d : BitVec 56) : (s.respond st d).decSymCnt = s.decSymCnt := rfl
@[simp] theorem State.respond_fault (s : State) (st : BitVec 8) (d : BitVec 56) : (s.respond st d).fault = s.fault := rfl
@[simp] theorem State.respond_err (s : State) (st : BitVec 8) (d : BitVec 56) : (s.respond st d).err = s.err := rfl
@[simp] theorem State.respond_faultInfo (s : State) (st : BitVec 8) (d : BitVec 56) : (s.respond st d).faultInfo = s.faultInfo := rfl
@[simp] theorem State.respond_beats (s : State) (st : BitVec 8) (d : BitVec 56) : (s.respond st d).beats = s.beats ++ [.rsp (responseWord st d)] := rfl
@[simp] theorem State.respond_inputs (s : State) (st : BitVec 8) (d : BitVec 56) : (s.respond st d).inputs = s.inputs := rfl

/-! ### `raiseFault` -/

@[simp] theorem State.raiseFault_ft (s : State) (f : BlockFault) (k : BitVec 4) (w : Word) : (s.raiseFault f k w).ft = s.ft := rfl
@[simp] theorem State.raiseFault_node (s : State) (f : BlockFault) (k : BitVec 4) (w : Word) : (s.raiseFault f k w).node = s.node := rfl
@[simp] theorem State.raiseFault_nnode (s : State) (f : BlockFault) (k : BitVec 4) (w : Word) : (s.raiseFault f k w).nnode = s.nnode := rfl
@[simp] theorem State.raiseFault_nleaf (s : State) (f : BlockFault) (k : BitVec 4) (w : Word) : (s.raiseFault f k w).nleaf = s.nleaf := rfl
@[simp] theorem State.raiseFault_root (s : State) (f : BlockFault) (k : BitVec 4) (w : Word) : (s.raiseFault f k w).root = s.root := rfl
@[simp] theorem State.raiseFault_treeValid (s : State) (f : BlockFault) (k : BitVec 4) (w : Word) : (s.raiseFault f k w).treeValid = s.treeValid := rfl
@[simp] theorem State.raiseFault_pq (s : State) (f : BlockFault) (k : BitVec 4) (w : Word) : (s.raiseFault f k w).pq = s.pq := rfl
@[simp] theorem State.raiseFault_ct (s : State) (f : BlockFault) (k : BitVec 4) (w : Word) : (s.raiseFault f k w).ct = s.ct := rfl
@[simp] theorem State.raiseFault_codesValid (s : State) (f : BlockFault) (k : BitVec 4) (w : Word) : (s.raiseFault f k w).codesValid = s.codesValid := rfl
@[simp] theorem State.raiseFault_encSymCnt (s : State) (f : BlockFault) (k : BitVec 4) (w : Word) : (s.raiseFault f k w).encSymCnt = s.encSymCnt := rfl
@[simp] theorem State.raiseFault_encBitCnt (s : State) (f : BlockFault) (k : BitVec 4) (w : Word) : (s.raiseFault f k w).encBitCnt = s.encBitCnt := rfl
@[simp] theorem State.raiseFault_pkBuf (s : State) (f : BlockFault) (k : BitVec 4) (w : Word) : (s.raiseFault f k w).pkBuf = s.pkBuf := rfl
@[simp] theorem State.raiseFault_pkCnt (s : State) (f : BlockFault) (k : BitVec 4) (w : Word) : (s.raiseFault f k w).pkCnt = s.pkCnt := rfl
@[simp] theorem State.raiseFault_decCur (s : State) (f : BlockFault) (k : BitVec 4) (w : Word) : (s.raiseFault f k w).decCur = s.decCur := rfl
@[simp] theorem State.raiseFault_decSymCnt (s : State) (f : BlockFault) (k : BitVec 4) (w : Word) : (s.raiseFault f k w).decSymCnt = s.decSymCnt := rfl
@[simp] theorem State.raiseFault_fault (s : State) (f : BlockFault) (k : BitVec 4) (w : Word) : (s.raiseFault f k w).fault = true := rfl
@[simp] theorem State.raiseFault_err (s : State) (f : BlockFault) (k : BitVec 4) (w : Word) : (s.raiseFault f k w).err = f.code := rfl
@[simp] theorem State.raiseFault_faultInfo (s : State) (f : BlockFault) (k : BitVec 4) (w : Word) : (s.raiseFault f k w).faultInfo = faultInfoOf k w := rfl
@[simp] theorem State.raiseFault_beats (s : State) (f : BlockFault) (k : BitVec 4) (w : Word) : (s.raiseFault f k w).beats = s.beats ++ [.rsp (responseWord f.code 0)] := rfl
@[simp] theorem State.raiseFault_inputs (s : State) (f : BlockFault) (k : BitVec 4) (w : Word) : (s.raiseFault f k w).inputs = s.inputs := rfl

/-! ### `setFt` -/

@[simp] theorem State.setFt_ft (s : State) (y : Symbol) (e : FtEntry) : (s.setFt y e).ft = Memory.write FtEntry.empty s.ft y.toNat e := rfl
@[simp] theorem State.setFt_node (s : State) (y : Symbol) (e : FtEntry) : (s.setFt y e).node = s.node := rfl
@[simp] theorem State.setFt_nnode (s : State) (y : Symbol) (e : FtEntry) : (s.setFt y e).nnode = s.nnode := rfl
@[simp] theorem State.setFt_nleaf (s : State) (y : Symbol) (e : FtEntry) : (s.setFt y e).nleaf = s.nleaf := rfl
@[simp] theorem State.setFt_root (s : State) (y : Symbol) (e : FtEntry) : (s.setFt y e).root = s.root := rfl
@[simp] theorem State.setFt_treeValid (s : State) (y : Symbol) (e : FtEntry) : (s.setFt y e).treeValid = s.treeValid := rfl
@[simp] theorem State.setFt_pq (s : State) (y : Symbol) (e : FtEntry) : (s.setFt y e).pq = s.pq := rfl
@[simp] theorem State.setFt_ct (s : State) (y : Symbol) (e : FtEntry) : (s.setFt y e).ct = s.ct := rfl
@[simp] theorem State.setFt_codesValid (s : State) (y : Symbol) (e : FtEntry) : (s.setFt y e).codesValid = s.codesValid := rfl
@[simp] theorem State.setFt_encSymCnt (s : State) (y : Symbol) (e : FtEntry) : (s.setFt y e).encSymCnt = s.encSymCnt := rfl
@[simp] theorem State.setFt_encBitCnt (s : State) (y : Symbol) (e : FtEntry) : (s.setFt y e).encBitCnt = s.encBitCnt := rfl
@[simp] theorem State.setFt_pkBuf (s : State) (y : Symbol) (e : FtEntry) : (s.setFt y e).pkBuf = s.pkBuf := rfl
@[simp] theorem State.setFt_pkCnt (s : State) (y : Symbol) (e : FtEntry) : (s.setFt y e).pkCnt = s.pkCnt := rfl
@[simp] theorem State.setFt_decCur (s : State) (y : Symbol) (e : FtEntry) : (s.setFt y e).decCur = s.decCur := rfl
@[simp] theorem State.setFt_decSymCnt (s : State) (y : Symbol) (e : FtEntry) : (s.setFt y e).decSymCnt = s.decSymCnt := rfl
@[simp] theorem State.setFt_fault (s : State) (y : Symbol) (e : FtEntry) : (s.setFt y e).fault = s.fault := rfl
@[simp] theorem State.setFt_err (s : State) (y : Symbol) (e : FtEntry) : (s.setFt y e).err = s.err := rfl
@[simp] theorem State.setFt_faultInfo (s : State) (y : Symbol) (e : FtEntry) : (s.setFt y e).faultInfo = s.faultInfo := rfl
@[simp] theorem State.setFt_beats (s : State) (y : Symbol) (e : FtEntry) : (s.setFt y e).beats = s.beats := rfl
@[simp] theorem State.setFt_inputs (s : State) (y : Symbol) (e : FtEntry) : (s.setFt y e).inputs = s.inputs := rfl

/-! ### `setNode` -/

@[simp] theorem State.setNode_ft (s : State) (i : NodeIdx) (n : NodeRec) : (s.setNode i n).ft = s.ft := rfl
@[simp] theorem State.setNode_node (s : State) (i : NodeIdx) (n : NodeRec) : (s.setNode i n).node = Memory.write NodeRec.empty s.node i.toNat n := rfl
@[simp] theorem State.setNode_nnode (s : State) (i : NodeIdx) (n : NodeRec) : (s.setNode i n).nnode = s.nnode := rfl
@[simp] theorem State.setNode_nleaf (s : State) (i : NodeIdx) (n : NodeRec) : (s.setNode i n).nleaf = s.nleaf := rfl
@[simp] theorem State.setNode_root (s : State) (i : NodeIdx) (n : NodeRec) : (s.setNode i n).root = s.root := rfl
@[simp] theorem State.setNode_treeValid (s : State) (i : NodeIdx) (n : NodeRec) : (s.setNode i n).treeValid = s.treeValid := rfl
@[simp] theorem State.setNode_pq (s : State) (i : NodeIdx) (n : NodeRec) : (s.setNode i n).pq = s.pq := rfl
@[simp] theorem State.setNode_ct (s : State) (i : NodeIdx) (n : NodeRec) : (s.setNode i n).ct = s.ct := rfl
@[simp] theorem State.setNode_codesValid (s : State) (i : NodeIdx) (n : NodeRec) : (s.setNode i n).codesValid = s.codesValid := rfl
@[simp] theorem State.setNode_encSymCnt (s : State) (i : NodeIdx) (n : NodeRec) : (s.setNode i n).encSymCnt = s.encSymCnt := rfl
@[simp] theorem State.setNode_encBitCnt (s : State) (i : NodeIdx) (n : NodeRec) : (s.setNode i n).encBitCnt = s.encBitCnt := rfl
@[simp] theorem State.setNode_pkBuf (s : State) (i : NodeIdx) (n : NodeRec) : (s.setNode i n).pkBuf = s.pkBuf := rfl
@[simp] theorem State.setNode_pkCnt (s : State) (i : NodeIdx) (n : NodeRec) : (s.setNode i n).pkCnt = s.pkCnt := rfl
@[simp] theorem State.setNode_decCur (s : State) (i : NodeIdx) (n : NodeRec) : (s.setNode i n).decCur = s.decCur := rfl
@[simp] theorem State.setNode_decSymCnt (s : State) (i : NodeIdx) (n : NodeRec) : (s.setNode i n).decSymCnt = s.decSymCnt := rfl
@[simp] theorem State.setNode_fault (s : State) (i : NodeIdx) (n : NodeRec) : (s.setNode i n).fault = s.fault := rfl
@[simp] theorem State.setNode_err (s : State) (i : NodeIdx) (n : NodeRec) : (s.setNode i n).err = s.err := rfl
@[simp] theorem State.setNode_faultInfo (s : State) (i : NodeIdx) (n : NodeRec) : (s.setNode i n).faultInfo = s.faultInfo := rfl
@[simp] theorem State.setNode_beats (s : State) (i : NodeIdx) (n : NodeRec) : (s.setNode i n).beats = s.beats := rfl
@[simp] theorem State.setNode_inputs (s : State) (i : NodeIdx) (n : NodeRec) : (s.setNode i n).inputs = s.inputs := rfl

/-! ### `clearSession` -/

@[simp] theorem State.clearSession_ft (s : State) : (s.clearSession).ft = [] := rfl
@[simp] theorem State.clearSession_node (s : State) : (s.clearSession).node = [] := rfl
@[simp] theorem State.clearSession_nnode (s : State) : (s.clearSession).nnode = 0 := rfl
@[simp] theorem State.clearSession_nleaf (s : State) : (s.clearSession).nleaf = 0 := rfl
@[simp] theorem State.clearSession_root (s : State) : (s.clearSession).root = 0 := rfl
@[simp] theorem State.clearSession_treeValid (s : State) : (s.clearSession).treeValid = false := rfl
@[simp] theorem State.clearSession_pq (s : State) : (s.clearSession).pq = [] := rfl
@[simp] theorem State.clearSession_ct (s : State) : (s.clearSession).ct = [] := rfl
@[simp] theorem State.clearSession_codesValid (s : State) : (s.clearSession).codesValid = false := rfl
@[simp] theorem State.clearSession_encSymCnt (s : State) : (s.clearSession).encSymCnt = 0 := rfl
@[simp] theorem State.clearSession_encBitCnt (s : State) : (s.clearSession).encBitCnt = 0 := rfl
@[simp] theorem State.clearSession_pkBuf (s : State) : (s.clearSession).pkBuf = 0 := rfl
@[simp] theorem State.clearSession_pkCnt (s : State) : (s.clearSession).pkCnt = 0 := rfl
@[simp] theorem State.clearSession_decCur (s : State) : (s.clearSession).decCur = 0 := rfl
@[simp] theorem State.clearSession_decSymCnt (s : State) : (s.clearSession).decSymCnt = 0 := rfl
@[simp] theorem State.clearSession_fault (s : State) : (s.clearSession).fault = false := rfl
@[simp] theorem State.clearSession_err (s : State) : (s.clearSession).err = 0 := rfl
@[simp] theorem State.clearSession_faultInfo (s : State) : (s.clearSession).faultInfo = 0 := rfl
@[simp] theorem State.clearSession_beats (s : State) : (s.clearSession).beats = s.beats := rfl
@[simp] theorem State.clearSession_inputs (s : State) : (s.clearSession).inputs = s.inputs := rfl

/-! ### `hardReset` -/

@[simp] theorem State.hardReset_ft (s : State) : (s.hardReset).ft = [] := rfl
@[simp] theorem State.hardReset_node (s : State) : (s.hardReset).node = [] := rfl
@[simp] theorem State.hardReset_nnode (s : State) : (s.hardReset).nnode = 0 := rfl
@[simp] theorem State.hardReset_nleaf (s : State) : (s.hardReset).nleaf = 0 := rfl
@[simp] theorem State.hardReset_root (s : State) : (s.hardReset).root = 0 := rfl
@[simp] theorem State.hardReset_treeValid (s : State) : (s.hardReset).treeValid = false := rfl
@[simp] theorem State.hardReset_pq (s : State) : (s.hardReset).pq = [] := rfl
@[simp] theorem State.hardReset_ct (s : State) : (s.hardReset).ct = [] := rfl
@[simp] theorem State.hardReset_codesValid (s : State) : (s.hardReset).codesValid = false := rfl
@[simp] theorem State.hardReset_encSymCnt (s : State) : (s.hardReset).encSymCnt = 0 := rfl
@[simp] theorem State.hardReset_encBitCnt (s : State) : (s.hardReset).encBitCnt = 0 := rfl
@[simp] theorem State.hardReset_pkBuf (s : State) : (s.hardReset).pkBuf = 0 := rfl
@[simp] theorem State.hardReset_pkCnt (s : State) : (s.hardReset).pkCnt = 0 := rfl
@[simp] theorem State.hardReset_decCur (s : State) : (s.hardReset).decCur = 0 := rfl
@[simp] theorem State.hardReset_decSymCnt (s : State) : (s.hardReset).decSymCnt = 0 := rfl
@[simp] theorem State.hardReset_fault (s : State) : (s.hardReset).fault = false := rfl
@[simp] theorem State.hardReset_err (s : State) : (s.hardReset).err = 0 := rfl
@[simp] theorem State.hardReset_faultInfo (s : State) : (s.hardReset).faultInfo = 0 := rfl
@[simp] theorem State.hardReset_beats (s : State) : (s.hardReset).beats = [] := rfl
@[simp] theorem State.hardReset_inputs (s : State) : (s.hardReset).inputs = s.inputs := rfl

/-! ### `clearDerived` -/

@[simp] theorem State.clearDerived_ft (s : State) : (s.clearDerived).ft = s.ft := rfl
@[simp] theorem State.clearDerived_node (s : State) : (s.clearDerived).node = [] := rfl
@[simp] theorem State.clearDerived_nnode (s : State) : (s.clearDerived).nnode = 0 := rfl
@[simp] theorem State.clearDerived_nleaf (s : State) : (s.clearDerived).nleaf = 0 := rfl
@[simp] theorem State.clearDerived_root (s : State) : (s.clearDerived).root = 0 := rfl
@[simp] theorem State.clearDerived_treeValid (s : State) : (s.clearDerived).treeValid = false := rfl
@[simp] theorem State.clearDerived_pq (s : State) : (s.clearDerived).pq = [] := rfl
@[simp] theorem State.clearDerived_ct (s : State) : (s.clearDerived).ct = [] := rfl
@[simp] theorem State.clearDerived_codesValid (s : State) : (s.clearDerived).codesValid = false := rfl
@[simp] theorem State.clearDerived_encSymCnt (s : State) : (s.clearDerived).encSymCnt = 0 := rfl
@[simp] theorem State.clearDerived_encBitCnt (s : State) : (s.clearDerived).encBitCnt = 0 := rfl
@[simp] theorem State.clearDerived_pkBuf (s : State) : (s.clearDerived).pkBuf = 0 := rfl
@[simp] theorem State.clearDerived_pkCnt (s : State) : (s.clearDerived).pkCnt = 0 := rfl
@[simp] theorem State.clearDerived_decCur (s : State) : (s.clearDerived).decCur = 0 := rfl
@[simp] theorem State.clearDerived_decSymCnt (s : State) : (s.clearDerived).decSymCnt = 0 := rfl
@[simp] theorem State.clearDerived_fault (s : State) : (s.clearDerived).fault = s.fault := rfl
@[simp] theorem State.clearDerived_err (s : State) : (s.clearDerived).err = s.err := rfl
@[simp] theorem State.clearDerived_faultInfo (s : State) : (s.clearDerived).faultInfo = s.faultInfo := rfl
@[simp] theorem State.clearDerived_beats (s : State) : (s.clearDerived).beats = s.beats := rfl
@[simp] theorem State.clearDerived_inputs (s : State) : (s.clearDerived).inputs = s.inputs := rfl

/-! ### `pqPop` -/

@[simp] theorem State.pqPop_ft (s : State) : (s.pqPop).ft = s.ft := rfl
@[simp] theorem State.pqPop_node (s : State) : (s.pqPop).node = s.node := rfl
@[simp] theorem State.pqPop_nnode (s : State) : (s.pqPop).nnode = s.nnode := rfl
@[simp] theorem State.pqPop_nleaf (s : State) : (s.pqPop).nleaf = s.nleaf := rfl
@[simp] theorem State.pqPop_root (s : State) : (s.pqPop).root = s.root := rfl
@[simp] theorem State.pqPop_treeValid (s : State) : (s.pqPop).treeValid = s.treeValid := rfl
@[simp] theorem State.pqPop_pq (s : State) : (s.pqPop).pq = s.pq.tail := rfl
@[simp] theorem State.pqPop_ct (s : State) : (s.pqPop).ct = s.ct := rfl
@[simp] theorem State.pqPop_codesValid (s : State) : (s.pqPop).codesValid = s.codesValid := rfl
@[simp] theorem State.pqPop_encSymCnt (s : State) : (s.pqPop).encSymCnt = s.encSymCnt := rfl
@[simp] theorem State.pqPop_encBitCnt (s : State) : (s.pqPop).encBitCnt = s.encBitCnt := rfl
@[simp] theorem State.pqPop_pkBuf (s : State) : (s.pqPop).pkBuf = s.pkBuf := rfl
@[simp] theorem State.pqPop_pkCnt (s : State) : (s.pqPop).pkCnt = s.pkCnt := rfl
@[simp] theorem State.pqPop_decCur (s : State) : (s.pqPop).decCur = s.decCur := rfl
@[simp] theorem State.pqPop_decSymCnt (s : State) : (s.pqPop).decSymCnt = s.decSymCnt := rfl
@[simp] theorem State.pqPop_fault (s : State) : (s.pqPop).fault = s.fault := rfl
@[simp] theorem State.pqPop_err (s : State) : (s.pqPop).err = s.err := rfl
@[simp] theorem State.pqPop_faultInfo (s : State) : (s.pqPop).faultInfo = s.faultInfo := rfl
@[simp] theorem State.pqPop_beats (s : State) : (s.pqPop).beats = s.beats := rfl
@[simp] theorem State.pqPop_inputs (s : State) : (s.pqPop).inputs = s.inputs := rfl

/-! ### `pqInsert` -/

@[simp] theorem State.pqInsert_ft (s : State) (i : NodeIdx) : (s.pqInsert i).ft = s.ft := rfl
@[simp] theorem State.pqInsert_node (s : State) (i : NodeIdx) : (s.pqInsert i).node = s.node := rfl
@[simp] theorem State.pqInsert_nnode (s : State) (i : NodeIdx) : (s.pqInsert i).nnode = s.nnode := rfl
@[simp] theorem State.pqInsert_nleaf (s : State) (i : NodeIdx) : (s.pqInsert i).nleaf = s.nleaf := rfl
@[simp] theorem State.pqInsert_root (s : State) (i : NodeIdx) : (s.pqInsert i).root = s.root := rfl
@[simp] theorem State.pqInsert_treeValid (s : State) (i : NodeIdx) : (s.pqInsert i).treeValid = s.treeValid := rfl
@[simp] theorem State.pqInsert_ct (s : State) (i : NodeIdx) : (s.pqInsert i).ct = s.ct := rfl
@[simp] theorem State.pqInsert_codesValid (s : State) (i : NodeIdx) : (s.pqInsert i).codesValid = s.codesValid := rfl
@[simp] theorem State.pqInsert_encSymCnt (s : State) (i : NodeIdx) : (s.pqInsert i).encSymCnt = s.encSymCnt := rfl
@[simp] theorem State.pqInsert_encBitCnt (s : State) (i : NodeIdx) : (s.pqInsert i).encBitCnt = s.encBitCnt := rfl
@[simp] theorem State.pqInsert_pkBuf (s : State) (i : NodeIdx) : (s.pqInsert i).pkBuf = s.pkBuf := rfl
@[simp] theorem State.pqInsert_pkCnt (s : State) (i : NodeIdx) : (s.pqInsert i).pkCnt = s.pkCnt := rfl
@[simp] theorem State.pqInsert_decCur (s : State) (i : NodeIdx) : (s.pqInsert i).decCur = s.decCur := rfl
@[simp] theorem State.pqInsert_decSymCnt (s : State) (i : NodeIdx) : (s.pqInsert i).decSymCnt = s.decSymCnt := rfl
@[simp] theorem State.pqInsert_fault (s : State) (i : NodeIdx) : (s.pqInsert i).fault = s.fault := rfl
@[simp] theorem State.pqInsert_err (s : State) (i : NodeIdx) : (s.pqInsert i).err = s.err := rfl
@[simp] theorem State.pqInsert_faultInfo (s : State) (i : NodeIdx) : (s.pqInsert i).faultInfo = s.faultInfo := rfl
@[simp] theorem State.pqInsert_beats (s : State) (i : NodeIdx) : (s.pqInsert i).beats = s.beats := rfl
@[simp] theorem State.pqInsert_inputs (s : State) (i : NodeIdx) : (s.pqInsert i).inputs = s.inputs := rfl

/-! ### `allocNode` -/

@[simp] theorem State.allocNode_ft (s : State) (n : NodeRec) : (s.allocNode n).ft = s.ft := rfl
@[simp] theorem State.allocNode_node (s : State) (n : NodeRec) : (s.allocNode n).node = Memory.write NodeRec.empty s.node s.nextIdx.toNat n := rfl
@[simp] theorem State.allocNode_nnode (s : State) (n : NodeRec) : (s.allocNode n).nnode = s.nnode + 1 := rfl
@[simp] theorem State.allocNode_nleaf (s : State) (n : NodeRec) : (s.allocNode n).nleaf = s.nleaf := rfl
@[simp] theorem State.allocNode_root (s : State) (n : NodeRec) : (s.allocNode n).root = s.root := rfl
@[simp] theorem State.allocNode_treeValid (s : State) (n : NodeRec) : (s.allocNode n).treeValid = s.treeValid := rfl
@[simp] theorem State.allocNode_pq (s : State) (n : NodeRec) : (s.allocNode n).pq = s.pq := rfl
@[simp] theorem State.allocNode_ct (s : State) (n : NodeRec) : (s.allocNode n).ct = s.ct := rfl
@[simp] theorem State.allocNode_codesValid (s : State) (n : NodeRec) : (s.allocNode n).codesValid = s.codesValid := rfl
@[simp] theorem State.allocNode_encSymCnt (s : State) (n : NodeRec) : (s.allocNode n).encSymCnt = s.encSymCnt := rfl
@[simp] theorem State.allocNode_encBitCnt (s : State) (n : NodeRec) : (s.allocNode n).encBitCnt = s.encBitCnt := rfl
@[simp] theorem State.allocNode_pkBuf (s : State) (n : NodeRec) : (s.allocNode n).pkBuf = s.pkBuf := rfl
@[simp] theorem State.allocNode_pkCnt (s : State) (n : NodeRec) : (s.allocNode n).pkCnt = s.pkCnt := rfl
@[simp] theorem State.allocNode_decCur (s : State) (n : NodeRec) : (s.allocNode n).decCur = s.decCur := rfl
@[simp] theorem State.allocNode_decSymCnt (s : State) (n : NodeRec) : (s.allocNode n).decSymCnt = s.decSymCnt := rfl
@[simp] theorem State.allocNode_fault (s : State) (n : NodeRec) : (s.allocNode n).fault = s.fault := rfl
@[simp] theorem State.allocNode_err (s : State) (n : NodeRec) : (s.allocNode n).err = s.err := rfl
@[simp] theorem State.allocNode_faultInfo (s : State) (n : NodeRec) : (s.allocNode n).faultInfo = s.faultInfo := rfl
@[simp] theorem State.allocNode_beats (s : State) (n : NodeRec) : (s.allocNode n).beats = s.beats := rfl
@[simp] theorem State.allocNode_inputs (s : State) (n : NodeRec) : (s.allocNode n).inputs = s.inputs := rfl

/-! ### `finishTree` -/

@[simp] theorem State.finishTree_ft (s : State) : (s.finishTree).ft = s.ft := rfl
@[simp] theorem State.finishTree_node (s : State) : (s.finishTree).node = s.node := rfl
@[simp] theorem State.finishTree_nnode (s : State) : (s.finishTree).nnode = s.nnode := rfl
@[simp] theorem State.finishTree_nleaf (s : State) : (s.finishTree).nleaf = s.nleaf := rfl
@[simp] theorem State.finishTree_root (s : State) : (s.finishTree).root = s.pqAt 0 := rfl
@[simp] theorem State.finishTree_treeValid (s : State) : (s.finishTree).treeValid = true := rfl
@[simp] theorem State.finishTree_pq (s : State) : (s.finishTree).pq = s.pq := rfl
@[simp] theorem State.finishTree_ct (s : State) : (s.finishTree).ct = s.ct := rfl
@[simp] theorem State.finishTree_codesValid (s : State) : (s.finishTree).codesValid = s.codesValid := rfl
@[simp] theorem State.finishTree_encSymCnt (s : State) : (s.finishTree).encSymCnt = s.encSymCnt := rfl
@[simp] theorem State.finishTree_encBitCnt (s : State) : (s.finishTree).encBitCnt = s.encBitCnt := rfl
@[simp] theorem State.finishTree_pkBuf (s : State) : (s.finishTree).pkBuf = s.pkBuf := rfl
@[simp] theorem State.finishTree_pkCnt (s : State) : (s.finishTree).pkCnt = s.pkCnt := rfl
@[simp] theorem State.finishTree_decCur (s : State) : (s.finishTree).decCur = s.pqAt 0 := rfl
@[simp] theorem State.finishTree_decSymCnt (s : State) : (s.finishTree).decSymCnt = s.decSymCnt := rfl
@[simp] theorem State.finishTree_fault (s : State) : (s.finishTree).fault = s.fault := rfl
@[simp] theorem State.finishTree_err (s : State) : (s.finishTree).err = s.err := rfl
@[simp] theorem State.finishTree_faultInfo (s : State) : (s.finishTree).faultInfo = s.faultInfo := rfl
@[simp] theorem State.finishTree_beats (s : State) : (s.finishTree).beats = s.beats := rfl
@[simp] theorem State.finishTree_inputs (s : State) : (s.finishTree).inputs = s.inputs := rfl

/-! ### `emitSym` -/

@[simp] theorem State.emitSym_ft (s : State) (y : Symbol) : (s.emitSym y).ft = s.ft := rfl
@[simp] theorem State.emitSym_node (s : State) (y : Symbol) : (s.emitSym y).node = s.node := rfl
@[simp] theorem State.emitSym_nnode (s : State) (y : Symbol) : (s.emitSym y).nnode = s.nnode := rfl
@[simp] theorem State.emitSym_nleaf (s : State) (y : Symbol) : (s.emitSym y).nleaf = s.nleaf := rfl
@[simp] theorem State.emitSym_root (s : State) (y : Symbol) : (s.emitSym y).root = s.root := rfl
@[simp] theorem State.emitSym_treeValid (s : State) (y : Symbol) : (s.emitSym y).treeValid = s.treeValid := rfl
@[simp] theorem State.emitSym_pq (s : State) (y : Symbol) : (s.emitSym y).pq = s.pq := rfl
@[simp] theorem State.emitSym_ct (s : State) (y : Symbol) : (s.emitSym y).ct = s.ct := rfl
@[simp] theorem State.emitSym_codesValid (s : State) (y : Symbol) : (s.emitSym y).codesValid = s.codesValid := rfl
@[simp] theorem State.emitSym_encSymCnt (s : State) (y : Symbol) : (s.emitSym y).encSymCnt = s.encSymCnt := rfl
@[simp] theorem State.emitSym_encBitCnt (s : State) (y : Symbol) : (s.emitSym y).encBitCnt = s.encBitCnt := rfl
@[simp] theorem State.emitSym_pkBuf (s : State) (y : Symbol) : (s.emitSym y).pkBuf = s.pkBuf := rfl
@[simp] theorem State.emitSym_pkCnt (s : State) (y : Symbol) : (s.emitSym y).pkCnt = s.pkCnt := rfl
@[simp] theorem State.emitSym_decCur (s : State) (y : Symbol) : (s.emitSym y).decCur = s.root := rfl
@[simp] theorem State.emitSym_decSymCnt (s : State) (y : Symbol) : (s.emitSym y).decSymCnt = satInc s.decSymCnt := rfl
@[simp] theorem State.emitSym_fault (s : State) (y : Symbol) : (s.emitSym y).fault = s.fault := rfl
@[simp] theorem State.emitSym_err (s : State) (y : Symbol) : (s.emitSym y).err = s.err := rfl
@[simp] theorem State.emitSym_faultInfo (s : State) (y : Symbol) : (s.emitSym y).faultInfo = s.faultInfo := rfl
@[simp] theorem State.emitSym_beats (s : State) (y : Symbol) : (s.emitSym y).beats = s.beats ++ [.sym y] := rfl
@[simp] theorem State.emitSym_inputs (s : State) (y : Symbol) : (s.emitSym y).inputs = s.inputs := rfl

end Sys2Proof.Machine
end

