-- ==== Sys2Proof/Laws/Memory.lean ====
section
/-! SUPPORT. The laws of the entry-indexed memories: what a read finds after a write, that every operation keeps the canonical
form, and that canonical memories with equal reads are equal. -/

namespace Sys2Proof.Machine

variable {α : Type}

/-! ### Reads -/

@[simp] theorem Memory.read_nil (d : α) (i : Nat) : Memory.read d [] i = d := rfl

theorem Memory.read_cons (d : α) (k : Nat) (v : α) (m : List (Nat × α)) (i : Nat) :
    Memory.read d ((k, v) :: m) i = if k = i then v else Memory.read d m i := rfl

/-- An index that is not listed reads as the reset entry. -/
theorem Memory.read_unlisted (d : α) (m : List (Nat × α)) (i : Nat) (h : ∀ c ∈ m, c.1 ≠ i) : Memory.read d m i = d := by
  induction m with
  | nil => rfl
  | cons c m ih =>
    have hc : c.1 ≠ i := h c (by simp)
    simp [Memory.read, hc, ih (fun c' h' => h c' (by simp [h']))]

/-- A read finds a listed entry or the reset entry. -/
theorem Memory.read_mem (d : α) (m : List (Nat × α)) (i : Nat) :
    (i, Memory.read d m i) ∈ m ∨ Memory.read d m i = d := by
  induction m with
  | nil => right; rfl
  | cons c m ih =>
    obtain ⟨k, v⟩ := c
    by_cases h : k = i
    · left; simp [Memory.read, h]
    · rcases ih with ih | ih
      · left; simp [Memory.read, h, ih]
      · right; simp [Memory.read, h, ih]

theorem Memory.read_erase (d : α) (m : List (Nat × α)) (i j : Nat) :
    Memory.read d (Memory.erase m i) j = if i = j then d else Memory.read d m j := by
  induction m with
  | nil => simp [Memory.erase]
  | cons c m ih =>
    obtain ⟨k, v⟩ := c
    simp only [Memory.erase, List.filter_cons, Memory.read] at ih ⊢
    by_cases hk : k = i
    · subst hk
      by_cases hj : k = j
      · subst hj; simpa using ih
      · simpa [hj] using ih
    · by_cases hj : i = j
      · subst hj; simp [hk, Memory.read, ih]
      · simp [hk, Memory.read, ih, hj]

theorem Memory.read_insert (d : α) (m : List (Nat × α)) (i j : Nat) (v : α) (h : ∀ c ∈ m, c.1 ≠ i) :
    Memory.read d (Memory.insert i v m) j = if i = j then v else Memory.read d m j := by
  induction m with
  | nil => simp [Memory.insert, Memory.read]
  | cons c m ih =>
    obtain ⟨k, w⟩ := c
    have hk : k ≠ i := h (k, w) (by simp)
    have ih := ih (fun c' h' => h c' (by simp [h']))
    simp only [Memory.insert]
    split
    · simp [Memory.read]
    · by_cases hj : k = j
      · subst hj; simp [Memory.read, Ne.symm hk]
      · simp [Memory.read, hj, ih]

theorem Memory.erase_ne (m : List (Nat × α)) (i : Nat) : ∀ c ∈ Memory.erase m i, c.1 ≠ i := by
  intro c hc
  simp only [Memory.erase, List.mem_filter] at hc
  simpa using hc.2

/-- A read after a write: the written entry at its index, everything else as before. -/
theorem Memory.read_write [DecidableEq α] (d : α) (m : List (Nat × α)) (i j : Nat) (v : α) :
    Memory.read d (Memory.write d m i v) j = if i = j then v else Memory.read d m j := by
  unfold Memory.write
  split
  · next h => rw [Memory.read_erase, h]
  · rw [Memory.read_insert _ _ _ _ _ (Memory.erase_ne m i), Memory.read_erase]
    split <;> rfl

@[simp] theorem Memory.read_write_same [DecidableEq α] (d : α) (m : List (Nat × α)) (i : Nat) (v : α) :
    Memory.read d (Memory.write d m i v) i = v := by simp [Memory.read_write]

theorem Memory.read_write_other [DecidableEq α] (d : α) (m : List (Nat × α)) (i j : Nat) (v : α) (h : i ≠ j) :
    Memory.read d (Memory.write d m i v) j = Memory.read d m j := by simp [Memory.read_write, h]

/-! ### The canonical form -/

theorem Memory.mem_insert (i : Nat) (v : α) (m : List (Nat × α)) (c : Nat × α) :
    c ∈ Memory.insert i v m ↔ c = (i, v) ∨ c ∈ m := by
  induction m with
  | nil => simp [Memory.insert]
  | cons c' m ih =>
    simp only [Memory.insert]
    split
    · simp
    · simp only [List.mem_cons, ih]
      tauto

theorem Memory.pairwise_insert (i : Nat) (v : α) (m : List (Nat × α)) (hm : m.Pairwise (fun c d => c.1 < d.1))
    (h : ∀ c ∈ m, c.1 ≠ i) : (Memory.insert i v m).Pairwise (fun c d => c.1 < d.1) := by
  induction m with
  | nil => simp [Memory.insert]
  | cons c m ih =>
    have hc := List.pairwise_cons.1 hm
    have hci : c.1 ≠ i := h c (by simp)
    simp only [Memory.insert]
    split
    · next hlt =>
      refine List.pairwise_cons.2 ⟨fun d hd => ?_, hm⟩
      rcases List.mem_cons.1 hd with rfl | hd
      · exact hlt
      · exact Nat.lt_trans hlt (hc.1 d hd)
    · next hlt =>
      refine List.pairwise_cons.2 ⟨fun d hd => ?_, ih hc.2 (fun c' h' => h c' (by simp [h']))⟩
      rcases (Memory.mem_insert i v m d).1 hd with rfl | hd
      · show c.1 < i
        omega
      · exact hc.1 d hd

/-- A write inside the memory keeps the canonical form. -/
theorem Memory.write_wf [DecidableEq α] (size : Nat) (d : α) (m : List (Nat × α)) (i : Nat) (v : α) (hi : i < size)
    (hm : Memory.wf size d m) : Memory.wf size d (Memory.write d m i v) := by
  have he : Memory.wf size d (Memory.erase m i) :=
    ⟨hm.1.filter _, fun c hc => hm.2 c (List.mem_filter.1 hc).1⟩
  unfold Memory.write
  split
  · exact he
  · next hv =>
    refine ⟨Memory.pairwise_insert i v _ he.1 (Memory.erase_ne m i), fun c hc => ?_⟩
    rcases (Memory.mem_insert i v _ c).1 hc with rfl | hc
    · exact ⟨hi, hv⟩
    · exact he.2 c hc

/-- An index outside a canonical memory reads as the reset entry. -/
theorem Memory.read_outside [DecidableEq α] (size : Nat) (d : α) (m : List (Nat × α)) (i : Nat) (hi : size ≤ i)
    (hm : Memory.wf size d m) : Memory.read d m i = d :=
  Memory.read_unlisted d m i (fun c hc => by have := (hm.2 c hc).1; omega)

/-- Canonical memories that read alike are equal. -/
theorem Memory.ext_wf [DecidableEq α] (size : Nat) (d : α) (m n : List (Nat × α)) (hm : Memory.wf size d m)
    (hn : Memory.wf size d n) (h : ∀ i, Memory.read d m i = Memory.read d n i) : m = n := by
  induction m generalizing n with
  | nil =>
    cases n with
    | nil => rfl
    | cons c n =>
      have := h c.1
      simp [Memory.read] at this
      exact absurd this.symm (hn.2 c (by simp)).2
  | cons a m ih =>
    cases n with
    | nil =>
      have := h a.1
      simp [Memory.read] at this
      exact absurd this (hm.2 a (by simp)).2
    | cons b n =>
      have ha := List.pairwise_cons.1 hm.1
      have hb := List.pairwise_cons.1 hn.1
      have key : a.1 = b.1 := by
        rcases Nat.lt_trichotomy a.1 b.1 with hlt | heq | hlt
        · have := h a.1
          rw [Memory.read_unlisted d (b :: n) a.1 (fun c hc => by
            rcases List.mem_cons.1 hc with rfl | hc
            · omega
            · have := hb.1 c hc; omega)] at this
          simp [Memory.read] at this
          exact absurd this (hm.2 a (by simp)).2
        · exact heq
        · have := h b.1
          rw [Memory.read_unlisted d (a :: m) b.1 (fun c hc => by
            rcases List.mem_cons.1 hc with rfl | hc
            · omega
            · have := ha.1 c hc; omega)] at this
          simp [Memory.read] at this
          exact absurd this.symm (hn.2 b (by simp)).2
      have val : a.2 = b.2 := by
        have := h a.1
        simpa [Memory.read, key] using this
      have hab : a = b := Prod.ext key val
      subst hab
      congr 1
      refine ih n ⟨ha.2, fun c hc => hm.2 c (by simp [hc])⟩ ⟨hb.2, fun c hc => hn.2 c (by simp [hc])⟩ (fun i => ?_)
      by_cases hi : a.1 = i
      · subst hi
        rw [Memory.read_unlisted d m a.1 (fun c hc => by have := ha.1 c hc; omega),
          Memory.read_unlisted d n a.1 (fun c hc => by have := hb.1 c hc; omega)]
      · simpa [Memory.read, hi] using h i

/-! ### The memories of the state -/

/-- The memories after reset are canonical. -/
theorem reset_memories_wf : Memory.wf 256 FtEntry.empty State.reset.ft ∧ Memory.wf 511 NodeRec.empty State.reset.node
    ∧ Memory.wf 256 CtEntry.empty State.reset.ct := by decide

theorem State.ftAt_setFt (s : State) (y z : Symbol) (e : FtEntry) :
    (s.setFt y e).ftAt z = if y = z then e else s.ftAt z := by
  simp [State.ftAt, Memory.read_write, BitVec.toNat_inj]

theorem State.nodeAt_setNode (s : State) (i j : NodeIdx) (n : NodeRec) :
    (s.setNode i n).nodeAt j = if i = j then n else s.nodeAt j := by
  simp [State.nodeAt, nodeRec, Memory.read_write, BitVec.toNat_inj]

theorem State.nodeAt_allocNode (s : State) (j : NodeIdx) (n : NodeRec) :
    (s.allocNode n).nodeAt j = if s.nextIdx = j then n else s.nodeAt j := by
  simp [State.nodeAt, nodeRec, Memory.read_write, BitVec.toNat_inj]

/-- Records 0 to 510 are read as they stand. -/
theorem nodeRec?_of_lt (node : List (Nat × NodeRec)) (i : NodeIdx) (h : i.toNat < 511) :
    nodeRec? node i = some (nodeRec node i) := by
  simp [nodeRec?, Config.nNodeMax, h]

/-- A record that is read is one of records 0 to 510. -/
theorem nodeRec?_some {node : List (Nat × NodeRec)} {i : NodeIdx} {n : NodeRec} (h : nodeRec? node i = some n) :
    i.toNat < 511 ∧ n = nodeRec node i := by
  unfold nodeRec? at h
  split at h
  · next hlt => exact ⟨hlt, (Option.some.inj h).symm⟩
  · cases h

end Sys2Proof.Machine
end

