-- ==== Sys2Proof/Laws/Ops.lean ====
section
/-! SUPPORT. The shared operations: what the traces hold after a beat, what a fault latches, what the packer does with one bit
and with many, and what one bit does to the decoder. -/

namespace Sys2Proof.Machine

/-! ### Traces (10_state.md R40) -/

@[simp] theorem State.bitTrace_emit_bit (s : State) (x : Bool) : (s.emit (.bit x)).bitTrace = s.bitTrace ++ [x] := by
  simp [State.bitTrace]
@[simp] theorem State.bitTrace_emit_byte (s : State) (y : Byte) : (s.emit (.byte y)).bitTrace = s.bitTrace := by
  simp [State.bitTrace]
@[simp] theorem State.bitTrace_emit_sym (s : State) (y : Symbol) : (s.emit (.sym y)).bitTrace = s.bitTrace := by
  simp [State.bitTrace]
@[simp] theorem State.byteTrace_emit_bit (s : State) (x : Bool) : (s.emit (.bit x)).byteTrace = s.byteTrace := by
  simp [State.byteTrace]
@[simp] theorem State.byteTrace_emit_byte (s : State) (y : Byte) : (s.emit (.byte y)).byteTrace = s.byteTrace ++ [y] := by
  simp [State.byteTrace]
@[simp] theorem State.byteTrace_emit_sym (s : State) (y : Symbol) : (s.emit (.sym y)).byteTrace = s.byteTrace := by
  simp [State.byteTrace]
@[simp] theorem State.symTrace_emit_bit (s : State) (x : Bool) : (s.emit (.bit x)).symTrace = s.symTrace := by
  simp [State.symTrace]
@[simp] theorem State.symTrace_emit_byte (s : State) (y : Byte) : (s.emit (.byte y)).symTrace = s.symTrace := by
  simp [State.symTrace]
@[simp] theorem State.symTrace_emit_sym (s : State) (y : Symbol) : (s.emit (.sym y)).symTrace = s.symTrace ++ [y] := by
  simp [State.symTrace]
@[simp] theorem State.rspTrace_respond (s : State) (st : BitVec 8) (d : BitVec 56) :
    (s.respond st d).rspTrace = s.rspTrace ++ [responseWord st d] := by
  simp [State.rspTrace]
@[simp] theorem State.bitTrace_respond (s : State) (st : BitVec 8) (d : BitVec 56) :
    (s.respond st d).bitTrace = s.bitTrace := by
  simp [State.bitTrace]
@[simp] theorem State.byteTrace_respond (s : State) (st : BitVec 8) (d : BitVec 56) :
    (s.respond st d).byteTrace = s.byteTrace := by
  simp [State.byteTrace]
@[simp] theorem State.symTrace_respond (s : State) (st : BitVec 8) (d : BitVec 56) :
    (s.respond st d).symTrace = s.symTrace := by
  simp [State.symTrace]

/-! ### Saturating counters (00_scope.md R7) -/

/-- A saturating counter takes the next value, held at its maximum. -/
theorem satInc_toNat {n : Nat} (c : BitVec n) : (satInc c).toNat = min (c.toNat + 1) (2 ^ n - 1) := by
  have hlt := c.isLt
  unfold satInc
  split
  · next h =>
    subst h
    simp only [BitVec.toNat_allOnes]
    omega
  · next h =>
    have hne : c.toNat ≠ 2 ^ n - 1 := fun he => h (BitVec.eq_of_toNat_eq (by simpa [BitVec.toNat_allOnes] using he))
    rcases Nat.eq_zero_or_pos n with rfl | hn
    · exact absurd (by simp [BitVec.eq_nil c]) h
    · have h1 : (1 : Nat) < 2 ^ n := Nat.one_lt_two_pow (by omega)
      have h2 : (1 : BitVec n).toNat = 1 := (BitVec.toNat_ofNat 1 n).trans (Nat.mod_eq_of_lt h1)
      rw [BitVec.toNat_add, h2, Nat.mod_eq_of_lt (by omega)]
      omega

/-! ### The packer (44_encoder.md R152) -/

/-- One bit through the packer: a beat on `BITOUT`; the eighth bit also completes a byte and empties the packer. -/
theorem State.emitBit_cases (s : State) (x : Bool) :
    (s.pkCnt = 7 ∧ s.emitBit x =
      { s with
        beats := s.beats ++ [.bit x, .byte (s.pkBuf.setWidth 7 ++ BitVec.ofBool x)], encBitCnt := satInc s.encBitCnt,
        pkBuf := 0, pkCnt := 0 }) ∨
    (s.pkCnt ≠ 7 ∧ s.emitBit x =
      { s with
        beats := s.beats ++ [.bit x], encBitCnt := satInc s.encBitCnt,
        pkBuf := s.pkBuf.setWidth 7 ++ BitVec.ofBool x, pkCnt := s.pkCnt + 1 }) := by
  have key : ∀ c : BitVec 3, (c.setWidth 4 + 1 = (8 : BitVec 4)) = (c = 7)
      ∧ (c.setWidth 4 + 1 : BitVec 4).setWidth 3 = c + 1 := by decide
  by_cases h : s.pkCnt = 7
  · left
    refine ⟨h, ?_⟩
    simp [State.emitBit, State.emit, h]
  · right
    refine ⟨h, ?_⟩
    have h8 : ¬ (s.pkCnt.setWidth 4 + 1 = (8 : BitVec 4)) := by rw [(key s.pkCnt).1]; exact h
    simp only [State.emitBit, if_neg h8, (key s.pkCnt).2]
    rfl

/-- The bits of a code change nothing but the packer, the bit counter and the traces, and stand on `BITOUT` in order. -/
theorem State.emitBits_frame (l : List Bool) (s : State) :
    (s.emitBits l).bitTrace = s.bitTrace ++ l ∧ (s.emitBits l).symTrace = s.symTrace
      ∧ s.emitBits l =
        { s with
          beats := (s.emitBits l).beats, encBitCnt := (s.emitBits l).encBitCnt, pkBuf := (s.emitBits l).pkBuf,
          pkCnt := (s.emitBits l).pkCnt } := by
  induction l generalizing s with
  | nil => simp [State.emitBits]
  | cons x l ih =>
    obtain ⟨h1, h2, h3⟩ := ih (s.emitBit x)
    have hb : s.emitBits (x :: l) = (s.emitBit x).emitBits l := rfl
    rw [hb, h1, h2]
    rcases s.emitBit_cases x with ⟨-, h⟩ | ⟨-, h⟩
    · refine ⟨by simp [h, State.bitTrace], by simp [h, State.symTrace], ?_⟩
      rw [h3, h]
    · refine ⟨by simp [h, State.bitTrace], by simp [h, State.symTrace], ?_⟩
      rw [h3, h]

/-! ### The decoder's transition (45_decoder.md R162) -/

/-- Everything `dec_bit` can do: move to an internal child, emit a leaf's symbol and return to the root, or raise. -/
theorem decBit_cases (x : Bool) (s : State) :
    (s.treeValid = false ∧ decBit x s = .raises .corruptTree) ∨
    (s.treeValid = true ∧ nodeRec? s.node s.decCur = none ∧ decBit x s = .absent) ∨
    ∃ n, s.treeValid = true ∧ nodeRec? s.node s.decCur = some n ∧
      ((n.kind ≠ .internal ∧ decBit x s = .raises .corruptTree) ∨
        (n.kind = .internal ∧ nodeRec? s.node (n.child x) = none ∧ decBit x s = .absent) ∨
        ∃ c, n.kind = .internal ∧ nodeRec? s.node (n.child x) = some c ∧
          ((c.kind = .internal ∧ decBit x s = .moved { s with decCur := n.child x } none) ∨
            (c.kind = .leaf ∧ decBit x s = .moved (s.emitSym c.sym) (some c.sym)) ∨
            (c.kind = .sentinel ∧ decBit x s = .raises .corruptStream) ∨
            (c.kind = .free ∧ decBit x s = .raises .corruptTree))) := by
  unfold decBit
  cases hv : s.treeValid with
  | false => left; simp
  | true =>
    right
    cases hn : nodeRec? s.node s.decCur with
    | none => left; simp
    | some n =>
      right
      refine ⟨n, rfl, rfl, ?_⟩
      by_cases hk : n.kind = .internal
      · right
        cases hc : nodeRec? s.node (n.child x) with
        | none => left; exact ⟨hk, rfl, by simp [hk, hc]⟩
        | some c =>
          right
          refine ⟨c, hk, rfl, ?_⟩
          cases hck : c.kind <;> simp [hk, hc, hck]
      · left; exact ⟨hk, by simp [hk]⟩

end Sys2Proof.Machine
end

