-- ==== Sys2Proof/Laws/PerInstr.lean ====
section
/-! SUPPORT. Per command: the word the encoder gives has the fixed bits of the command's row (30_encoding.md R84). -/

namespace Sys2Proof.Laws.FixedBits

/-- The word of a command has the fixed bits of its row: opcode, unused fields and unused bits of `b` zero. -/
def Statement (i : Instr) : Prop := encode i &&& i.mnemonic.row.mask = i.mnemonic.row.pattern

/-- What is left of a command's statement once the table's rows are read: the unused bits of `b`. -/
theorem of_unused (i : Instr) (ha : i.encodeA &&& i.mnemonic.format.maskA = 0) (hb : i.encodeB &&& i.mnemonic.maskB = 0)
    (hi : i.encodeImm &&& i.mnemonic.format.maskImm = 0) : Statement i := by
  rw [Statement, row_matches_iff]
  exact ⟨by simp, by simpa using ha, by simpa using hb, by simpa using hi⟩

/-! The unused bits of `b` are zero where a format uses only its low bits (30_encoding.md R83). -/

theorem index_unused : ∀ i : NodeIdx, i.setWidth 16 &&& (0xFE00 : BitVec 16) = 0 := by decide +kernel
theorem chunk_unused : ∀ k : BitVec 3, k.setWidth 16 &&& (0xFFF8 : BitVec 16) = 0 := by decide
theorem bit_unused : ∀ x : Bool, (BitVec.ofBool x).setWidth 16 &&& (0xFFFE : BitVec 16) = 0 := by decide
theorem count_unused : ∀ n : BitVec 4, n.setWidth 16 &&& (0xFFF0 : BitVec 16) = 0 := by decide

/-! One lemma per command. -/

theorem nop : Statement .nop := of_unused _ BitVec.zero_and BitVec.zero_and BitVec.zero_and
theorem clr : Statement .clr := of_unused _ BitVec.zero_and BitVec.zero_and BitVec.zero_and
theorem rdreg (r : StatusReg) : Statement (.rdreg r) := of_unused _ BitVec.and_zero BitVec.zero_and BitVec.zero_and
theorem faSym (s : Symbol) : Statement (.faSym s) := of_unused _ BitVec.and_zero BitVec.zero_and BitVec.zero_and
theorem ftSet (s : Symbol) (c : BitVec 32) : Statement (.ftSet s c) :=
  of_unused _ BitVec.and_zero BitVec.zero_and BitVec.and_zero
theorem ftRd (s : Symbol) : Statement (.ftRd s) := of_unused _ BitVec.and_zero BitVec.zero_and BitVec.zero_and
theorem tbBuild : Statement .tbBuild := of_unused _ BitVec.zero_and BitVec.zero_and BitVec.zero_and
theorem ndInfo (i : NodeIdx) : Statement (.ndInfo i) := of_unused _ BitVec.zero_and (index_unused i) BitVec.zero_and
theorem ndFreq (i : NodeIdx) : Statement (.ndFreq i) := of_unused _ BitVec.zero_and (index_unused i) BitVec.zero_and
theorem ctGen : Statement .ctGen := of_unused _ BitVec.zero_and BitVec.zero_and BitVec.zero_and
theorem ctLen (s : Symbol) : Statement (.ctLen s) := of_unused _ BitVec.and_zero BitVec.zero_and BitVec.zero_and
theorem ctBits (s : Symbol) (k : BitVec 3) : Statement (.ctBits s k) :=
  of_unused _ BitVec.and_zero (chunk_unused k) BitVec.zero_and
theorem encSym (s : Symbol) : Statement (.encSym s) := of_unused _ BitVec.and_zero BitVec.zero_and BitVec.zero_and
theorem encFlush : Statement .encFlush := of_unused _ BitVec.zero_and BitVec.zero_and BitVec.zero_and
theorem decBit (x : Bool) : Statement (.decBit x) := of_unused _ BitVec.zero_and (bit_unused x) BitVec.zero_and
theorem decByte (y : Byte) (n : BitVec 4) : Statement (.decByte y n) :=
  of_unused _ BitVec.and_zero (count_unused n) BitVec.zero_and
theorem decEnd (f : Bool) : Statement (.decEnd f) := of_unused _ BitVec.zero_and (bit_unused f) BitVec.zero_and

end Sys2Proof.Laws.FixedBits
end

