-- ==== Sys2Proof/Laws/Tree.lean ====
section
/-! SUPPORT. What the building operations leave alone, and what the scan of the table depends on (42_tree_builder.md R122 to
R126). -/

namespace Sys2Proof.Machine

/-- The state with another arena, queue and tree: what the building operations may change. -/
def State.sameOutsideTree (s t : State) : Prop :=
  t = { s with
    node := t.node, nnode := t.nnode, nleaf := t.nleaf, root := t.root, treeValid := t.treeValid, pq := t.pq,
    decCur := t.decCur }

theorem State.sameOutsideTree_refl (s : State) : s.sameOutsideTree s := rfl

theorem State.sameOutsideTree_trans {s t u : State} (h : s.sameOutsideTree t) (k : t.sameOutsideTree u) :
    s.sameOutsideTree u := by
  unfold State.sameOutsideTree at *
  rw [k, h]

theorem State.sameOutsideTree_pqInsert (s : State) (i : NodeIdx) : s.sameOutsideTree (s.pqInsert i) := rfl

theorem State.sameOutsideTree_scanSymbol (s : State) (y : Symbol) : s.sameOutsideTree (s.scanSymbol y) := by
  unfold State.scanSymbol
  split <;> rfl

theorem State.sameOutsideTree_scanTable (s : State) : s.sameOutsideTree s.scanTable := by
  have h : ∀ (l : List Symbol) (t : State), t.sameOutsideTree (l.foldl State.scanSymbol t) := by
    intro l
    induction l with
    | nil => exact State.sameOutsideTree_refl
    | cons y l ih => exact fun t => State.sameOutsideTree_trans (t.sameOutsideTree_scanSymbol y) (ih _)
  exact h allSymbols s

theorem State.sameOutsideTree_singleSymbol (s : State) : s.sameOutsideTree s.singleSymbol := rfl

theorem State.sameOutsideTree_mergeStep (s : State) : s.sameOutsideTree s.mergeStep := rfl

theorem State.sameOutsideTree_mergeLoop (n : Nat) (s : State) : s.sameOutsideTree (s.mergeLoop n) := by
  induction n generalizing s with
  | zero => rfl
  | succ n ih =>
    rw [State.mergeLoop]
    split
    · exact State.sameOutsideTree_trans s.sameOutsideTree_mergeStep (ih _)
    · rfl

theorem State.sameOutsideTree_buildTree (s : State) : s.sameOutsideTree s.buildTree := by
  unfold State.buildTree
  split
  · exact State.sameOutsideTree_trans s.sameOutsideTree_singleSymbol rfl
  · exact State.sameOutsideTree_trans (s.sameOutsideTree_mergeLoop 255) rfl

/-- Everything `TB_BUILD` can do: on an empty table it clears the derived state and raises `InvalidInput`, otherwise it
answers the new tree, and it leaves the table, the fault registers and the host's moves as they are. -/
theorem execTbBuild_cases (s t : State) (h : execTbBuild s = .next t) :
    (s.clearDerived.scanTable.nleaf = 0 ∧ t = s.clearDerived.scanTable.raiseFault .invalidInput 0 (encode .tbBuild)) ∨
    (s.clearDerived.scanTable.nleaf ≠ 0 ∧ s.clearDerived.sameOutsideTree s.clearDerived.scanTable.buildTree ∧
      t = s.clearDerived.scanTable.buildTree.respond statusOk
        ((s.clearDerived.scanTable.buildTree.nnode ++ s.clearDerived.scanTable.buildTree.root).setWidth 56)) := by
  unfold execTbBuild at h
  simp only [raised, succeed] at h
  split at h
  · next h0 =>
    left
    injection h with h
    exact ⟨h0, h.symm⟩
  · next h0 =>
    right
    injection h with h
    exact ⟨h0, State.sameOutsideTree_trans s.clearDerived.sameOutsideTree_scanTable (State.sameOutsideTree_buildTree _), h.symm⟩

end Sys2Proof.Machine
end

