-- ==== Sys2Proof/Laws/Step.lean ====
section
/-! SUPPORT. What a step and an accepted word can do (00_scope.md R16). -/

namespace Sys2Proof.Machine

/-- Everything a step can do: idle, reset, or accept the next word. -/
theorem step_cases (s : State) :
    (s.inputs = [] ∧ step s = .next s) ∨
    (∃ rest, s.inputs = .rst :: rest ∧ step s = .next { State.reset with inputs := rest }) ∨
    ∃ w rest, s.inputs = .command w :: rest ∧ step s = acceptWord w { s with inputs := rest } := by
  rcases h : s.inputs with _ | ⟨⟨w⟩ | _, rest⟩
  · left; exact ⟨rfl, by simp [step, takeInput, h]⟩
  · right; right; exact ⟨w, rest, rfl, by simp [step, takeInput, h]⟩
  · right; left; exact ⟨rest, rfl, by simp [step, takeInput, h, State.hardReset]⟩

/-- Everything an accepted word can do: be answered `Aborted`, raise `IllegalCommand`, or execute. -/
theorem acceptWord_cases (w : Word) (s : State) :
    (s.fault = true ∧ (∀ i, decode w = .ok i → runsInFaultState i = false) ∧ acceptWord w s = aborted s) ∨
    (s.fault = false ∧ (∃ e, decode w = .error e) ∧ acceptWord w s = raised s .illegalCommand 0 w) ∨
    ∃ i, decode w = .ok i ∧ (s.fault = true → runsInFaultState i = true) ∧ acceptWord w s = exec i s := by
  unfold acceptWord
  rcases hd : decode w with e | i <;> rcases hf : s.fault <;> simp
  rcases hr : runsInFaultState i <;> simp

end Sys2Proof.Machine
end

