-- ==== Sys2Proof/Tests/Slice0.lean ====
section
/-! SUPPORT. Tests: words written out from the spec's encodings, ill-formed commands, one step of each command against the
vectors of 95_test_vectors.md, and for every statement with hypotheses a witness that meets them. -/

namespace Sys2Proof.Tests

open Sys2Proof.Machine Sys2Proof.Spec

/-- The state of a next outcome. -/
def after (o : Host.Outcome State Fault Refusal) : Option State :=
  match o with
  | .next t => some t
  | .fault _ => none
  | .refused _ => none

/-- The last response and one view of the state after a command. -/
def seen {α : Type} (o : Host.Outcome State Fault Refusal) (view : State → α) : Option (Option Word × α) :=
  (after o).map (fun t => (t.rspTrace.getLast?, view t))

/-! ### Decoding, each word from the spec's encoding (30_encoding.md R84, R90; 95_test_vectors.md) -/

theorem test_decode_nop : decode 0x0000000000000000 = .ok .nop := by decide
theorem test_decode_clr : decode 0x0100000000000000 = .ok .clr := by decide
theorem test_decode_rdreg : decode 0x020A000000000000 = .ok (.rdreg .ftCount) := by decide
theorem test_decode_faSym : decode 0x1061000000000000 = .ok (.faSym 0x61) := by decide
theorem test_decode_ftSet : decode 0x11610000FFFFFFFE = .ok (.ftSet 0x61 0xFFFFFFFE) := by decide
theorem test_decode_ftRd : decode 0x127A000000000000 = .ok (.ftRd 0x7A) := by decide
theorem test_decode_tbBuild : decode 0x2000000000000000 = .ok .tbBuild := by decide
theorem test_decode_ndInfo : decode 0x2100000800000000 = .ok (.ndInfo 8) := by decide
theorem test_decode_ndFreq : decode 0x220001FE00000000 = .ok (.ndFreq 510) := by decide
theorem test_decode_ctGen : decode 0x3000000000000000 = .ok .ctGen := by decide
theorem test_decode_ctLen : decode 0x3162000000000000 = .ok (.ctLen 0x62) := by decide
theorem test_decode_ctBits : decode 0x3200000700000000 = .ok (.ctBits 0 7) := by decide
theorem test_decode_encSym : decode 0x4061000000000000 = .ok (.encSym 0x61) := by decide
theorem test_decode_encFlush : decode 0x4100000000000000 = .ok .encFlush := by decide
theorem test_decode_decBit : decode 0x5000000100000000 = .ok (.decBit true) := by decide
theorem test_decode_decByte : decode 0x516E000800000000 = .ok (.decByte 0x6E 8) := by decide
theorem test_decode_decEnd : decode 0x5200000100000000 = .ok (.decEnd true) := by decide

/-- The illegal words of V19, by the case of 30_encoding.md R85. -/
theorem test_decode_illegal :
    decode 0x0300000000000000 = .error .reservedOpcode ∧ decode 0x0000000000000001 = .error .unusedFieldNonZero ∧
    decode 0x2100020000000000 = .error .unusedFieldNonZero ∧ decode 0x020D000000000000 = .error .registerNumber ∧
    decode 0x210001FF00000000 = .error .nodeIndex ∧ decode 0x5100000900000000 = .error .bitCount ∧
    decode 0x51FF000000000000 = .error .bitCount := by decide

theorem test_rows_have_distinct_opcodes : opcodeTable.Pairwise (fun r q => r.op ≠ q.op) := by decide

theorem test_host_view_decodes : decodeTableWord 64 0x5200000100000000 = some (.decEnd true) := by decide

/-! ### Well-formedness: each check refuses an ill-formed command -/

theorem test_wf_refuses_node_511 : (Instr.ndInfo 511).wf = false ∧ (Instr.ndFreq 511).wf = false := by decide
theorem test_wf_refuses_bit_count_0 : (Instr.decByte 0 0).wf = false := by decide
theorem test_wf_refuses_bit_count_9 : (Instr.decByte 0 9).wf = false := by decide
/-- The check of a count refuses nothing at the default `FREQ_W` = 32 (30_encoding.md R85 case 6: "impossible"). -/
theorem test_wf_count_check : (Instr.ftSet 0 0xFFFFFFFF).wf = true ∧ 2 ^ Config.freqW = 4294967296 := by decide

/-! ### States -/

/-- Two keys a:1 and b:2, nothing built (V25). -/
def table2 : State := { State.reset with ft := [(0x61, ⟨true, 1⟩), (0x62, ⟨true, 2⟩)] }

/-- V25 after `TB_BUILD`. -/
def tree2 : State :=
  { table2 with
    node := [(0, ⟨.leaf, 0x61, 1, 0, 0⟩), (1, ⟨.leaf, 0x62, 2, 0, 0⟩), (2, ⟨.internal, 0, 3, 0, 1⟩)],
    nnode := 3, nleaf := 2, root := 2, treeValid := true, pq := [2], decCur := 2 }

/-- V25 after `CT_GEN`. -/
def codes2 : State := { tree2 with ct := [(0x61, ⟨true, 1, 0⟩), (0x62, ⟨true, 1, 1⟩)], codesValid := true }

/-- V6 after `TB_BUILD`: one key a:4. -/
def tree1 : State :=
  { State.reset with
    ft := [(0x61, ⟨true, 4⟩)],
    node := [(0, ⟨.leaf, 0x61, 4, 0, 0⟩), (1, ⟨.sentinel, 0, 0, 0, 0⟩), (2, ⟨.internal, 0, 4, 0, 1⟩)],
    nnode := 3, nleaf := 1, root := 2, treeValid := true, pq := [2], decCur := 2 }

/-- V6 after `CT_GEN`. -/
def codes1 : State := { tree1 with ct := [(0x61, ⟨true, 1, 0⟩)], codesValid := true }

/-- V14 after `TB_BUILD`: a:1, b:1, c:2. -/
def tree3 : State :=
  { State.reset with
    ft := [(0x61, ⟨true, 1⟩), (0x62, ⟨true, 1⟩), (0x63, ⟨true, 2⟩)],
    node := [(0, ⟨.leaf, 0x61, 1, 0, 0⟩), (1, ⟨.leaf, 0x62, 1, 0, 0⟩), (2, ⟨.leaf, 0x63, 2, 0, 0⟩),
      (3, ⟨.internal, 0, 2, 0, 1⟩), (4, ⟨.internal, 0, 4, 2, 3⟩)],
    nnode := 5, nleaf := 3, root := 4, treeValid := true, pq := [4], decCur := 4 }

/-- A state in the fault state. -/
def faulted : State := { table2 with fault := true, err := 7, faultInfo := 3 }

/-! ### One step of each command -/

theorem test_nop (s : State) : exec .nop s = .next { s with beats := s.beats ++ [.rsp 0] } := rfl

/-- V7: `CLR` leaves the fault state and empties the table. -/
theorem test_clr : after (exec .clr faulted) = some { State.reset with beats := [.rsp 0] } := by decide

/-- `PARAMS` (10_state.md R47) and `STATUS` after a build (V2). -/
theorem test_rdreg : seen (exec (.rdreg .params) State.reset) State.ft = some (some 0x1FF282008, [])
    ∧ seen (exec (.rdreg .status) tree2) State.err = some (some 2, 0) := by decide

/-- V18: the count at its maximum. -/
theorem test_faSym_overflow :
    seen (exec (.faSym 0x61) { State.reset with ft := [(0x61, ⟨true, 0xFFFFFFFF⟩)] }) (fun t => (t.fault, t.err, t.faultInfo))
      = some (some 0x0600000000000000, true, 6, 0x6110) := by decide
/-- V18: the last count that can be taken. -/
theorem test_faSym_counts :
    seen (exec (.faSym 0x61) { State.reset with ft := [(0x61, ⟨true, 0xFFFFFFFE⟩)] }) State.ft
      = some (some 0xFFFFFFFF, [(0x61, ⟨true, 0xFFFFFFFF⟩)]) := by decide

/-- V10: a key with count 0 is a key. -/
theorem test_ftSet : seen (exec (.ftSet 0x60 0) table2) State.ft
    = some (some 0, [(0x60, ⟨true, 0⟩), (0x61, ⟨true, 1⟩), (0x62, ⟨true, 2⟩)]) := by decide

/-- V1: a key, and no key. -/
theorem test_ftRd : seen (exec (.ftRd 0x62) table2) State.fault = some (some 0x100000002, false)
    ∧ seen (exec (.ftRd 0x7A) table2) State.fault = some (some 0, false) := by decide

/-- V25: the tree of two keys. -/
theorem test_tbBuild_two_keys : after (exec .tbBuild table2) = some { tree2 with beats := [.rsp 0x602] } := by
  decide +kernel
/-- V14: a merged node goes behind a queued leaf of the same frequency. -/
theorem test_tbBuild_tie : seen (exec .tbBuild { State.reset with ft := tree3.ft }) State.node
    = some (some 0xA04, tree3.node) := by decide +kernel

/-- V6: the root of the single-symbol tree. -/
theorem test_ndInfo : seen (exec (.ndInfo 2) tree1) State.fault = some (some 0x80002, false) := by decide
theorem test_ndFreq : seen (exec (.ndFreq 2) tree1) State.fault = some (some 4, false) := by decide

/-- V14: codes c = 0, a = 10, b = 11. -/
theorem test_ctGen : seen (exec .ctGen tree3) State.ct
    = some (some 3, [(0x61, ⟨true, 2, 1⟩), (0x62, ⟨true, 2, 3⟩), (0x63, ⟨true, 1, 0⟩)]) := by decide +kernel
/-- V6: the sentinel has no code. -/
theorem test_ctGen_sentinel : after (exec .ctGen tree1) = some { codes1 with beats := [.rsp 1] } := by decide +kernel

theorem test_ctLen : seen (exec (.ctLen 0x61) codes1) State.fault = some (some 0x101, false) := by decide
/-- V25 with the code of b. -/
theorem test_ctBits : seen (exec (.ctBits 0x62 0) codes2) State.fault = some (some 1, false) := by decide

/-- The eighth bit goes to `BITOUT`, then its byte to `BYTEOUT`, then the response (20_memory.md R74). -/
theorem test_encSym_completes_a_byte :
    (after (exec (.encSym 0x62) { codes2 with pkBuf := 0x37, pkCnt := 7, encBitCnt := 7 })).map State.beats
      = some [.bit true, .byte 0x6F, .rsp 1] := by decide
/-- V25: `PACKER` reads 0x101 after one bit 1. -/
theorem test_encSym : seen (exec (.encSym 0x62) codes2) (fun t => (t.pkBuf, t.pkCnt, t.encSymCnt, t.encBitCnt))
    = some (some 1, 1, 1, 1, 1) := by decide

/-- V4: the final partial byte. -/
theorem test_encFlush : (after (exec .encFlush { codes2 with pkBuf := 0x6E, pkCnt := 7, encBitCnt := 23 })).map State.beats
    = some [.byte 0xDC, .rsp 0x0001000000000017] := by decide

/-- V14: the first bit moves, V24: an emitted symbol answers 0x100 plus its value. -/
theorem test_decBit : seen (exec (.decBit true) tree3) (fun t => (t.decCur, t.symTrace)) = some (some 0, 3, [])
    ∧ seen (exec (.decBit true) { tree3 with decCur := 3 }) (fun t => (t.decCur, t.symTrace))
      = some (some 0x162, 4, [0x62]) := by decide
/-- V7: the sentinel. -/
theorem test_decBit_sentinel : seen (exec (.decBit true) tree1) (fun t => (t.err, t.faultInfo, t.decCur))
    = some (some 0x0500000000000000, 5, 0x10050, 2) := by decide

/-- V20: the third bit of 0x20 reaches the sentinel. -/
theorem test_decByte_fault : seen (exec (.decByte 0x20 8) tree1) (fun t => (t.symTrace, t.decSymCnt, t.faultInfo))
    = some (some 0x0500000000000000, [0x61, 0x61], 2, 0x200082051) := by decide
/-- V6: four zeros. -/
theorem test_decByte : seen (exec (.decByte 0 4) tree1) State.symTrace = some (some 4, [0x61, 0x61, 0x61, 0x61]) := by
  decide

/-- V14: mid-codeword. -/
theorem test_decEnd_truncated : seen (exec (.decEnd false) { tree3 with decCur := 3 }) (fun t => (t.err, t.faultInfo))
    = some (some 0x0300000000000000, 3, 0x52) := by decide
/-- V9 and V6: the count check. -/
theorem test_decEnd_check : seen (exec (.decEnd true) { tree1 with decSymCnt := 12 }) (fun t => (t.decSymCnt, t.faultInfo))
      = some (some 0x0500000000000000, 12, 0x10052)
    ∧ seen (exec (.decEnd true) { tree1 with decSymCnt := 4 }) State.decSymCnt = some (some 4, 0) := by decide

/-- V19: an illegal word raises `IllegalCommand`, and is answered `Aborted` in the fault state. -/
theorem test_step_illegal :
    seen (step (table2.withFetchWord 64 0x0300000000000000)) (fun t => (t.err, t.faultInfo))
      = some (some 0x0700000000000000, 7, 3)
    ∧ after (step (faulted.withFetchWord 64 0xFF00000000000000))
      = some { faulted with beats := [.rsp 0x0800000000000000] } := by decide

/-- V12: a state-changing command in the fault state; a read-out there. -/
theorem test_step_fault_state :
    after (step (faulted.withFetchWord 64 0x1001000000000000)) = some { faulted with beats := [.rsp 0x0800000000000000] }
    ∧ seen (step (faulted.withFetchWord 64 0x1262000000000000)) State.fault = some (some 0x100000002, true) := by decide

theorem test_step_rst : after (step { codes2 with beats := [.rsp 1], inputs := [.rst, .command 0] })
    = some { State.reset with inputs := [.command 0] } := by decide

/-! ### Witnesses: the invariant holds of states with a tree and codes -/

/-- An index below 3 is 0, 1 or 2. -/
theorem index_below_3 (i : NodeIdx) (h : i.toNat < 3) : i = 0 ∨ i = 1 ∨ i = 2 := by
  have h3 : i.toNat = 0 ∨ i.toNat = 1 ∨ i.toNat = 2 := by omega
  rcases h3 with h | h | h
  · exact .inl (BitVec.eq_of_toNat_eq h)
  · exact .inr (.inl (BitVec.eq_of_toNat_eq h))
  · exact .inr (.inr (BitVec.eq_of_toNat_eq h))

theorem tree2_internal : ∀ i : NodeIdx, (codes2.nodeAt i).kind = .internal → i = 2 := by decide +kernel

theorem codes2_treeInv : TreeInv codes2 where
  leafRange := by decide
  sizeMany := by decide
  sizeOne := by decide
  allocated := by decide +kernel
  leafPlace := by decide +kernel
  leafOrder := by
    intro i j hij hj
    have hj2 : j.toNat < 2 := hj
    rcases index_below_3 i (by omega) with rfl | rfl | rfl <;> rcases index_below_3 j (by omega) with rfl | rfl | rfl <;>
      revert hij hj2 <;> decide
  leafFields := by decide +kernel
  sentinelFields := by decide +kernel
  childBelow := by decide +kernel
  freqSum := by decide +kernel
  oneParent := by
    intro j hj hr
    have hj3 : j.toNat < 3 := hj
    rcases index_below_3 j hj3 with rfl | rfl | rfl
    · refine ⟨2, false, ⟨by decide, by decide⟩, ?_⟩
      rintro i x ⟨hi, hx⟩
      have := tree2_internal i hi
      subst this
      cases x
      · exact ⟨rfl, rfl⟩
      · exact absurd hx (by decide)
    · refine ⟨2, true, ⟨by decide, by decide⟩, ?_⟩
      rintro i x ⟨hi, hx⟩
      have := tree2_internal i hi
      subst this
      cases x
      · exact absurd hx (by decide)
      · exact ⟨rfl, rfl⟩
    · exact absurd rfl hr
  rootLast := by decide

theorem codes2_codesInv : CodesInv codes2 where
  tree := rfl
  covers := by decide +kernel
  paths := by
    intro y hy
    have key : ∀ y : Symbol, (codes2.ctAt y).v = true → y = 0x61 ∨ y = 0x62 := by decide +kernel
    rcases key y hy with rfl | rfl
    · exact ⟨by decide, 0, by decide, by decide, by decide⟩
    · exact ⟨by decide, 1, by decide, by decide, by decide⟩
  highBits := by
    intro y k hk
    have key : ∀ y : Symbol, (codes2.ctAt y).bits = 0 ∨ ((codes2.ctAt y).len = 1 ∧ (codes2.ctAt y).bits = 1) := by
      decide +kernel
    rcases key y with h | ⟨h1, h2⟩
    · rw [h]; simp
    · have h0 : 1 ≤ k := by rw [h1] at hk; exact hk
      rw [h2, show (1 : BitVec 255) = 1#255 from rfl, BitVec.getLsbD_one]
      simp only [show k ≠ 0 by omega, decide_false, Bool.and_false]
  invalid := by decide +kernel

theorem codes2_inv : Inv codes2 where
  memories := by decide
  table := by decide +kernel
  tree := fun _ => ⟨codes2_treeInv, rfl, by decide⟩
  noTree := fun h => absurd h (by decide)
  codes := fun _ => codes2_codesInv
  noCodes := by decide
  packerBits := by decide
  packerCount := by decide
  noFault := by decide
  faultCode := by decide

/-- The same arena without codes. -/
theorem tree2_treeInv : TreeInv tree2 where
  leafRange := codes2_treeInv.leafRange
  sizeMany := codes2_treeInv.sizeMany
  sizeOne := codes2_treeInv.sizeOne
  allocated := codes2_treeInv.allocated
  leafPlace := codes2_treeInv.leafPlace
  leafOrder := codes2_treeInv.leafOrder
  leafFields := codes2_treeInv.leafFields
  sentinelFields := codes2_treeInv.sentinelFields
  childBelow := codes2_treeInv.childBelow
  freqSum := codes2_treeInv.freqSum
  oneParent := codes2_treeInv.oneParent
  rootLast := codes2_treeInv.rootLast

theorem tree2_inv : Inv tree2 where
  memories := by decide
  table := codes2_inv.table
  tree := fun _ => ⟨tree2_treeInv, rfl, by decide⟩
  noTree := fun h => absurd h (by decide)
  codes := fun h => absurd h (by decide)
  noCodes := by decide
  packerBits := by decide
  packerCount := by decide
  noFault := by decide
  faultCode := by decide

theorem codes1_internal : ∀ i : NodeIdx, (codes1.nodeAt i).kind = .internal → i = 2 := by decide +kernel

theorem codes1_treeInv : TreeInv codes1 where
  leafRange := by decide
  sizeMany := by decide
  sizeOne := by decide
  allocated := by decide +kernel
  leafPlace := by decide +kernel
  leafOrder := by
    intro i j hij hj
    have hj1 : j.toNat < 1 := hj
    omega
  leafFields := by decide +kernel
  sentinelFields := by decide +kernel
  childBelow := by decide +kernel
  freqSum := by decide +kernel
  oneParent := by
    intro j hj hr
    have hj3 : j.toNat < 3 := hj
    rcases index_below_3 j hj3 with rfl | rfl | rfl
    · refine ⟨2, false, ⟨by decide, by decide⟩, ?_⟩
      rintro i x ⟨hi, hx⟩
      have := codes1_internal i hi
      subst this
      cases x
      · exact ⟨rfl, rfl⟩
      · exact absurd hx (by decide)
    · refine ⟨2, true, ⟨by decide, by decide⟩, ?_⟩
      rintro i x ⟨hi, hx⟩
      have := codes1_internal i hi
      subst this
      cases x
      · exact absurd hx (by decide)
      · exact ⟨rfl, rfl⟩
    · exact absurd rfl hr
  rootLast := by decide

theorem codes1_codesInv : CodesInv codes1 where
  tree := rfl
  covers := by decide +kernel
  paths := by
    intro y hy
    have key : ∀ y : Symbol, (codes1.ctAt y).v = true → y = 0x61 := by decide +kernel
    rw [key y hy]
    exact ⟨by decide, 0, by decide, by decide, by decide⟩
  highBits := by
    intro y k _
    have key : ∀ y : Symbol, (codes1.ctAt y).bits = 0 := by decide +kernel
    rw [key y]; simp
  invalid := by decide +kernel

theorem codes1_inv : Inv codes1 where
  memories := by decide
  table := by decide +kernel
  tree := fun _ => ⟨codes1_treeInv, rfl, by decide⟩
  noTree := fun h => absurd h (by decide)
  codes := fun _ => codes1_codesInv
  noCodes := by decide
  packerBits := by decide
  packerCount := by decide
  noFault := by decide
  faultCode := by decide

/-! ### Witnesses: states and operands that meet the hypotheses of each statement, clause by clause -/

theorem witness_DecodeOfEncode : (Instr.ndInfo 510).wf = true ∧ (Instr.decByte 0 1).wf = true
    ∧ (Instr.decByte 0xFF 8).wf = true ∧ (Instr.ftSet 0xFF 0xFFFFFFFF).wf = true := by decide

theorem witness_EncodeOfDecode : decode 0x51FF000800000000 = .ok (.decByte 0xFF 8) := by decide

/-- An illegal word of each of the six cases but the last, which 32 bits of count shut out, and a legal word. -/
theorem witness_IllegalWordsAreTheSixCases :
    ({ table2 with inputs := [.command 0x5100000900000000] } : State).inputs = [.command 0x5100000900000000] ∧
    table2.fault = false ∧ faulted.fault = true ∧ ¬ illegal 0x210001FE00000000 ∧
    illegal 0x0300000000000000 ∧ illegal 0x2000000000000001 ∧ illegal 0x020D000000000000 ∧ illegal 0x210001FF00000000 ∧
    illegal 0x5100000900000000 := by
  refine ⟨rfl, by decide, by decide, ?_, ?_, ?_, ?_, ?_, ?_⟩ <;> simp [illegal, Config.freqW]

/-- The four clauses of the step: runs, `Aborted` for a legal word, `Aborted` and `IllegalCommand` for an illegal one. -/
theorem witness_StepRunsDecodedCommand :
    ({ faulted with inputs := [.command 0] } : State).inputs = [.command 0] ∧ decode 0 = .ok .nop ∧ Mnemonic.nop ∈ always ∧
    table2.fault = false ∧ faulted.fault = true ∧ decode 0x2000000000000000 = .ok .tbBuild ∧ Mnemonic.tbBuild ∉ always ∧
    decode 0x0300000000000000 = .error .reservedOpcode := by decide

/-- No move, `RST`, and a word. -/
theorem witness_HostMovesAreTakenInOrder : codes2.inputs = [] ∧
    ({ codes2 with inputs := [.rst, .command 0] } : State).inputs = [.rst, .command 0] ∧
    (after (step { codes2 with inputs := [.command 0, .rst] })).map State.inputs = some [.rst] := by decide

theorem witness_ResetAndClrValues : ({ codes2 with inputs := [.rst] } : State).inputs = [.rst] := by decide

theorem witness_OneResponsePerCommandLast :
    after (step { codes2 with inputs := [.command 0x4062000000000000] })
      = some { codes2 with
        beats := [.bit true, .rsp 1], pkBuf := 1, pkCnt := 1, encSymCnt := 1, encBitCnt := 1 } := by decide

theorem witness_FaultStateChangesNothing :
    faulted.fault = true ∧ decode 0x2000000000000000 ≠ .ok .clr ∧ decode 0x0300000000000000 ≠ .ok .clr
      ∧ Mnemonic.tbBuild ∉ always := by decide

/-- An illegal word, and a `DEC_BYTE` that faults at its bit 2. -/
theorem witness_FaultEntryRecordsTheWord :
    (after (step { tree1 with inputs := [.command 0x5120000800000000] })).map (fun t => (t.fault, t.faultInfo))
      = some (true, 0x200082051)
    ∧ (after (step { tree1 with inputs := [.command 0x0300000000000000] })).map (fun t => (t.fault, t.faultInfo))
      = some (true, 3) := by decide

theorem witness_FaultsArePrecise :
    Inv codes2 ∧ codes2.fault = false ∧ (after (exec (.encSym 0x7A) codes2)).map State.fault = some true :=
  ⟨codes2_inv, by decide, by decide⟩

theorem witness_ElementsAreWrittenByTheirOwners : (after (exec .nop faulted)).isSome = true ∧ faulted.fault = true := by
  decide

theorem witness_RdregReadsTheRegister : 0x0C < (0x0D : BitVec 8).toNat := by decide

theorem witness_FaSymCountsOrOverflows : (table2.ftAt 0).cnt.toNat < 2 ^ Config.freqW - 1 ∧
    (({ State.reset with ft := [(0x61, ⟨true, 0xFFFFFFFF⟩)] } : State).ftAt 0x61).cnt.toNat = 2 ^ Config.freqW - 1 := by
  decide

theorem witness_CountingPassCounts :
    State.reset.ft = [] ∧ State.reset.fault = false ∧
    (after (runCommands ([0x61, 0x62, 0x61].map .faSym) State.reset)).map (fun t => (t.fault, t.ft))
      = some (false, [(0x61, ⟨true, 2⟩), (0x62, ⟨true, 1⟩)]) := by decide

theorem witness_PqInsertKeepsTheOrder : queueSorted { tree2 with pq := [0, 1] } ∧ (2 : NodeIdx) ∉ ([0, 1] : List NodeIdx) := by
  refine ⟨?_, by decide⟩
  refine List.pairwise_cons.2 ⟨?_, by simp⟩
  intro j hj
  rw [List.mem_singleton.1 hj]
  exact .inl (by decide)

theorem witness_MergeStepJoinsTheTwoLeast :
    ({ tree2 with pq := [0, 1], nnode := 2 } : State).pq = 0 :: 1 :: [] ∧ (2 : BitVec 10).toNat ≤ 510 ∧
    queueSorted { tree2 with pq := [0, 1] } ∧ (∀ i ∈ ([0, 1] : List NodeIdx), i.toNat < (2 : BitVec 10).toNat) :=
  ⟨rfl, by decide, witness_PqInsertKeepsTheOrder.1, by decide⟩

theorem witness_TbBuildOfEmptyTableFaults : ∀ y : Symbol, (State.reset.ftAt y).v = false := by decide

theorem witness_TbBuildBuildsTheTree : ∃ y : Symbol, (table2.ftAt y).v = true := ⟨0x61, by decide⟩

theorem witness_TbBuildMergesInKeyOrder : 2 ≤ keySum table2 (fun _ => 1) ∧ (table2.ftAt 0x62).v = true := by
  decide +kernel

theorem witness_SingleKeyTree : ∀ z : Symbol, (tree1.ftAt z).v = true ↔ z = 0x61 := by decide +kernel

theorem witness_TbBuildDependsOnTheTableAlone : ∀ y : Symbol, table2.ftAt y = codes2.ftAt y := fun _ => rfl

theorem witness_RootFrequencyIsTheTotal : ∃ y : Symbol, (tree1.ftAt y).v = true := ⟨0x61, by decide⟩

theorem witness_NdInfoReadsTheRecord : (510 : NodeIdx).toNat ≤ 510 ∧ (0 : NodeIdx).toNat ≤ 510 := by decide

theorem witness_NdFreqReadsTheFrequency : (510 : NodeIdx).toNat ≤ 510 ∧ (0 : NodeIdx).toNat ≤ 510 := by decide

/-- A tree of V25 whose root has been given 511 as left child: no state a run reaches. -/
def tree511 : State := { tree2 with node := [(1, ⟨.leaf, 0x62, 2, 0, 0⟩), (2, ⟨.internal, 0, 3, 511, 1⟩)] }

/-- A pointer 511, a child 511, a byte that stops at its bit 1, a root 511, a left edge to 511, and a tree that gets codes. -/
theorem witness_AbsentRecordStops :
    ({ tree2 with root := 511, decCur := 511 } : State).treeValid = true ∧
    (tree511.treeValid = true ∧ tree511.decCur.toNat ≤ 510 ∧ (tree511.nodeAt tree511.decCur).kind = .internal ∧
      (tree511.nodeAt tree511.decCur).child false = 511) ∧
    ((after (runCommands (((highBits 0x80 8).take 1).map .decBit) tree511)).map (fun u => (u.fault, u.decCur))
      = some (false, 2) ∧
      (after (runCommands (((highBits 0x80 8).take 1).map .decBit) tree511)).map (fun u =>
        match exec (.decBit ((0x80 : Byte).getLsbD (7 - 1))) u with | .fault f => some f | _ => none)
      = some (some .nodeIndexAbsent)) ∧
    followPath tree511.node tree511.root (List.replicate 1 false) = some 511 ∧
    (after (exec .ctGen tree2)).map State.codesValid = some true := by
  refine ⟨by decide, by decide, by decide, by decide, by decide +kernel⟩

theorem witness_CtGenNeedsATree : State.reset.treeValid = false := by decide

/-- A path to a symbol, a leaf with a symbol, and a symbol that no leaf holds. -/
theorem witness_CtGenAssignsRootPaths : tree2.treeValid = true ∧ TreeInv tree2 ∧ tree2.leadsTo [true] 0x62 ∧
    (∃ i, (tree2.nodeAt i).kind = .leaf ∧ (tree2.nodeAt i).sym = 0x61) ∧
    (∀ i, (tree2.nodeAt i).kind = .leaf → (tree2.nodeAt i).sym ≠ 0x7A) :=
  ⟨by decide, tree2_treeInv, ⟨1, by decide, by decide, by decide⟩, ⟨0, by decide, by decide⟩, by decide +kernel⟩

/-- Two keys with codes, and the sentinel's path beside a code. -/
theorem witness_CodesArePrefixFree : Inv codes2 ∧ codes2.codesValid = true ∧ (codes2.ctAt 0x61).v = true ∧
    (codes2.ctAt 0x62).v = true ∧ (0x61 : Symbol) ≠ 0x62 ∧
    Inv codes1 ∧ codes1.codesValid = true ∧ (codes1.ctAt 0x61).v = true ∧
    followPath codes1.node codes1.root [true] = some 1 ∧ (codes1.nodeAt 1).kind = .sentinel :=
  ⟨codes2_inv, by decide, by decide, by decide, by decide, codes1_inv, by decide, by decide, by decide, by decide⟩

theorem witness_WeightedPathLengthIsInternalSum : Inv codes2 ∧ codes2.codesValid = true := ⟨codes2_inv, by decide⟩

theorem witness_CodesAreOptimal : table2.fault = false ∧ (∃ y : Symbol, (table2.ftAt y).v = true) ∧
    (∀ y : Symbol, (table2.ftAt y).v = true → [y == 0x62] ≠ []) ∧
    (∀ y z : Symbol, (table2.ftAt y).v = true → (table2.ftAt z).v = true → y ≠ z → ¬ [y == 0x62] <+: [z == 0x62]) := by
  refine ⟨by decide, ⟨0x61, by decide⟩, by simp, ?_⟩
  intro y z hy hz hyz
  have key : ∀ y : Symbol, (table2.ftAt y).v = true → y = 0x61 ∨ y = 0x62 := by decide +kernel
  rcases key y hy with rfl | rfl <;> rcases key z hz with rfl | rfl
  · exact absurd rfl hyz
  · decide
  · decide
  · exact absurd rfl hyz

theorem witness_EncSymEmitsTheCode : (codes2.ctAt 0x62).v = true ∧ (codes2.ctAt 0x63).v = false := by decide

theorem witness_PackedBytesHoldTheStream : codes2.pkCnt = 0 ∧ codes2.pkBuf = 0 := by decide

theorem witness_EncodingPassConcatenatesCodes :
    codes2.fault = false ∧ ∀ y ∈ ([0x61, 0x62] : List Symbol), (codes2.ctAt y).v = true := by decide

theorem witness_EncSymNeedsGeneratedCodes : Inv tree2 ∧ tree2.codesValid = false := ⟨tree2_inv, by decide⟩

/-- One state per clause of `DEC_BIT`: no tree, a pointer on a leaf, and a child of each kind. -/
theorem witness_DecBitWalksTheTree :
    State.reset.treeValid = false ∧
    (tree2.treeValid = true ∧ (tree2.nodeAt 0).kind ≠ .internal) ∧
    (tree3.treeValid = true ∧ tree3.decCur.toNat ≤ 510 ∧ (tree3.nodeAt tree3.decCur).kind = .internal ∧
      (tree3.nodeAt (tree3.nodeAt tree3.decCur).right).kind = .internal ∧
      (tree3.nodeAt (tree3.nodeAt tree3.decCur).left).kind = .leaf) ∧
    (tree1.nodeAt (tree1.nodeAt tree1.decCur).right).kind = .sentinel ∧
    (({ tree2 with node := [(2, ⟨.internal, 0, 3, 0, 510⟩)] } : State).nodeAt 510).kind = .free := by decide

/-- A byte that completes and one that faults at its bit 2 (V6, V20). -/
theorem witness_DecByteIsItsBits :
    tree1.fault = false ∧
    (after (runCommands ((highBits 0 4).map .decBit) tree1)).map (fun u => (u.fault, symbolsSince tree1 u))
      = some (false, [0x61, 0x61, 0x61, 0x61]) ∧
    (after (runCommands (((highBits 0x20 8).take 2).map .decBit) tree1)).map State.fault = some false ∧
    ((after (runCommands (((highBits 0x20 8).take 2).map .decBit) tree1)).bind
      (fun u => after (exec (.decBit ((0x20 : Byte).getLsbD (7 - 2))) u))).map State.fault = some true := by
  decide

/-- Two codewords of V25, a codeword ended and the next begun in V14, and every byte of a tree with two leaves. -/
theorem witness_DecByteCompletes :
    (1 ≤ (2 : BitVec 4).toNat ∧ (2 : BitVec 4).toNat ≤ 8 ∧ codes2.treeValid = true) ∧
    decodesTo codes2 codes2.decCur (highBits 0x40 2) [0x61, 0x62] 2 ∧
    decodesTo tree3 tree3.decCur (highBits 0x40 2) [0x63] 3 ∧
    TreeInv codes2 ∧ 2 ≤ codes2.nleaf.toNat ∧ (codes2.nodeAt codes2.decCur).kind = .internal :=
  ⟨by decide,
    ⟨[false], [true], 0, by decide, by decide, by decide, by decide, by decide, by decide,
      [true], [], 1, by decide, by decide, by decide, by decide, by decide, by decide, by decide, by decide, by decide⟩,
    ⟨[false], [true], 2, by decide, by decide, by decide, by decide, by decide, by decide, by decide, by decide, by decide⟩,
    codes2_treeInv, by decide, by decide⟩

/-- One state per clause of `DEC_END`. -/
theorem witness_DecEndChecksInOrder :
    State.reset.treeValid = false ∧ (({ tree3 with decCur := 3 } : State).decCur ≠ tree3.root) ∧
    (tree1.treeValid = true ∧ tree1.decCur = tree1.root ∧ tree1.root.toNat ≤ 510) ∧
    tree1.decSymCnt.toNat ≠ (tree1.nodeAt tree1.root).freq.toNat ∧
    ({ tree1 with decSymCnt := 4 } : State).decSymCnt.toNat = (tree1.nodeAt tree1.root).freq.toNat := by decide

theorem witness_SingleSymbolDecoding : codes1.treeValid = true ∧ TreeInv codes1 ∧ codes1.nleaf.toNat = 1 ∧
    (codes1.nodeAt codes1.decCur).kind = .internal ∧ codes1.decSymCnt ≠ (codes1.nodeAt 0).freq ∧
    ({ codes1 with decSymCnt := 4 } : State).decSymCnt = (codes1.nodeAt 0).freq :=
  ⟨by decide, codes1_treeInv, by decide, by decide, by decide, by decide⟩

theorem witness_DecoderIgnoresTheCodeTable : (after (exec (.decBit true) tree2)).isSome = true
    ∧ Mnemonic.decBit ∈ [Mnemonic.decBit, .decByte, .decEnd] := by decide

/-- Both round trips, with the count check: b, a, b over the exact counts a:1, b:2. -/
theorem witness_RoundTripByBits : ([0x62, 0x61, 0x62] : List Symbol) ≠ [] ∧ table2.fault = false ∧
    (∀ y : Symbol, table2.ftAt y = tree2.ftAt y) ∧ (∀ y ∈ ([0x62, 0x61, 0x62] : List Symbol), (table2.ftAt y).v = true) ∧
    (∀ y : Symbol, (table2.ftAt y).v = decide (y ∈ ([0x62, 0x61, 0x62] : List Symbol))
      ∧ (table2.ftAt y).cnt.toNat = ([0x62, 0x61, 0x62] : List Symbol).count y) :=
  ⟨by decide, by decide, fun _ => rfl, by decide, by decide +kernel⟩

theorem witness_RoundTripByBytes : ([0x62, 0x61, 0x62] : List Symbol) ≠ [] ∧ tree2.fault = false ∧
    (∀ y : Symbol, tree2.ftAt y = table2.ftAt y) ∧ (∀ y ∈ ([0x62, 0x61, 0x62] : List Symbol), (tree2.ftAt y).v = true) ∧
    (∀ y : Symbol, (tree2.ftAt y).v = decide (y ∈ ([0x62, 0x61, 0x62] : List Symbol))
      ∧ (tree2.ftAt y).cnt.toNat = ([0x62, 0x61, 0x62] : List Symbol).count y) :=
  ⟨by decide, by decide, fun _ => rfl, by decide, by decide +kernel⟩

theorem witness_StepKeepsTheInvariant : Inv codes2 ∧ (after (step codes2)).isSome = true := ⟨codes2_inv, by decide⟩

theorem witness_StepNeverStops : Inv codes1 ∧ ({ codes1 with inputs := [.command 0x5000000100000000] } : State).inputs
    = [.command 0x5000000100000000] := ⟨codes1_inv, by decide⟩

theorem witness_StepKeepsMemoriesCanonical : codes2.memWf ∧ (after (step codes2)).isSome = true := by decide

theorem witness_FirstCommandAfterReset : (510 : NodeIdx).toNat ≤ 510 ∧ 1 ≤ (1 : BitVec 4).toNat
    ∧ (8 : BitVec 4).toNat ≤ 8 := by decide

end Sys2Proof.Tests
end

namespace Sys2Proof.Machine

open Sys2Proof.Spec

/-! ### The model's responses and faults in the words of the statements -/

/-- Concatenation is positional: the low word below the high one. -/
theorem toNat_append_eq_add {m n : Nat} (x : BitVec m) (y : BitVec n) :
    (x ++ y).toNat = x.toNat * 2 ^ n + y.toNat := by
  rw [BitVec.toNat_append, ← Nat.shiftLeft_add_eq_or_of_lt y.isLt, Nat.shiftLeft_eq]

/-- The response of R87 as a number: the status above the 56 data bits. -/
theorem responseWord_eq_word (st : BitVec 8) (d : BitVec 56) : responseWord st d = word st.toNat d.toNat := by
  apply BitVec.eq_of_toNat_eq
  have hst := st.isLt
  have hd := d.isLt
  simp only [responseWord, word, toNat_append_eq_add, BitVec.toNat_ofNat]
  omega

theorem respond_eq_answer (s : State) (st : BitVec 8) (d : BitVec 56) :
    s.respond st d = answer s st.toNat d.toNat := by
  rw [answer, ← responseWord_eq_word]
  rfl

theorem aborted_eq_answer (s : State) : aborted s = .next (answer s 8 0) :=
  congrArg Host.Outcome.next (respond_eq_answer s statusAborted 0)

/-- `FAULTINFO` holds the bit index and the fields of the faulting word (60_exceptions.md R182). -/
theorem faultInfoOf_eq_info (k : BitVec 4) (w : Word) :
    faultInfoOf k w = BitVec.ofNat 36
      (info k.toNat (w.toNat / 2 ^ 32 % 2 ^ 16) (w.toNat / 2 ^ 48 % 2 ^ 8) (w.toNat / 2 ^ 56)) := by
  apply BitVec.eq_of_toNat_eq
  have hk := k.isLt
  have hb := (fieldB w).isLt
  have ha := (fieldA w).isLt
  have hop := (fieldOp w).isLt
  rw [← fieldB_toNat, ← fieldA_toNat, ← fieldOp_toNat]
  simp only [faultInfoOf, info, toNat_append_eq_add, BitVec.toNat_ofNat]
  omega

/-- Taking a fault is latching its code and the word, and answering the code (60_exceptions.md R184). -/
theorem raiseFault_eq_latched (s : State) (f : BlockFault) (k : BitVec 4) (w : Word) :
    s.raiseFault f k w = latched s f.code.toNat
      (info k.toNat (w.toNat / 2 ^ 32 % 2 ^ 16) (w.toNat / 2 ^ 48 % 2 ^ 8) (w.toNat / 2 ^ 56)) := by
  rw [latched, ← faultInfoOf_eq_info, BitVec.ofNat_toNat, BitVec.setWidth_eq,
    show word f.code.toNat 0 = responseWord f.code 0 from (responseWord_eq_word f.code 0).symm]
  rfl

/-- The model's set `ALWAYS` is that of R186. -/
theorem runsInFaultState_iff (i : Instr) : runsInFaultState i = true ↔ i.mnemonic ∈ always := by
  cases i <;> simp [runsInFaultState, Instr.mnemonic, always]

/-! ### The step on an accepted word -/

theorem step_command {s : State} {w : Word} {rest : List HostInput} (h : s.inputs = .command w :: rest) :
    step s = acceptWord w { s with inputs := rest } := by
  simp [step, takeInput, h]

theorem acceptWord_exec {w : Word} {i : Instr} {s : State} (hd : decode w = .ok i)
    (hrun : s.fault = false ∨ i.mnemonic ∈ always) : acceptWord w s = exec i s := by
  rw [← runsInFaultState_iff] at hrun
  rcases hrun with h | h <;> simp [acceptWord, hd, h]

theorem acceptWord_aborted {w : Word} {i : Instr} {s : State} (hd : decode w = .ok i) (hf : s.fault = true)
    (hi : i.mnemonic ∉ always) : acceptWord w s = .next (answer s 8 0) := by
  rw [← runsInFaultState_iff] at hi
  simp [acceptWord, hd, hf, hi, aborted_eq_answer]

theorem acceptWord_illegal_aborted {w : Word} {e : Illegal} {s : State} (hd : decode w = .error e)
    (hf : s.fault = true) : acceptWord w s = .next (answer s 8 0) := by
  simp [acceptWord, hd, hf, aborted_eq_answer]

theorem acceptWord_illegal_raises {w : Word} {e : Illegal} {s : State} (hd : decode w = .error e)
    (hf : s.fault = false) :
    acceptWord w s = .next (latched s 7
      (info 0 (w.toNat / 2 ^ 32 % 2 ^ 16) (w.toNat / 2 ^ 48 % 2 ^ 8) (w.toNat / 2 ^ 56))) := by
  simp only [acceptWord, hd, hf, raised, raiseFault_eq_latched]
  rfl

/-- Settles O5: the step accepts the word at the head of the host's moves, and each of R16's four branches is one lemma
about `acceptWord`. -/
theorem stepRunsDecodedCommand : Obligations.StepRunsDecodedCommand := by
  intro s w rest hin
  rw [step_command hin]
  exact ⟨fun _ hd hrun => acceptWord_exec hd hrun, fun _ hd hf hi => acceptWord_aborted hd hf hi,
    fun _ hd hf => acceptWord_illegal_aborted hd hf, fun _ hd hf => acceptWord_illegal_raises hd hf⟩

end Sys2Proof.Machine

namespace Sys2Proof.Machine

/-! ### One response, after the data beats (30_encoding.md R87; 20_memory.md R74) -/

/-- Between `s` and `t` only data beats were emitted, no response. -/
def State.emitsData (s t : State) : Prop := ∃ bs, t.beats = s.beats ++ bs ∧ ∀ r, Beat.rsp r ∉ bs

theorem State.emitsData_of_beats {s t : State} (h : t.beats = s.beats) : s.emitsData t :=
  ⟨[], by simp [h], by simp⟩

theorem State.emitsData_trans {s t u : State} : s.emitsData t → t.emitsData u → s.emitsData u := by
  rintro ⟨bs, hbs, hrsp⟩ ⟨bs', hbs', hrsp'⟩
  exact ⟨bs ++ bs', by simp [hbs, hbs'], fun r => by simp [hrsp r, hrsp' r]⟩

theorem State.emitsData_emitBit (s : State) (x : Bool) : s.emitsData (s.emitBit x) := by
  rcases s.emitBit_cases x with ⟨-, h⟩ | ⟨-, h⟩ <;> rw [h]
  · exact ⟨_, rfl, by simp⟩
  · exact ⟨_, rfl, by simp⟩

theorem State.emitsData_emitBits (s : State) (l : List Bool) : s.emitsData (s.emitBits l) := by
  induction l generalizing s with
  | nil => exact State.emitsData_of_beats rfl
  | cons x l ih => exact State.emitsData_trans (s.emitsData_emitBit x) (ih _)

theorem State.emitsData_decBit {x : Bool} {s u : State} {e : Option Symbol} (h : decBit x s = .moved u e) :
    s.emitsData u := by
  rcases decBit_cases x s with ⟨-, hd⟩ | ⟨-, -, hd⟩ | ⟨n, -, -, ⟨-, hd⟩ | ⟨-, -, hd⟩ | ⟨c, -, -, hc⟩⟩
  · simp [hd] at h
  · simp [hd] at h
  · simp [hd] at h
  · simp [hd] at h
  · rcases hc with ⟨-, hd⟩ | ⟨-, hd⟩ | ⟨-, hd⟩ | ⟨-, hd⟩ <;> rw [hd] at h <;> cases h
    · exact State.emitsData_of_beats rfl
    · exact ⟨[.sym c.sym], rfl, by simp⟩

theorem State.beats_of_sameOutsideTree {s t : State} (h : s.sameOutsideTree t) : t.beats = s.beats := by
  unfold State.sameOutsideTree at h
  rw [h]

/-- If the outcome is a next state, it has the beats of `s`, then data beats, then one response of a status of R88, its data 0
unless the status is `OK`. -/
def answersOnce (s : State) (o : Host.Outcome State Fault Refusal) : Prop :=
  ∀ t, o = .next t → ∃ bs st d, t.beats = s.beats ++ bs ++ [.rsp (responseWord st d)] ∧ (∀ r, Beat.rsp r ∉ bs) ∧
    st.toNat ≤ 8 ∧ (st ≠ statusOk → d = 0)

theorem answersOnce_respond {s u : State} {st : BitVec 8} {d : BitVec 56} (h : s.emitsData u) (hst : st.toNat ≤ 8)
    (hd : st ≠ statusOk → d = 0) : answersOnce s (.next (u.respond st d)) := by
  rintro t ⟨⟩
  obtain ⟨bs, hbs, hrsp⟩ := h
  exact ⟨bs, st, d, by simp [hbs], hrsp, hst, hd⟩

theorem answersOnce_succeed {s u : State} (h : s.emitsData u) (d : BitVec 56) : answersOnce s (succeed u d) :=
  answersOnce_respond h (by decide) (fun hne => absurd rfl hne)

theorem answersOnce_raised {s u : State} (h : s.emitsData u) (f : BlockFault) (k : BitVec 4) (w : Word) :
    answersOnce s (raised u f k w) :=
  answersOnce_respond (u := { u with fault := true, err := f.code, faultInfo := faultInfoOf k w }) h
    (by cases f <;> decide) (fun _ => rfl)

theorem answersOnce_aborted (s : State) : answersOnce s (aborted s) :=
  answersOnce_respond (State.emitsData_of_beats rfl) (by decide) (fun _ => rfl)

theorem answersOnce_fault (s : State) (f : Fault) : answersOnce s (.fault f) := by
  rintro t ⟨⟩

theorem answersOnce_execFaSym (y : Symbol) (s : State) : answersOnce s (execFaSym y s) := by
  unfold execFaSym
  split
  · exact answersOnce_raised (State.emitsData_of_beats rfl) _ _ _
  · exact answersOnce_succeed (State.emitsData_of_beats rfl) _

theorem answersOnce_execTbBuild (s : State) : answersOnce s (execTbBuild s) := by
  unfold execTbBuild
  have hscan : s.clearDerived.scanTable.beats = s.clearDerived.beats :=
    State.beats_of_sameOutsideTree s.clearDerived.sameOutsideTree_scanTable
  have hbuild := State.beats_of_sameOutsideTree s.clearDerived.scanTable.sameOutsideTree_buildTree
  dsimp only
  split
  · exact answersOnce_raised (State.emitsData_of_beats hscan) _ _ _
  · exact answersOnce_succeed (State.emitsData_of_beats (hbuild.trans hscan)) _

theorem answersOnce_execNdInfo (i : NodeIdx) (s : State) : answersOnce s (execNdInfo i s) := by
  unfold execNdInfo
  split
  · exact answersOnce_succeed (State.emitsData_of_beats rfl) _
  · exact answersOnce_fault _ _

theorem answersOnce_execNdFreq (i : NodeIdx) (s : State) : answersOnce s (execNdFreq i s) := by
  unfold execNdFreq
  split
  · exact answersOnce_succeed (State.emitsData_of_beats rfl) _
  · exact answersOnce_fault _ _

theorem answersOnce_execCtGen (s : State) : answersOnce s (execCtGen s) := by
  unfold execCtGen
  split
  · split
    · exact answersOnce_succeed (State.emitsData_of_beats rfl) _
    · exact answersOnce_raised (State.emitsData_of_beats rfl) _ _ _
    · exact answersOnce_fault _ _
  · exact answersOnce_raised (State.emitsData_of_beats rfl) _ _ _

theorem answersOnce_execEncSym (y : Symbol) (s : State) : answersOnce s (execEncSym y s) := by
  unfold execEncSym
  dsimp only
  split
  · have hbits := s.emitsData_emitBits (s.ctAt y).code
    refine answersOnce_succeed (State.emitsData_trans hbits ?_) _
    exact State.emitsData_of_beats rfl
  · exact answersOnce_raised (State.emitsData_of_beats rfl) _ _ _

theorem answersOnce_execEncFlush (s : State) : answersOnce s (execEncFlush s) := by
  unfold execEncFlush
  dsimp only
  split
  · exact answersOnce_succeed (State.emitsData_of_beats rfl) _
  · exact answersOnce_succeed ⟨[.byte (s.pkBuf <<< s.padCount)], rfl, by simp⟩ _

theorem answersOnce_execDecBit (x : Bool) (s : State) : answersOnce s (execDecBit x s) := by
  unfold execDecBit
  split
  · next h => exact answersOnce_succeed (State.emitsData_decBit h) _
  · next h => exact answersOnce_succeed (State.emitsData_decBit h) _
  · exact answersOnce_raised (State.emitsData_of_beats rfl) _ _ _
  · exact answersOnce_fault _ _

/-- The loop of `DEC_BYTE` may stand behind data beats already emitted. -/
theorem answersOnce_decBits (w : Word) (l : List Bool) (i k : Nat) {s u : State} (h : s.emitsData u) :
    answersOnce s (decBits w l i k u) := by
  induction l generalizing i k u with
  | nil => exact answersOnce_succeed h _
  | cons x l ih =>
    unfold decBits
    split
    · next hd => exact ih _ _ (State.emitsData_trans h (State.emitsData_decBit hd))
    · next hd => exact ih _ _ (State.emitsData_trans h (State.emitsData_decBit hd))
    · exact answersOnce_raised h _ _ _
    · exact answersOnce_fault _ _

theorem answersOnce_execDecEnd (f : Bool) (s : State) : answersOnce s (execDecEnd f s) := by
  have hraised (g : BlockFault) : answersOnce s (raised s g 0 (encode (.decEnd f))) :=
    answersOnce_raised (State.emitsData_of_beats rfl) _ _ _
  have hok : answersOnce s (succeed { s with decSymCnt := 0 } (s.decSymCnt.setWidth 56)) :=
    answersOnce_succeed (State.emitsData_of_beats rfl) _
  unfold execDecEnd
  split
  · split
    · split
      · split
        · exact answersOnce_fault _ _
        · split
          · exact hok
          · exact hraised _
      · exact hok
    · exact hraised _
  · exact hraised _

/-- Every command, from every state, that completes appends its one response after its data beats. -/
theorem answersOnce_exec (i : Instr) (s : State) : answersOnce s (exec i s) := by
  have hsame (u : State) (h : u.beats = s.beats) (d : BitVec 56) : answersOnce s (succeed u d) :=
    answersOnce_succeed (State.emitsData_of_beats h) d
  cases i with
  | nop => exact hsame s rfl _
  | clr => exact hsame s.clearSession rfl _
  | rdreg r => exact hsame s rfl _
  | faSym y => exact answersOnce_execFaSym y s
  | ftSet y c => exact hsame (s.setFt y ⟨true, c⟩) rfl _
  | ftRd y => exact hsame s rfl _
  | tbBuild => exact answersOnce_execTbBuild s
  | ndInfo n => exact answersOnce_execNdInfo n s
  | ndFreq n => exact answersOnce_execNdFreq n s
  | ctGen => exact answersOnce_execCtGen s
  | ctLen y => exact hsame s rfl _
  | ctBits y k => exact hsame s rfl _
  | encSym y => exact answersOnce_execEncSym y s
  | encFlush => exact answersOnce_execEncFlush s
  | decBit x => exact answersOnce_execDecBit x s
  | decByte y n => exact answersOnce_decBits _ _ _ _ (State.emitsData_of_beats rfl)
  | decEnd f => exact answersOnce_execDecEnd f s

/-- Every accepted word, legal or not, that is carried out appends its one response after its data beats. -/
theorem answersOnce_acceptWord (w : Word) (s : State) : answersOnce s (acceptWord w s) := by
  rcases acceptWord_cases w s with ⟨-, -, h⟩ | ⟨-, -, h⟩ | ⟨i, -, -, h⟩ <;> rw [h]
  · exact answersOnce_aborted s
  · exact answersOnce_raised (State.emitsData_of_beats rfl) _ _ _
  · exact answersOnce_exec i s

theorem answersOnce_rspTrace {s t : State} {o : Host.Outcome State Fault Refusal} (ho : answersOnce s o)
    (ht : o = .next t) : ∃ r, t.rspTrace = s.rspTrace ++ [r] := by
  obtain ⟨bs, st, d, hbeats, hrsp, -, -⟩ := ho t ht
  refine ⟨responseWord st d, ?_⟩
  simp only [State.rspTrace, hbeats, List.filterMap_append, List.append_assoc, List.filterMap_cons, List.filterMap_nil,
    List.append_cancel_left_eq, List.append_left_eq_self, List.filterMap_eq_nil_iff]
  intro b hb
  cases b with
  | rsp r => exact absurd hb (hrsp r)
  | bit x | byte y | sym y => rfl

end Sys2Proof.Machine

namespace Sys2Proof.Machine

/-! ### Records of a tree -/

/-- The root, the last record, lies at most 255 internal records above the last leaf. -/
theorem TreeInv.root_bounds {s : State} (h : TreeInv s) :
    s.nleaf.toNat - 1 ≤ s.root.toNat ∧ s.root.toNat ≤ s.nleaf.toNat - 1 + 255 := by
  obtain ⟨hlo, hhi⟩ := h.leafRange
  obtain ⟨hlast, -⟩ := h.rootLast
  rcases Nat.lt_or_ge s.nleaf.toNat 2 with hone | hmany
  · obtain ⟨hsize, -, -⟩ := h.sizeOne (by omega)
    omega
  · have hsize := h.sizeMany hmany
    omega

theorem TreeInv.nnode_le {s : State} (h : TreeInv s) : s.nnode.toNat ≤ 511 := by
  obtain ⟨-, hleaves⟩ := h.leafRange
  obtain ⟨-, hroot⟩ := h.root_bounds
  obtain ⟨hlast, -⟩ := h.rootLast
  omega

theorem TreeInv.nodeRec?_eq {s : State} (h : TreeInv s) {i : NodeIdx} (hi : i.toNat < s.nnode.toNat) :
    nodeRec? s.node i = some (s.nodeAt i) :=
  nodeRec?_of_lt _ _ (Nat.lt_of_lt_of_le hi h.nnode_le)

theorem TreeInv.lt_of_internal {s : State} (h : TreeInv s) {i : NodeIdx} (hi : (s.nodeAt i).kind = .internal) :
    i.toNat < s.nnode.toNat :=
  (h.allocated i).1 (by simp [hi])

theorem TreeInv.child_lt {s : State} (h : TreeInv s) {i j : NodeIdx} {x : Bool} (hc : s.isChild i x j) :
    j.toNat < i.toNat := by
  obtain ⟨hi, rfl⟩ := hc
  obtain ⟨hl, hr, -⟩ := h.childBelow i hi
  cases x <;> assumption

/-- An edge is known by the node it leads to (10_state.md R50 item 4). -/
theorem TreeInv.parent_unique {s : State} (h : TreeInv s) {i i' j : NodeIdx} {x x' : Bool} (hc : s.isChild i x j)
    (hc' : s.isChild i' x' j) : i = i' ∧ x = x' := by
  have hj := h.child_lt hc
  have hi := h.lt_of_internal hc.1
  have hne : j ≠ s.root := by
    rintro rfl
    obtain ⟨hlast, -⟩ := h.rootLast
    omega
  obtain ⟨p, z, -, huniq⟩ := h.oneParent j (by omega) hne
  obtain ⟨rfl, rfl⟩ := huniq i x hc
  obtain ⟨rfl, rfl⟩ := huniq i' x' hc'
  exact ⟨rfl, rfl⟩

/-- A tree lies in the arena, the sizes and the root alone. -/
theorem TreeInv.of_same_tree {s t : State} (h : TreeInv s) (hnode : t.node = s.node) (hnnode : t.nnode = s.nnode)
    (hnleaf : t.nleaf = s.nleaf) (hroot : t.root = s.root) : TreeInv t := by
  cases s; cases t
  dsimp only at hnode hnnode hnleaf hroot
  subst hnode hnnode hnleaf hroot
  exact { h with }

/-! ### The decoder (45_decoder.md R162) -/

/-- What the decoder needs not to stop: with a tree, its pointer stands on an internal node of it (10_state.md R52). -/
def State.decoderSafe (s : State) : Prop :=
  s.treeValid = true → TreeInv s ∧ (s.nodeAt s.decCur).kind = .internal

theorem Inv.decoderSafe {s : State} (h : Inv s) : s.decoderSafe := by
  intro hv
  obtain ⟨htree, -, hcur⟩ := h.tree hv
  exact ⟨htree, hcur⟩

/-- One bit never leads the decoder to an absent record, and keeps it on the tree. -/
theorem decBit_of_decoderSafe {s : State} (h : s.decoderSafe) (x : Bool) :
    (∃ u e, decBit x s = .moved u e ∧ u.decoderSafe) ∨ ∃ f, decBit x s = .raises f := by
  rcases decBit_cases x s with ⟨-, hd⟩ | ⟨hv, hnone, -⟩ | ⟨n, hv, hn, hcases⟩
  · exact .inr ⟨_, hd⟩
  · obtain ⟨htree, hcur⟩ := h hv
    simp [htree.nodeRec?_eq (htree.lt_of_internal hcur)] at hnone
  · obtain ⟨htree, hcur⟩ := h hv
    obtain rfl : s.nodeAt s.decCur = n := by
      simpa [htree.nodeRec?_eq (htree.lt_of_internal hcur)] using hn
    have hchild : nodeRec? s.node ((s.nodeAt s.decCur).child x) = some (s.nodeAt ((s.nodeAt s.decCur).child x)) :=
      htree.nodeRec?_eq (Nat.lt_trans (htree.child_lt ⟨hcur, rfl⟩) (htree.lt_of_internal hcur))
    rcases hcases with ⟨hne, -⟩ | ⟨-, hnone, -⟩ | ⟨c, -, hc, hmove⟩
    · exact absurd hcur hne
    · simp [hchild] at hnone
    · obtain rfl : s.nodeAt ((s.nodeAt s.decCur).child x) = c := by simpa [hchild] using hc
      rcases hmove with ⟨hk, hd⟩ | ⟨-, hd⟩ | ⟨-, hd⟩ | ⟨-, hd⟩
      · exact .inl ⟨_, _, hd, fun _ => ⟨htree.of_same_tree rfl rfl rfl rfl, hk⟩⟩
      · exact .inl ⟨_, _, hd, fun _ => ⟨htree.of_same_tree rfl rfl rfl rfl, htree.rootLast.2⟩⟩
      · exact .inr ⟨_, hd⟩
      · exact .inr ⟨_, hd⟩

theorem execDecBit_completes {s : State} (h : s.decoderSafe) (x : Bool) : ∃ t, execDecBit x s = .next t := by
  unfold execDecBit
  rcases decBit_of_decoderSafe h x with ⟨u, _ | y, hd, -⟩ | ⟨f, hd⟩ <;> rw [hd]
  · exact ⟨_, rfl⟩
  · exact ⟨_, rfl⟩
  · exact ⟨_, rfl⟩

theorem decBits_completes (w : Word) (l : List Bool) (i k : Nat) {s : State} (h : s.decoderSafe) :
    ∃ t, decBits w l i k s = .next t := by
  induction l generalizing i k s with
  | nil => exact ⟨_, rfl⟩
  | cons x l ih =>
    unfold decBits
    rcases decBit_of_decoderSafe h x with ⟨u, _ | y, hd, hu⟩ | ⟨f, hd⟩ <;> rw [hd]
    · exact ih _ _ hu
    · exact ih _ _ hu
    · exact ⟨_, rfl⟩

theorem execDecEnd_completes {s : State} (h : s.decoderSafe) (f : Bool) : ∃ t, execDecEnd f s = .next t := by
  unfold execDecEnd
  split
  · next hv =>
    obtain ⟨htree, -⟩ := h hv
    rw [htree.nodeRec?_eq (htree.lt_of_internal htree.rootLast.2)]
    dsimp only
    split_ifs <;> exact ⟨_, rfl⟩
  · exact ⟨_, rfl⟩

/-! ### The walk of `CT_GEN` (43_code_table.md R141, R142) -/

/-- What the walk keeps: `visited` holds the nodes popped so far and `gs` is its stack. The nodes popped or stacked are distinct,
and a node is stacked only once its parent is popped, so the walk pops each record at most once; and every edge of a path goes to
a lower record, the internal ones being those from `NLEAF` up, so no path outgrows a code. -/
structure WalkInv (s : State) (visited : List NodeIdx) (gs : List WalkEntry) : Prop where
  distinct : (visited ++ gs.map WalkEntry.node).Nodup
  allocated : ∀ i ∈ visited ++ gs.map WalkEntry.node, i.toNat < s.nnode.toNat
  parentVisited : ∀ i x j, s.isChild i x j → j ∈ visited ++ gs.map WalkEntry.node → i ∈ visited
  depth : ∀ e ∈ gs, e.path.length + max e.node.toNat (s.nleaf.toNat - 1) ≤ s.root.toNat

theorem WalkInv.start {s : State} (h : TreeInv s) : WalkInv s [] [⟨s.root, []⟩] := by
  obtain ⟨hlast, -⟩ := h.rootLast
  obtain ⟨hleaf, -⟩ := h.root_bounds
  constructor
  · simp
  · simp; omega
  · intro i x j hc hj
    obtain rfl : j = s.root := by simpa using hj
    have hlt := h.child_lt hc
    have hi := h.lt_of_internal hc.1
    omega
  · simpa using hleaf

/-- The walk has iterations left for every node on the stack. -/
theorem WalkInv.length_le {s : State} (h : TreeInv s) {v : List NodeIdx} {gs : List WalkEntry} (hw : WalkInv s v gs) :
    v.length + gs.length ≤ 511 := by
  have hnodup : ((v ++ gs.map WalkEntry.node).map BitVec.toNat).Nodup :=
    hw.distinct.map BitVec.toNat_injective
  have hsub : ((v ++ gs.map WalkEntry.node).map BitVec.toNat) ⊆ List.range 511 := by
    intro k hk
    obtain ⟨i, hi, rfl⟩ := List.mem_map.1 hk
    exact List.mem_range.2 (Nat.lt_of_lt_of_le (hw.allocated i hi) h.nnode_le)
  simpa using (hnodup.subperm hsub).length_le

/-- A popped node with no children leaves the rest of the stack. -/
theorem WalkInv.pop {s : State} {v : List NodeIdx} {e : WalkEntry} {gs : List WalkEntry} (hw : WalkInv s v (e :: gs)) :
    WalkInv s (e.node :: v) gs := by
  have hperm : (v ++ (e :: gs).map WalkEntry.node).Perm (e.node :: v ++ gs.map WalkEntry.node) := List.perm_middle
  constructor
  · exact hperm.nodup_iff.1 hw.distinct
  · exact fun i hi => hw.allocated i (hperm.mem_iff.2 hi)
  · exact fun i x j hc hj => List.mem_cons_of_mem _ (hw.parentVisited i x j hc (hperm.mem_iff.2 hj))
  · exact fun e' he => hw.depth e' (List.mem_cons_of_mem _ he)

/-- A child of a popped node, found for the first time, goes on the stack. -/
theorem WalkInv.stack {s : State} (h : TreeInv s) {v : List NodeIdx} {e : WalkEntry} {gs : List WalkEntry} {i : NodeIdx}
    {x : Bool} (hw : WalkInv s v gs) (hi : i ∈ v) (hc : s.isChild i x e.node) (hnew : e.node ∉ v ++ gs.map WalkEntry.node)
    (hdepth : e.path.length + max e.node.toNat (s.nleaf.toNat - 1) ≤ s.root.toNat) : WalkInv s v (e :: gs) := by
  have hperm : (v ++ (e :: gs).map WalkEntry.node).Perm (e.node :: (v ++ gs.map WalkEntry.node)) := List.perm_middle
  constructor
  · exact hperm.nodup_iff.2 (List.nodup_cons.2 ⟨hnew, hw.distinct⟩)
  · intro j hj
    rcases List.mem_cons.1 (hperm.mem_iff.1 hj) with rfl | hj
    · exact Nat.lt_trans (h.child_lt hc) (h.lt_of_internal hc.1)
    · exact hw.allocated j hj
  · intro i' x' j hc' hj
    rcases List.mem_cons.1 (hperm.mem_iff.1 hj) with rfl | hj
    · obtain ⟨rfl, -⟩ := h.parent_unique hc hc'
      exact hi
    · exact hw.parentVisited i' x' j hc' hj
  · exact List.forall_mem_cons.2 ⟨hdepth, hw.depth⟩

/-- A popped internal node puts its two children on the stack. -/
theorem WalkInv.push {s : State} (h : TreeInv s) {v : List NodeIdx} {e : WalkEntry} {gs : List WalkEntry}
    (hw : WalkInv s v (e :: gs)) (hk : (s.nodeAt e.node).kind = .internal) :
    WalkInv s (e.node :: v)
      (⟨(s.nodeAt e.node).left, e.path ++ [false]⟩ :: ⟨(s.nodeAt e.node).right, e.path ++ [true]⟩ :: gs) := by
  have hleft : s.isChild e.node false (s.nodeAt e.node).left := ⟨hk, rfl⟩
  have hright : s.isChild e.node true (s.nodeAt e.node).right := ⟨hk, rfl⟩
  have hdisj : e.node ∉ v := fun hv => List.disjoint_of_nodup_append hw.distinct hv (by simp)
  have hnew (x : Bool) (j : NodeIdx) (hc : s.isChild e.node x j) : j ∉ e.node :: v ++ gs.map WalkEntry.node :=
    fun hj => hdisj (hw.parentVisited _ _ _ hc (List.perm_middle.mem_iff.2 hj))
  have hne : (s.nodeAt e.node).left ≠ (s.nodeAt e.node).right := by
    intro heq
    obtain ⟨-, hx⟩ := h.parent_unique hleft (heq ▸ hright)
    cases hx
  have hdepth (x y : Bool) (j : NodeIdx) (hc : s.isChild e.node x j) :
      (e.path ++ [y]).length + max j.toNat (s.nleaf.toNat - 1) ≤ s.root.toNat := by
    have hlt := h.child_lt hc
    have hinner : ¬ e.node.toNat < s.nleaf.toNat := fun hl => by simp [(h.leafPlace _).2 hl] at hk
    have hpath := hw.depth e (by simp)
    rw [List.length_append, List.length_singleton]
    omega
  have hstacked := hw.pop.stack (e := ⟨_, e.path ++ [true]⟩) h (by simp) hright (hnew _ _ hright) (hdepth _ _ _ hright)
  refine hstacked.stack h (by simp) hleft ?_ (hdepth _ _ _ hleft)
  intro hmem
  rcases List.mem_cons.1 (List.perm_middle.mem_iff.1 hmem) with heq | hmem
  · exact hne heq
  · exact hnew _ _ hleft hmem

/-- A path on the stack fits the 255 bits of a code. -/
theorem WalkInv.path_le {s : State} (h : TreeInv s) {v : List NodeIdx} {e : WalkEntry} {gs : List WalkEntry}
    (hw : WalkInv s v (e :: gs)) : e.path.length ≤ 255 := by
  have hdepth := hw.depth e (by simp)
  obtain ⟨-, hroot⟩ := h.root_bounds
  omega

/-- With an iteration for each record not yet popped the walk runs to its end. -/
theorem walk_completes {s : State} (h : TreeInv s) (k : Nat) (v : List NodeIdx) (gs : List WalkEntry)
    (ct : List (Nat × CtEntry)) (hw : WalkInv s v gs) (hk : v.length + k = 511) :
    ∃ ct', walk s.node k gs ct = .done ct' := by
  induction k generalizing v gs ct with
  | zero =>
    cases gs with
    | nil => exact ⟨ct, rfl⟩
    | cons e gs =>
      have hlen := hw.length_le h
      simp only [List.length_cons] at hlen
      omega
  | succ k ih =>
    cases gs with
    | nil => exact ⟨ct, rfl⟩
    | cons e gs =>
      have hlt : e.node.toNat < s.nnode.toNat := hw.allocated _ (by simp)
      have hk' : (e.node :: v).length + k = 511 := by
        rw [List.length_cons]
        omega
      unfold walk
      rw [h.nodeRec?_eq hlt]
      dsimp only
      split
      · rw [if_pos (show e.path.length ≤ Config.codeMax from hw.path_le h)]
        exact ih _ _ _ hw.pop hk'
      · exact ih _ _ _ hw.pop hk'
      · next hint => exact ih _ _ _ (hw.push h hint) hk'
      · next hfree => exact absurd hfree ((h.allocated _).2 hlt)

theorem execCtGen_completes {s : State} (h : s.treeValid = true → TreeInv s) : ∃ t, execCtGen s = .next t := by
  unfold execCtGen
  split
  · next hv =>
    obtain ⟨ct, hct⟩ := walk_completes (h hv) 511 [] _ [] (WalkInv.start (h hv)) rfl
    rw [show Config.nNodeMax = 511 from rfl, hct]
    exact ⟨_, rfl⟩
  · exact ⟨_, rfl⟩

/-! ### Every command completes -/

/-- A decoded command has legal operands (30_encoding.md R84, R85). -/
theorem wf_of_decode {w : Word} {i : Instr} (h : decode w = .ok i) : i.wf = true := by
  obtain ⟨m, -, -, hd⟩ := (decode_ok_iff w i).1 h
  cases m <;> simp only [decodeOperands] at hd
  case rdreg => split at hd <;> cases hd; rfl
  case ftSet =>
    split at hd <;> cases hd
    next hc => simpa [Instr.wf] using hc
  case ndInfo | ndFreq =>
    split at hd <;> cases hd
    next hi =>
      simp only [Instr.wf, decide_eq_true_eq, BitVec.toNat_setWidth]
      omega
  case decByte =>
    split at hd <;> cases hd
    next hn =>
      simp only [Instr.wf, decide_eq_true_eq, BitVec.toNat_setWidth]
      omega
  all_goals (cases hd; rfl)

theorem exec_completes {s : State} (h : Inv s) {i : Instr} (hi : i.wf = true) : ∃ t, exec i s = .next t := by
  cases i with
  | nop | clr | rdreg r | ftSet y c | ftRd y | ctLen y | ctBits y k | encFlush => exact ⟨_, rfl⟩
  | faSym y =>
    simp only [exec, execFaSym]
    split <;> exact ⟨_, rfl⟩
  | tbBuild =>
    simp only [exec, execTbBuild]
    split <;> exact ⟨_, rfl⟩
  | ndInfo n =>
    have hn : n.toNat < 511 := Nat.lt_succ_of_le (by simpa [Instr.wf] using hi)
    exact ⟨_, by simp only [exec, execNdInfo, nodeRec?_of_lt _ _ hn]; rfl⟩
  | ndFreq n =>
    have hn : n.toNat < 511 := Nat.lt_succ_of_le (by simpa [Instr.wf] using hi)
    exact ⟨_, by simp only [exec, execNdFreq, nodeRec?_of_lt _ _ hn]; rfl⟩
  | ctGen => exact execCtGen_completes fun hv => (h.decoderSafe hv).1
  | encSym y =>
    simp only [exec, execEncSym]
    split <;> exact ⟨_, rfl⟩
  | decBit x => exact execDecBit_completes h.decoderSafe x
  | decByte y n => exact decBits_completes _ _ _ _ h.decoderSafe
  | decEnd f => exact execDecEnd_completes h.decoderSafe f

/-- The host's pending moves are no part of the invariant. -/
theorem Inv.withInputs {s : State} (h : Inv s) (moves : List HostInput) : Inv { s with inputs := moves } where
  memories := h.memories
  table := h.table
  tree := fun hv => by
    obtain ⟨htree, hrest⟩ := h.tree hv
    exact ⟨htree.of_same_tree rfl rfl rfl rfl, hrest⟩
  noTree := fun hv => { h.noTree hv with }
  codes := fun hv => { h.codes hv with }
  noCodes := h.noCodes
  packerBits := h.packerBits
  packerCount := h.packerCount
  noFault := h.noFault
  faultCode := h.faultCode

theorem acceptWord_completes {s : State} (h : Inv s) (w : Word) : ∃ t, acceptWord w s = .next t := by
  rcases acceptWord_cases w s with ⟨-, -, hacc⟩ | ⟨-, -, hacc⟩ | ⟨i, hd, -, hacc⟩ <;> rw [hacc]
  · exact ⟨_, rfl⟩
  · exact ⟨_, rfl⟩
  · exact exec_completes h (wf_of_decode hd)

/-- Settles O51: an idle step and `RST` always complete; an accepted word completes because in the invariant's states the walk of
`CT_GEN` ends within its bounds and the decoder stays on the tree, and whatever completes answers once. -/
theorem stepNeverStops : Obligations.StepNeverStops := by
  intro s hinv
  rcases step_cases s with ⟨hin, hstep⟩ | ⟨rest, hin, hstep⟩ | ⟨w, rest, hin, hstep⟩
  · exact ⟨_, hstep, by simp [hin]⟩
  · exact ⟨_, hstep, by simp [hin]⟩
  · obtain ⟨t, ht⟩ := acceptWord_completes (hinv.withInputs rest) w
    obtain ⟨r, hr⟩ := answersOnce_rspTrace (answersOnce_acceptWord w _) ht
    exact ⟨t, hstep.trans ht, fun _ _ _ => ⟨r, hr⟩⟩

end Sys2Proof.Machine

namespace Sys2Proof.Machine

/-! ### A record more in the arena (10_state.md R26) -/

theorem FtEntry.cnt_le (e : FtEntry) : e.cnt.toNat ≤ Config.countMax := Nat.le_pred_of_lt e.cnt.isLt

theorem State.pqInsert_perm (s : State) (i : NodeIdx) : (s.pqInsert i).pq.Perm (i :: s.pq) := by
  unfold State.pqInsert
  exact List.perm_middle.trans ((List.perm_cons i).2 (by rw [List.take_append_drop]))

theorem State.nextIdx_toNat {s : State} (h : s.nnode.toNat ≤ 510) : s.nextIdx.toNat = s.nnode.toNat := by
  rw [State.nextIdx, BitVec.toNat_setWidth]
  omega

/-- The arena of `t` is that of `s` with one record more, `n`, at the first free index. -/
structure State.growsBy (s t : State) (n : NodeRec) : Prop where
  room : s.nnode.toNat ≤ 510
  nodeAt : ∀ j, t.nodeAt j = if s.nextIdx = j then n else s.nodeAt j
  nnode : t.nnode.toNat = s.nnode.toNat + 1

theorem State.growsBy_of_alloc {s t : State} {n : NodeRec} (hs : s.nnode.toNat ≤ 510)
    (hnode : t.node = (s.allocNode n).node) (hnnode : t.nnode = (s.allocNode n).nnode) : s.growsBy t n where
  room := hs
  nodeAt j := by
    rw [← State.nodeAt_allocNode, State.nodeAt, hnode]
    rfl
  nnode := by
    rw [hnnode, State.allocNode_nnode]
    bv_omega

theorem State.allocNode_arena {s : State} (hs : s.nnode.toNat ≤ 510) (h : Memory.wf 511 NodeRec.empty s.node)
    (n : NodeRec) : Memory.wf 511 NodeRec.empty (s.allocNode n).node :=
  Memory.write_wf _ _ _ _ _ (Nat.lt_of_le_of_lt (State.nextIdx_toNat hs).le (Nat.lt_succ_of_le hs)) h

section
variable {s t : State} {n : NodeRec} (h : s.growsBy t n)
include h

theorem State.growsBy.nodeAt_new : t.nodeAt s.nextIdx = n := by
  rw [h.nodeAt, if_pos rfl]

theorem State.growsBy.nodeAt_old {j : NodeIdx} (hj : j ≠ s.nextIdx) : t.nodeAt j = s.nodeAt j := by
  rw [h.nodeAt, if_neg (Ne.symm hj)]

theorem State.growsBy.eq_or_nodeAt (j : NodeIdx) :
    (j = s.nextIdx ∧ j.toNat = s.nnode.toNat ∧ t.nodeAt j = n) ∨
      (j ≠ s.nextIdx ∧ j.toNat ≠ s.nnode.toNat ∧ t.nodeAt j = s.nodeAt j) := by
  have hr := State.nextIdx_toNat h.room
  by_cases hj : j = s.nextIdx
  · subst hj
    exact .inl ⟨rfl, hr, h.nodeAt_new⟩
  · exact .inr ⟨hj, fun he => hj (BitVec.eq_of_toNat_eq (he.trans hr.symm)), h.nodeAt_old hj⟩

theorem State.growsBy.nodeAt_of_lt {j : NodeIdx} (hj : j.toNat < s.nnode.toNat) : t.nodeAt j = s.nodeAt j := by
  rcases h.eq_or_nodeAt j with ⟨-, he, -⟩ | ⟨-, -, he⟩
  · omega
  · exact he

end

/-! ### The records below `NNODE` while the tree is built -/

/-- The records of a tree without a sentinel: leaves in ascending order of symbol, then internal records, each above its
children (10_state.md R24, R50). -/
structure Records (s : State) : Prop where
  leaves_le : s.nleaf.toNat ≤ s.nnode.toNat
  kinds : ∀ i : NodeIdx, (s.nodeAt i).kind =
    if i.toNat < s.nleaf.toNat then .leaf else if i.toNat < s.nnode.toNat then .internal else .free
  leafOrder : ∀ i j : NodeIdx, i.toNat < j.toNat → j.toNat < s.nleaf.toNat →
    (s.nodeAt i).sym.toNat < (s.nodeAt j).sym.toNat
  leafFields : ∀ i : NodeIdx, (s.nodeAt i).kind = .leaf →
    (s.nodeAt i).left = 0 ∧ (s.nodeAt i).right = 0 ∧ (s.nodeAt i).freq.toNat ≤ Config.countMax
  childBelow : ∀ i : NodeIdx, (s.nodeAt i).kind = .internal →
    (s.nodeAt i).left.toNat < i.toNat ∧ (s.nodeAt i).right.toNat < i.toNat ∧ (s.nodeAt i).sym = 0
  freqSum : ∀ i : NodeIdx, (s.nodeAt i).kind = .internal →
    (s.nodeAt i).freq.toNat = (s.nodeAt (s.nodeAt i).left).freq.toNat + (s.nodeAt (s.nodeAt i).right).freq.toNat

section
variable {s : State} (h : Records s)
include h

theorem Records.leaf_iff (i : NodeIdx) : (s.nodeAt i).kind = .leaf ↔ i.toNat < s.nleaf.toNat := by
  rw [h.kinds]
  split_ifs <;> simp [*]

theorem Records.internal_iff (i : NodeIdx) :
    (s.nodeAt i).kind = .internal ↔ s.nleaf.toNat ≤ i.toNat ∧ i.toNat < s.nnode.toNat := by
  rw [h.kinds]
  split_ifs <;> simp <;> omega

theorem Records.free_iff (i : NodeIdx) : (s.nodeAt i).kind = .free ↔ s.nnode.toNat ≤ i.toNat := by
  have hle := h.leaves_le
  rw [h.kinds]
  split_ifs <;> simp <;> omega

theorem Records.no_sentinel (i : NodeIdx) : (s.nodeAt i).kind ≠ .sentinel := by
  rw [h.kinds]
  split_ifs <;> simp

/-- A child lies below its parent, and the parent is a record. -/
theorem Records.isChild_lt {i j : NodeIdx} {x : Bool} (hc : s.isChild i x j) :
    j.toNat < i.toNat ∧ i.toNat < s.nnode.toNat := by
  obtain ⟨hk, rfl⟩ := hc
  obtain ⟨hl, hr, -⟩ := h.childBelow i hk
  obtain ⟨-, hi⟩ := (h.internal_iff i).1 hk
  exact ⟨by cases x <;> assumption, hi⟩

/-- The edges of the grown arena: those of the new record, and the old ones. -/
theorem Records.isChild_iff {t : State} {n : NodeRec} (hg : s.growsBy t n) (i : NodeIdx) (x : Bool) (j : NodeIdx) :
    t.isChild i x j ↔ (i = s.nextIdx ∧ n.kind = .internal ∧ n.child x = j) ∨ s.isChild i x j := by
  unfold State.isChild
  rcases hg.eq_or_nodeAt i with ⟨rfl, hi, heq⟩ | ⟨hne, -, heq⟩
  · have hfree := (h.free_iff s.nextIdx).2 hi.ge
    simp [heq, hfree]
  · simp [heq, hne]

/-- The records with one leaf more, of a symbol above those of the others. -/
theorem Records.addLeaf {t : State} {y : Symbol} {f : BitVec 40} (hs : s.nnode.toNat = s.nleaf.toNat)
    (hg : s.growsBy t ⟨.leaf, y, f, 0, 0⟩) (hf : f.toNat ≤ Config.countMax)
    (hnew : ∀ i : NodeIdx, i.toNat < s.nleaf.toNat → (s.nodeAt i).sym.toNat < y.toNat)
    (hnleaf : t.nleaf.toNat = s.nleaf.toNat + 1) : Records t := by
  have hnnode := hg.nnode
  have hnone (i : NodeIdx) (hk : (t.nodeAt i).kind = .internal) : False := by
    rcases hg.eq_or_nodeAt i with ⟨-, -, heq⟩ | ⟨-, -, heq⟩ <;> rw [heq] at hk
    · cases hk
    · have := (h.internal_iff i).1 hk
      omega
  constructor
  case leaves_le => omega
  case kinds =>
    intro i
    rcases hg.eq_or_nodeAt i with ⟨-, hi, heq⟩ | ⟨-, hi, heq⟩
    · rw [heq, if_pos (by omega)]
    · have hlt : i.toNat < t.nleaf.toNat ↔ i.toNat < s.nleaf.toNat := by omega
      have hlt' : i.toNat < t.nnode.toNat ↔ i.toNat < s.nnode.toNat := by omega
      simp only [heq, h.kinds, hlt, hlt']
  case leafOrder =>
    intro i j hij hj
    have hi := hg.nodeAt_of_lt (j := i) (by omega)
    rcases hg.eq_or_nodeAt j with ⟨-, hjn, heq⟩ | ⟨-, hjn, heq⟩
    · rw [heq, hi]
      exact hnew i (by omega)
    · rw [heq, hi]
      exact h.leafOrder i j hij (by omega)
  case leafFields =>
    intro i hk
    rcases hg.eq_or_nodeAt i with ⟨-, -, heq⟩ | ⟨-, -, heq⟩ <;> rw [heq] at hk ⊢
    · exact ⟨rfl, rfl, hf⟩
    · exact h.leafFields i hk
  case childBelow => exact fun i hk => (hnone i hk).elim
  case freqSum => exact fun i hk => (hnone i hk).elim

/-- The records with one internal record more, its frequency the sum of its children's. -/
theorem Records.addInternal {t : State} {x y : NodeIdx} {f : BitVec 40} (hg : s.growsBy t ⟨.internal, 0, f, x, y⟩)
    (hx : x.toNat < s.nnode.toNat) (hy : y.toNat < s.nnode.toNat)
    (hf : f.toNat = (s.nodeAt x).freq.toNat + (s.nodeAt y).freq.toNat) (hnleaf : t.nleaf = s.nleaf) : Records t := by
  have hnnode := hg.nnode
  have hle := h.leaves_le
  constructor
  case leaves_le =>
    rw [hnleaf]
    omega
  case kinds =>
    intro i
    rcases hg.eq_or_nodeAt i with ⟨-, hi, heq⟩ | ⟨-, hi, heq⟩
    · rw [heq, hnleaf, if_neg (by omega), if_pos (by omega)]
    · have hlt : i.toNat < t.nnode.toNat ↔ i.toNat < s.nnode.toNat := by omega
      simp only [heq, h.kinds, hnleaf, hlt]
  case leafOrder =>
    intro i j hij hj
    rw [hnleaf] at hj
    rw [hg.nodeAt_of_lt (j := i) (by omega), hg.nodeAt_of_lt (j := j) (by omega)]
    exact h.leafOrder i j hij hj
  case leafFields =>
    intro i hk
    rcases hg.eq_or_nodeAt i with ⟨-, -, heq⟩ | ⟨-, -, heq⟩ <;> rw [heq] at hk ⊢
    · cases hk
    · exact h.leafFields i hk
  case childBelow =>
    intro i hk
    rcases hg.eq_or_nodeAt i with ⟨-, hi, heq⟩ | ⟨-, -, heq⟩ <;> rw [heq] at hk ⊢
    · exact ⟨hi ▸ hx, hi ▸ hy, rfl⟩
    · exact h.childBelow i hk
  case freqSum =>
    intro i hk
    rcases hg.eq_or_nodeAt i with ⟨-, -, heq⟩ | ⟨-, -, heq⟩ <;> rw [heq] at hk ⊢
    · rw [hg.nodeAt_of_lt hx, hg.nodeAt_of_lt hy]
      exact hf
    · obtain ⟨hl, hr, -⟩ := h.childBelow i hk
      obtain ⟨-, hi⟩ := (h.internal_iff i).1 hk
      rw [hg.nodeAt_of_lt (Nat.lt_trans hl hi), hg.nodeAt_of_lt (Nat.lt_trans hr hi)]
      exact h.freqSum i hk

end

/-! ### The queue holds the roots -/

/-- The queue holds the records that are nobody's child, each once, and the last record is one of them. -/
structure Roots (s : State) : Prop where
  nodup : s.pq.Nodup
  queued : ∀ i ∈ s.pq, i.toNat < s.nnode.toNat
  orphans : ∀ j ∈ s.pq, ∀ i x, ¬ s.isChild i x j
  oneParent : ∀ j : NodeIdx, j.toNat < s.nnode.toNat → j ∉ s.pq →
    ∃ i x, s.isChild i x j ∧ ∀ i' x', s.isChild i' x' j → i' = i ∧ x' = x
  newest : 0 < s.nnode.toNat → ∃ i ∈ s.pq, i.toNat + 1 = s.nnode.toNat

/-- A new record takes the place of its children in the queue. -/
theorem Roots.grow {s t : State} {n : NodeRec} {kids rest : List NodeIdx} (h : Roots s) (hr : Records s)
    (hg : s.growsBy t n) (hs : s.pq = kids ++ rest) (ht : t.pq.Perm (s.nextIdx :: rest))
    (hkids : n.kind ≠ .internal ∧ kids = [] ∨ n.kind = .internal ∧ kids = [n.left, n.right]) : Roots t := by
  have hnnode := hg.nnode
  have hnext := State.nextIdx_toNat hg.room
  have hfresh : s.nextIdx ∉ s.pq := fun hmem => by
    have := h.queued _ hmem
    omega
  have hmem (j : NodeIdx) : j ∈ t.pq ↔ j = s.nextIdx ∨ j ∈ rest := by rw [ht.mem_iff, List.mem_cons]
  have hedge (x : Bool) (hk : n.kind = .internal) : n.child x ∈ kids := by
    rcases hkids with ⟨hne, -⟩ | ⟨-, rfl⟩
    · exact absurd hk hne
    · cases x <;> simp [NodeRec.child]
  have hnodup := h.nodup
  rw [hs] at hnodup hfresh
  obtain ⟨hkn, hrn, hdisj⟩ := List.nodup_append.1 hnodup
  constructor
  case nodup => exact ht.nodup_iff.2 (List.nodup_cons.2 ⟨fun hc => hfresh (by simp [hc]), hrn⟩)
  case queued =>
    intro i hi
    rcases (hmem i).1 hi with rfl | hi
    · omega
    · have := h.queued i (by simp [hs, hi])
      omega
  case orphans =>
    intro j hj i x hc
    rcases (hr.isChild_iff hg i x j).1 hc with ⟨-, hk, rfl⟩ | hc
    · have hkid := hedge x hk
      rcases (hmem _).1 hj with heq | hrest
      · exact hfresh (List.mem_append_left _ (heq ▸ hkid))
      · exact hdisj _ hkid _ hrest rfl
    · rcases (hmem _).1 hj with rfl | hrest
      · have := hr.isChild_lt hc
        omega
      · exact h.orphans j (by simp [hs, hrest]) i x hc
  case oneParent =>
    intro j hj hjt
    rw [hmem, not_or] at hjt
    obtain ⟨hjne, hjrest⟩ := hjt
    have hjlt : j.toNat < s.nnode.toNat := by
      have : j.toNat ≠ s.nnode.toNat := fun he => hjne (BitVec.eq_of_toNat_eq (he.trans hnext.symm))
      omega
    by_cases hkid : j ∈ kids
    · rcases hkids with ⟨-, rfl⟩ | ⟨hk, rfl⟩
      · cases hkid
      · obtain ⟨x, rfl⟩ : ∃ x, n.child x = j := by
          rcases List.mem_pair.1 hkid with rfl | rfl
          · exact ⟨false, rfl⟩
          · exact ⟨true, rfl⟩
        refine ⟨s.nextIdx, x, (hr.isChild_iff hg _ _ _).2 (.inl ⟨rfl, hk, rfl⟩), fun i' x' hc => ?_⟩
        rcases (hr.isChild_iff hg _ _ _).1 hc with ⟨rfl, -, heq⟩ | hc
        · refine ⟨rfl, ?_⟩
          have hne : n.left ≠ n.right := by simpa using hkn
          cases x <;> cases x' <;> simp_all [NodeRec.child]
        · exact absurd hc (h.orphans _ (by rw [hs]; exact List.mem_append_left _ hkid) _ _)
    · obtain ⟨i, x, hc, huniq⟩ := h.oneParent j hjlt (by simp [hs, hkid, hjrest])
      refine ⟨i, x, (hr.isChild_iff hg _ _ _).2 (.inr hc), fun i' x' hc' => ?_⟩
      rcases (hr.isChild_iff hg _ _ _).1 hc' with ⟨-, hk, rfl⟩ | hc'
      · exact absurd (hedge x' hk) hkid
      · exact huniq i' x' hc'
  case newest => exact fun _ => ⟨s.nextIdx, (hmem _).2 (.inl rfl), by omega⟩

/-! ### The scan and the merges (42_tree_builder.md R124, R125) -/

/-- What holds of the arena and the queue while `TB_BUILD` scans the table and merges: the records are a forest with the queued
nodes for roots, one merge short of a tree for each queued node but one, and their frequencies add up to counts. -/
structure Forest (s : State) : Prop where
  arena : Memory.wf 511 NodeRec.empty s.node
  records : Records s
  roots : Roots s
  leaves_le : s.nleaf.toNat ≤ 256
  size : s.nnode.toNat + s.pq.length = 2 * s.nleaf.toNat
  total : (s.pq.map fun i => (s.nodeAt i).freq.toNat).sum ≤ s.nleaf.toNat * Config.countMax

theorem Forest.empty {s : State} (hnode : s.node = []) (hnnode : s.nnode = 0) (hnleaf : s.nleaf = 0)
    (hpq : s.pq = []) : Forest s := by
  have hfree (i : NodeIdx) : s.nodeAt i = NodeRec.empty := by simp [State.nodeAt, nodeRec, hnode]
  have hrecords : Records s := by constructor <;> simp [hnnode, hnleaf, hfree, NodeRec.empty]
  have hroots : Roots s := by constructor <;> simp [hnnode, hpq]
  constructor <;> simp [Memory.wf, hnode, hnnode, hnleaf, hpq, hrecords, hroots]

/-- The frequencies of the queued nodes after a new record took the place of its children. -/
theorem Roots.sum_grow {s t : State} {n : NodeRec} {kids rest : List NodeIdx} (h : Roots s) (hg : s.growsBy t n)
    (hs : s.pq = kids ++ rest) (ht : t.pq.Perm (s.nextIdx :: rest)) :
    (t.pq.map fun i => (t.nodeAt i).freq.toNat).sum = n.freq.toNat + (rest.map fun i => (s.nodeAt i).freq.toNat).sum := by
  have hrest : rest.map (fun i => (t.nodeAt i).freq.toNat) = rest.map (fun i => (s.nodeAt i).freq.toNat) :=
    List.map_congr_left fun i hi => by rw [hg.nodeAt_of_lt (h.queued i (by simp [hs, hi]))]
  rw [(ht.map _).sum_eq, List.map_cons, List.sum_cons, hg.nodeAt_new, hrest]

/-- What holds of the scan after the symbols below `k`: all nodes are leaves of keys below `k`, each queued; and while there is
none, nothing has changed. -/
structure Scanned (s₀ s : State) (k : Nat) : Prop where
  forest : Forest s
  onlyLeaves : s.nnode.toNat = s.nleaf.toNat
  count : s.nleaf.toNat ≤ k
  symbols : ∀ i : NodeIdx, i.toNat < s.nleaf.toNat → (s.nodeAt i).sym.toNat < k
  unchanged : s.nleaf = 0 → s = s₀

theorem Forest.addLeaf {s t : State} {y : Symbol} {f : BitVec 40} (h : Forest s) (hs : s.nnode.toNat = s.nleaf.toNat)
    (hlt : s.nleaf.toNat < 256) (hg : s.growsBy t ⟨.leaf, y, f, 0, 0⟩) (hf : f.toNat ≤ Config.countMax)
    (hnew : ∀ i : NodeIdx, i.toNat < s.nleaf.toNat → (s.nodeAt i).sym.toNat < y.toNat)
    (harena : Memory.wf 511 NodeRec.empty t.node) (hnleaf : t.nleaf.toNat = s.nleaf.toNat + 1)
    (hpq : t.pq.Perm (s.nextIdx :: s.pq)) : Forest t where
  arena := harena
  records := h.records.addLeaf hs hg hf hnew hnleaf
  roots := h.roots.grow h.records hg (kids := []) rfl hpq (.inl ⟨by simp, rfl⟩)
  leaves_le := by omega
  size := by
    have hsize := h.size
    have hnnode := hg.nnode
    rw [hpq.length_eq, List.length_cons]
    omega
  total := by
    have htotal := h.total
    rw [h.roots.sum_grow hg (kids := []) rfl hpq, hnleaf, Nat.succ_mul, Nat.add_comm]
    exact Nat.add_le_add htotal hf

/-- The leaf of a key (42_tree_builder.md R124). -/
def State.keyLeaf (s : State) (y : Symbol) : NodeRec := ⟨.leaf, y, (s.ftAt y).cnt.setWidth 40, 0, 0⟩

theorem State.scanSymbol_of_key {s : State} {y : Symbol} (hy : (s.ftAt y).v = true) :
    s.scanSymbol y = State.pqInsert { s.allocNode (s.keyLeaf y) with nleaf := s.nleaf + 1 } s.nextIdx := by
  rw [State.scanSymbol, if_pos hy]
  rfl

theorem State.scanSymbol_of_not_key {s : State} {y : Symbol} (hy : (s.ftAt y).v = false) : s.scanSymbol y = s := by
  rw [State.scanSymbol, hy]
  rfl

theorem State.scanSymbol_growsBy {s : State} {y : Symbol} (hy : (s.ftAt y).v = true) (hs : s.nnode.toNat ≤ 510) :
    s.growsBy (s.scanSymbol y) (s.keyLeaf y) := by
  rw [State.scanSymbol_of_key hy]
  exact State.growsBy_of_alloc hs rfl rfl

theorem State.scanSymbol_pq {s : State} {y : Symbol} (hy : (s.ftAt y).v = true) :
    (s.scanSymbol y).pq.Perm (s.nextIdx :: s.pq) := by
  rw [State.scanSymbol_of_key hy]
  exact State.pqInsert_perm _ _

theorem State.scanSymbol_arena {s : State} {y : Symbol} (hy : (s.ftAt y).v = true) (hs : s.nnode.toNat ≤ 510)
    (h : Memory.wf 511 NodeRec.empty s.node) : Memory.wf 511 NodeRec.empty (s.scanSymbol y).node := by
  rw [State.scanSymbol_of_key hy, State.pqInsert_node]
  exact State.allocNode_arena hs h (s.keyLeaf y)

theorem State.scanSymbol_nleaf {s : State} {y : Symbol} (hy : (s.ftAt y).v = true) (hs : s.nleaf.toNat < 256) :
    (s.scanSymbol y).nleaf.toNat = s.nleaf.toNat + 1 := by
  rw [State.scanSymbol_of_key hy, State.pqInsert_nleaf]
  bv_omega

theorem Scanned.scanSymbol {s₀ s : State} {k : Nat} (h : Scanned s₀ s k) (hk : k < 256) :
    Scanned s₀ (s.scanSymbol (BitVec.ofNat 8 k)) (k + 1) := by
  have hy : (BitVec.ofNat 8 k).toNat = k := Nat.mod_eq_of_lt hk
  have hcount := h.count
  have hsame := h.onlyLeaves
  have hroom : s.nnode.toNat ≤ 510 := by omega
  cases hkey : (s.ftAt (BitVec.ofNat 8 k)).v with
  | false =>
    rw [State.scanSymbol_of_not_key hkey]
    exact { h with count := Nat.le_succ_of_le hcount, symbols := fun i hi => Nat.lt_succ_of_lt (h.symbols i hi) }
  | true =>
    have hg := State.scanSymbol_growsBy hkey hroom
    have hnleaf := State.scanSymbol_nleaf hkey (by omega)
    have hcnt : ((s.ftAt (BitVec.ofNat 8 k)).cnt.setWidth 40).toNat ≤ Config.countMax := by
      rw [BitVec.toNat_setWidth_of_le (by decide)]
      exact FtEntry.cnt_le _
    constructor
    case forest =>
      exact h.forest.addLeaf hsame (by omega) hg hcnt (by simpa only [hy] using h.symbols)
        (State.scanSymbol_arena hkey hroom h.forest.arena) hnleaf (State.scanSymbol_pq hkey)
    case onlyLeaves => rw [hg.nnode, hnleaf, hsame]
    case count => omega
    case symbols =>
      intro i hi
      rcases hg.eq_or_nodeAt i with ⟨-, -, heq⟩ | ⟨-, hne, heq⟩ <;> rw [heq]
      · exact hy.trans_lt (Nat.lt_succ_self k)
      · exact Nat.lt_succ_of_lt (h.symbols i (by omega))
    case unchanged =>
      intro hzero
      simp [hzero] at hnleaf

theorem State.scanned {s : State} (h : Scanned s s 0) : Scanned s s.scanTable 256 := by
  have hscan : ∀ k ≤ 256, Scanned s (((List.range k).map (BitVec.ofNat 8)).foldl State.scanSymbol s) k := by
    intro k
    induction k with
    | zero => exact fun _ => h
    | succ k ih =>
      intro hk
      rw [List.range_succ, List.map_append, List.foldl_append]
      exact (ih (by omega)).scanSymbol (by omega)
  exact hscan 256 le_rfl

theorem Scanned.clearDerived (s : State) : Scanned s.clearDerived s.clearDerived.scanTable 256 := by
  refine State.scanned ?_
  constructor
  case forest => exact Forest.empty rfl rfl rfl rfl
  case unchanged => exact fun _ => rfl
  all_goals simp

theorem State.mergeStep_growsBy {s : State} {x y : NodeIdx} {rest : List NodeIdx} (hpq : s.pq = x :: y :: rest)
    (hs : s.nnode.toNat ≤ 510) :
    s.growsBy s.mergeStep ⟨.internal, 0, (s.nodeAt x).freq + (s.nodeAt y).freq, x, y⟩ := by
  have hx : s.pqAt 0 = x := by simp [State.pqAt, hpq]
  have hy : s.pqPop.pqAt 0 = y := by simp [State.pqAt, hpq]
  apply State.growsBy_of_alloc hs
  · unfold State.mergeStep
    dsimp only
    rw [hx, hy]
    rfl
  · rfl

theorem State.mergeStep_pq {s : State} {x y : NodeIdx} {rest : List NodeIdx} (hpq : s.pq = x :: y :: rest) :
    s.mergeStep.pq.Perm (s.nextIdx :: rest) := by
  refine (State.pqInsert_perm _ _).trans (List.Perm.of_eq ?_)
  simp [hpq, State.nextIdx]

theorem State.mergeStep_arena {s : State} (hs : s.nnode.toNat ≤ 510) (h : Memory.wf 511 NodeRec.empty s.node) :
    Memory.wf 511 NodeRec.empty s.mergeStep.node := by
  rw [State.mergeStep, State.pqInsert_node]
  exact State.allocNode_arena (s := s.pqPop.pqPop) hs h _

theorem Forest.mergeStep {s : State} (h : Forest s) (hlen : 1 < s.pq.length) :
    Forest s.mergeStep ∧ s.mergeStep.pq.length + 1 = s.pq.length := by
  obtain ⟨x, y, rest, hpq⟩ : ∃ x y rest, s.pq = x :: y :: rest := by
    match hq : s.pq, hlen with
    | x :: y :: rest, _ => exact ⟨x, y, rest, rfl⟩
  have hsize := h.size
  have hleaves := h.leaves_le
  have hroom : s.nnode.toNat ≤ 510 := by omega
  have hg := State.mergeStep_growsBy hpq hroom
  have hperm := State.mergeStep_pq hpq
  have htotal := h.total
  rw [hpq, List.map_cons, List.map_cons, List.sum_cons, List.sum_cons] at htotal
  have hsum : ((s.nodeAt x).freq + (s.nodeAt y).freq).toNat = (s.nodeAt x).freq.toNat + (s.nodeAt y).freq.toNat := by
    have hmax : s.nleaf.toNat * Config.countMax < 2 ^ 40 :=
      Nat.lt_of_le_of_lt (Nat.mul_le_mul_right _ hleaves) (by decide)
    rw [BitVec.toNat_add, Nat.mod_eq_of_lt (by omega)]
  have hlength : s.mergeStep.pq.length + 1 = s.pq.length := by
    rw [hperm.length_eq, hpq]
    rfl
  refine ⟨?_, hlength⟩
  constructor
  case arena => exact State.mergeStep_arena hroom h.arena
  case records =>
    exact h.records.addInternal hg (h.roots.queued x (by simp [hpq])) (h.roots.queued y (by simp [hpq])) hsum rfl
  case roots => exact h.roots.grow h.records hg (kids := [x, y]) hpq hperm (.inr ⟨rfl, rfl⟩)
  case leaves_le => exact hleaves
  case size =>
    have hnnode := hg.nnode
    have hnleaf : s.mergeStep.nleaf = s.nleaf := rfl
    rw [hnleaf]
    omega
  case total =>
    rw [h.roots.sum_grow hg (kids := [x, y]) hpq hperm, hsum, Nat.add_assoc]
    exact htotal

theorem Forest.mergeLoop {s : State} (n : Nat) (h : Forest s) (hlen : s.pq.length ≤ n + 1) :
    Forest (s.mergeLoop n) ∧ (s.mergeLoop n).pq.length ≤ 1 ∧ (s.mergeLoop n).nleaf = s.nleaf := by
  induction n generalizing s with
  | zero => exact ⟨h, hlen, rfl⟩
  | succ n ih =>
    unfold State.mergeLoop
    split
    · next hmany =>
      obtain ⟨hforest, hless⟩ := h.mergeStep hmany
      exact ih hforest (by omega)
    · next hone => exact ⟨h, by omega, rfl⟩

/-! ### The finished tree (42_tree_builder.md R126, R129) -/

/-- A forest of one root with two leaves or more is a tree. -/
theorem Forest.treeInv_finishTree {s : State} (h : Forest s) (hmany : 2 ≤ s.nleaf.toNat) (hlen : s.pq.length ≤ 1) :
    s.pq = [s.pqAt 0] ∧ TreeInv s.finishTree := by
  have hsize := h.size
  obtain ⟨r, hr, hlast⟩ := h.roots.newest (by omega)
  have hpq : s.pq = [s.pqAt 0] := by
    obtain ⟨r', hpq⟩ := List.length_eq_one_iff.1 (Nat.le_antisymm hlen (List.length_pos_of_mem hr))
    simp [State.pqAt, hpq]
  obtain rfl : r = s.pqAt 0 := by rwa [hpq, List.mem_singleton] at hr
  rw [hpq, List.length_singleton] at hsize
  refine ⟨hpq, ?_⟩
  constructor
  case leafRange => exact ⟨Nat.le_of_succ_le hmany, h.leaves_le⟩
  case sizeMany => exact fun _ => Nat.eq_sub_of_add_eq hsize
  case sizeOne => exact fun hone => absurd hmany (by rw [State.finishTree_nleaf] at hone; omega)
  case allocated => exact fun i => (h.records.free_iff i).not.trans not_le
  case leafPlace => exact h.records.leaf_iff
  case leafOrder => exact h.records.leafOrder
  case leafFields => exact h.records.leafFields
  case sentinelFields => exact fun i hk => absurd hk (h.records.no_sentinel i)
  case childBelow => exact h.records.childBelow
  case freqSum => exact h.records.freqSum
  case oneParent => exact fun j hj hne => h.roots.oneParent j hj (by simpa [hpq] using hne)
  case rootLast => exact ⟨hlast, (h.records.internal_iff (s.pqAt 0)).2 ⟨by omega, by omega⟩⟩

/-- The tree of one key: a leaf, the sentinel beside it, and the root above both (42_tree_builder.md R129). -/
structure SentinelTree (s : State) : Prop where
  sizes : s.nnode = 3 ∧ s.nleaf = 1 ∧ s.root = 2
  leaf : ∃ y f, s.nodeAt 0 = ⟨.leaf, y, f, 0, 0⟩ ∧ f.toNat ≤ Config.countMax
  sentinel : s.nodeAt 1 = ⟨.sentinel, 0, 0, 0, 0⟩
  root : s.nodeAt 2 = ⟨.internal, 0, (s.nodeAt 0).freq, 0, 1⟩
  free : ∀ i : NodeIdx, 2 < i.toNat → (s.nodeAt i).kind = .free

theorem SentinelTree.treeInv {s : State} (h : SentinelTree s) : TreeInv s := by
  obtain ⟨hnnode, hnleaf, hroot⟩ := h.sizes
  obtain ⟨y, f, hleaf, hf⟩ := h.leaf
  have hrecord (i : NodeIdx) : (i.toNat = 0 ∧ s.nodeAt i = ⟨.leaf, y, f, 0, 0⟩) ∨
      (i.toNat = 1 ∧ s.nodeAt i = ⟨.sentinel, 0, 0, 0, 0⟩) ∨ (i.toNat = 2 ∧ s.nodeAt i = ⟨.internal, 0, f, 0, 1⟩) ∨
      (2 < i.toNat ∧ (s.nodeAt i).kind = .free) := by
    have hroot := h.root
    rw [hleaf] at hroot
    by_cases hi : 2 < i.toNat
    · exact .inr (.inr (.inr ⟨hi, h.free i hi⟩))
    · obtain rfl | rfl | rfl : i = 0 ∨ i = 1 ∨ i = 2 := by bv_omega
      · exact .inl ⟨rfl, hleaf⟩
      · exact .inr (.inl ⟨rfl, h.sentinel⟩)
      · exact .inr (.inr (.inl ⟨rfl, hroot⟩))
  have hchild (i : NodeIdx) (x : Bool) (j : NodeIdx) : s.isChild i x j ↔ i.toNat = 2 ∧ j.toNat = x.toNat := by
    unfold State.isChild
    rcases hrecord i with ⟨hi, hn⟩ | ⟨hi, hn⟩ | ⟨hi, hn⟩ | ⟨hi, hk⟩
    · simp [hi, hn]
    · simp [hi, hn]
    · cases x <;> simp [hi, hn, NodeRec.child, ← BitVec.toNat_inj, eq_comm]
    · simp [hk, hi.ne']
  have hkind (i : NodeIdx) : ((s.nodeAt i).kind = .leaf → s.nodeAt i = ⟨.leaf, y, f, 0, 0⟩) ∧
      ((s.nodeAt i).kind = .sentinel → s.nodeAt i = ⟨.sentinel, 0, 0, 0, 0⟩) ∧
      ((s.nodeAt i).kind = .internal → i.toNat = 2 ∧ s.nodeAt i = ⟨.internal, 0, f, 0, 1⟩) := by
    rcases hrecord i with ⟨-, hn⟩ | ⟨-, hn⟩ | ⟨hi, hn⟩ | ⟨-, hk⟩
    · simp [hn]
    · simp [hn]
    · simp [hi, hn]
    · simp [hk]
  constructor
  case leafRange => simp [hnleaf]
  case sizeMany => simp [hnleaf]
  case sizeOne => exact fun _ => ⟨by rw [hnnode]; rfl, by rw [hroot, h.root]; exact ⟨rfl, rfl⟩⟩
  case oneParent =>
    intro j hj hne
    rw [hnnode] at hj
    rw [hroot] at hne
    obtain ⟨x, hx⟩ : ∃ x : Bool, j.toNat = x.toNat := by
      obtain rfl | rfl : j = 0 ∨ j = 1 := by bv_omega
      · exact ⟨false, rfl⟩
      · exact ⟨true, rfl⟩
    refine ⟨2, x, (hchild _ _ _).2 ⟨rfl, hx⟩, fun i' x' hc => ?_⟩
    obtain ⟨hi', hx'⟩ := (hchild _ _ _).1 hc
    exact ⟨BitVec.eq_of_toNat_eq hi', Function.LeftInverse.injective Bool.ofNat_toNat (hx'.symm.trans hx)⟩
  case rootLast => exact ⟨by rw [hroot, hnnode]; rfl, by rw [hroot, h.root]⟩
  case leafOrder =>
    intro i j hij hj
    rw [hnleaf, show (1 : BitVec 9).toNat = 1 from rfl] at hj
    omega
  case allocated | leafPlace =>
    intro i
    rcases hrecord i with ⟨hi, hn⟩ | ⟨hi, hn⟩ | ⟨hi, hn⟩ | ⟨hi, hk⟩
    · simp [hi, hn, hnnode, hnleaf]
    · simp [hi, hn, hnnode, hnleaf]
    · simp [hi, hn, hnnode, hnleaf]
    · simp [hk, hnnode, hnleaf]
      omega
  case leafFields =>
    intro i hk
    obtain ⟨hn, -, -⟩ := hkind i
    rw [hn hk]
    exact ⟨rfl, rfl, hf⟩
  case sentinelFields =>
    intro i hk
    obtain ⟨-, hn, -⟩ := hkind i
    exact ⟨by rw [hnleaf]; rfl, hn hk⟩
  case childBelow =>
    intro i hk
    obtain ⟨-, -, hinner⟩ := hkind i
    obtain ⟨hi, hn⟩ := hinner hk
    rw [hn, hi]
    exact ⟨Nat.zero_lt_two, Nat.one_lt_two, rfl⟩
  case freqSum =>
    intro i hk
    obtain ⟨-, -, hinner⟩ := hkind i
    obtain ⟨-, hn⟩ := hinner hk
    rw [hn, hleaf, h.sentinel]
    rfl

/-- With one leaf queued, the single-symbol rule allocates the sentinel at 1 and the root at 2 (42_tree_builder.md R129). -/
theorem State.singleSymbol_eq {s : State} (hnnode : s.nnode = 1) (hpq : s.pq = [0]) :
    s.singleSymbol = ((s.pqPop.allocNode ⟨.sentinel, 0, 0, 0, 0⟩).allocNode
      ⟨.internal, 0, (s.nodeAt 0).freq, 0, 1⟩).pqInsert 2 := by
  have hfirst : s.pqAt 0 = 0 := by rw [State.pqAt, hpq]; rfl
  have hidx : s.pqPop.nextIdx = 1 := by rw [State.nextIdx, State.pqPop_nnode, hnnode]; rfl
  have hidx' (n : NodeRec) : (s.pqPop.allocNode n).nextIdx = 2 := by
    rw [State.nextIdx, State.allocNode_nnode, State.pqPop_nnode, hnnode]
    rfl
  have hfreq (n : NodeRec) : (s.pqPop.allocNode n).nodeAt 0 = s.nodeAt 0 := by
    rw [State.nodeAt_allocNode, hidx]
    rfl
  unfold State.singleSymbol
  dsimp only
  rw [hfirst, hidx, hidx', hfreq]

theorem State.singleSymbol_nodeAt {s : State} (hnnode : s.nnode = 1) (hpq : s.pq = [0]) (i : NodeIdx) :
    s.singleSymbol.nodeAt i = if 2 = i then ⟨.internal, 0, (s.nodeAt 0).freq, 0, 1⟩
      else if 1 = i then ⟨.sentinel, 0, 0, 0, 0⟩ else s.nodeAt i := by
  rw [State.singleSymbol_eq hnnode hpq, State.nodeAt, State.pqInsert_node]
  refine (State.nodeAt_allocNode _ i _).trans ?_
  rw [State.nodeAt_allocNode, State.nextIdx, State.nextIdx, State.allocNode_nnode, State.pqPop_nnode, hnnode]
  rfl

theorem State.singleSymbol_pq {s : State} (hnnode : s.nnode = 1) (hpq : s.pq = [0]) : s.singleSymbol.pq = [2] := by
  rw [State.singleSymbol_eq hnnode hpq]
  refine List.perm_singleton.1 ((State.pqInsert_perm _ _).trans (List.Perm.of_eq ?_))
  rw [State.allocNode_pq, State.allocNode_pq, State.pqPop_pq, hpq]
  rfl

theorem State.singleSymbol_arena {s : State} (hnnode : s.nnode = 1) (hpq : s.pq = [0])
    (h : Memory.wf 511 NodeRec.empty s.node) : Memory.wf 511 NodeRec.empty s.singleSymbol.node := by
  rw [State.singleSymbol_eq hnnode hpq, State.pqInsert_node]
  refine State.allocNode_arena ?_ (State.allocNode_arena (s := s.pqPop) ?_ h _) _
  · rw [State.allocNode_nnode, State.pqPop_nnode, hnnode]
    decide
  · rw [State.pqPop_nnode, hnnode]
    decide

/-- A scan that found one key leaves one leaf in the arena and in the queue. -/
theorem Scanned.single {s₀ s : State} {k : Nat} (h : Scanned s₀ s k) (hone : s.nleaf = 1) :
    s.nnode = 1 ∧ s.pq = [0] := by
  have hnnode : s.nnode = 1 := by
    have := h.onlyLeaves
    bv_omega
  have hsize := h.forest.size
  rw [hnnode, hone] at hsize
  obtain ⟨l, hl⟩ := List.length_eq_one_iff.1 (Nat.add_left_cancel hsize : s.pq.length = 1)
  have hlt := h.forest.roots.queued l (by simp [hl])
  exact ⟨hnnode, by rw [hl, show l = 0 by bv_omega]⟩

theorem Scanned.sentinelTree {s₀ s : State} {k : Nat} (h : Scanned s₀ s k) (hone : s.nleaf = 1) :
    SentinelTree s.singleSymbol.finishTree := by
  obtain ⟨hnnode, hpq⟩ := h.single hone
  have hrecords := h.forest.records
  have hleaf : (s.nodeAt 0).kind = .leaf := (hrecords.leaf_iff 0).2 (by rw [hone]; decide)
  obtain ⟨hleft, hright, hfreq⟩ := hrecords.leafFields 0 hleaf
  have hnode : ∀ i, s.singleSymbol.finishTree.nodeAt i = _ := State.singleSymbol_nodeAt hnnode hpq
  have hnode0 : s.singleSymbol.finishTree.nodeAt 0 = s.nodeAt 0 := hnode 0
  constructor
  case sizes =>
    refine ⟨?_, hone, ?_⟩
    · rw [State.finishTree_nnode, State.singleSymbol_eq hnnode hpq, State.pqInsert_nnode, State.allocNode_nnode,
        State.allocNode_nnode, State.pqPop_nnode, hnnode]
      rfl
    · rw [State.finishTree_root, State.pqAt, State.singleSymbol_pq hnnode hpq]
      rfl
  case leaf =>
    refine ⟨(s.nodeAt 0).sym, (s.nodeAt 0).freq, ?_, hfreq⟩
    rw [hnode0]
    generalize s.nodeAt 0 = n at hleaf hleft hright ⊢
    cases n
    cases hleaf
    cases hleft
    cases hright
    rfl
  case sentinel => exact hnode 1
  case root => rw [hnode0]; exact hnode 2
  case free =>
    intro i hi
    rw [hnode, if_neg (by bv_omega), if_neg (by bv_omega), hrecords.free_iff, hnnode]
    exact Nat.le_of_lt (Nat.lt_of_succ_lt hi)

/-- What `TB_BUILD` leaves of a scanned table with a key: a tree whose root alone is queued, and the decoder on it. -/
theorem Scanned.buildTree {s₀ s : State} {k : Nat} (h : Scanned s₀ s k) (hsome : s.nleaf ≠ 0) :
    TreeInv s.buildTree ∧ Memory.wf 511 NodeRec.empty s.buildTree.node ∧ s.buildTree.treeValid = true ∧
      s.buildTree.pq = [s.buildTree.root] ∧ s.buildTree.decCur = s.buildTree.root := by
  unfold State.buildTree
  split
  · next hone =>
    obtain ⟨hnnode, hpq⟩ := h.single hone
    refine ⟨(h.sentinelTree hone).treeInv, State.singleSymbol_arena hnnode hpq h.forest.arena, rfl, ?_, rfl⟩
    rw [State.finishTree_pq, State.finishTree_root, State.pqAt, State.singleSymbol_pq hnnode hpq]
    rfl
  · next hmany =>
    have hsize := h.forest.size
    have hleaves := h.forest.leaves_le
    have hsame := h.onlyLeaves
    obtain ⟨hforest, hlen, hnleaf⟩ := h.forest.mergeLoop 255 (by omega)
    obtain ⟨hpq, htree⟩ := hforest.treeInv_finishTree (by rw [hnleaf]; bv_omega) hlen
    exact ⟨htree, hforest.arena, rfl, hpq, rfl⟩

end Sys2Proof.Machine

namespace Sys2Proof.Machine

/-! ### The parts of the invariant -/

/-- The invariant's part about `FT` (10_state.md R23, R51). -/
structure TableInv (ft : List (Nat × FtEntry)) : Prop where
  memory : Memory.wf 256 FtEntry.empty ft
  noKey : ∀ y : Symbol, (Memory.read FtEntry.empty ft y.toNat).v = false → (Memory.read FtEntry.empty ft y.toNat).cnt = 0

/-- The invariant's part about the arena, the queue and the decoder's pointer (10_state.md R26 to R28, R50, R52). -/
structure ArenaInv (s : State) : Prop where
  memory : Memory.wf 511 NodeRec.empty s.node
  tree : s.treeValid = true → TreeInv s ∧ s.pq = [s.root] ∧ (s.nodeAt s.decCur).kind = .internal
  noTree : s.treeValid = false → NoTree s

/-- The invariant's part about the code table (10_state.md R29, R30). -/
structure CodeTableInv (s : State) : Prop where
  memory : Memory.wf 256 CtEntry.empty s.ct
  codes : s.codesValid = true → CodesInv s
  noCodes : s.codesValid = false → s.ct = []

/-- The invariant's part about the packer: its bits and the bit counter (10_state.md R32; 44_encoder.md R153). -/
structure PackerInv (buf : Byte) (cnt : BitVec 3) (bits : BitVec 48) : Prop where
  high : buf.toNat < 2 ^ cnt.toNat
  count : bits.toNat < 2 ^ 48 - 1 → cnt.toNat = bits.toNat % 8

/-- The invariant's part about the fault registers (10_state.md R34; 60_exceptions.md R180). -/
structure FaultInv (fault : Bool) (err : BitVec 8) (info : BitVec 36) : Prop where
  clear : fault = false → err = 0 ∧ info = 0
  code : fault = true → 1 ≤ err.toNat ∧ err.toNat ≤ 7

theorem inv_iff (s : State) : Inv s ↔ TableInv s.ft ∧ ArenaInv s ∧ CodeTableInv s ∧
    PackerInv s.pkBuf s.pkCnt s.encBitCnt ∧ FaultInv s.fault s.err s.faultInfo := by
  constructor
  · intro h
    obtain ⟨hft, hnode, hct⟩ := h.memories
    exact ⟨⟨hft, fun y => (h.table y).1⟩, ⟨hnode, h.tree, h.noTree⟩, ⟨hct, h.codes, h.noCodes⟩,
      ⟨h.packerBits, h.packerCount⟩, ⟨h.noFault, h.faultCode⟩⟩
  · rintro ⟨htable, harena, hcodes, hpacker, hfault⟩
    exact {
      memories := ⟨htable.memory, harena.memory, hcodes.memory⟩
      table := fun y => ⟨htable.noKey y, FtEntry.cnt_le _⟩
      tree := harena.tree
      noTree := harena.noTree
      codes := hcodes.codes
      noCodes := hcodes.noCodes
      packerBits := hpacker.high
      packerCount := hpacker.count
      noFault := hfault.clear
      faultCode := hfault.code }

theorem TableInv.nil : TableInv [] := ⟨by simp [Memory.wf], fun _ _ => rfl⟩

theorem PackerInv.zero : PackerInv 0 0 0 := ⟨by decide, fun _ => rfl⟩

theorem FaultInv.none : FaultInv false 0 0 := ⟨fun _ => ⟨rfl, rfl⟩, by simp⟩

theorem FaultInv.raised (f : BlockFault) (info : BitVec 36) : FaultInv true f.code info :=
  ⟨by simp, fun _ => by cases f <;> decide⟩

theorem ArenaInv.cleared {s : State} (htree : s.treeValid = false) (h : NoTree s) : ArenaInv s :=
  ⟨by simp [h.node, Memory.wf], by simp [htree], fun _ => h⟩

theorem CodeTableInv.cleared {s : State} (hvalid : s.codesValid = false) (hct : s.ct = []) : CodeTableInv s :=
  ⟨by simp [hct, Memory.wf], by simp [hvalid], fun _ => hct⟩

/-- A state in which all that derives from the table is at its reset value, the encoder included, meets the invariant if its
table and its fault registers do (42_tree_builder.md R127). -/
theorem Inv.cleared {s : State} (h : s = s.clearDerived) (htable : TableInv s.ft)
    (hfault : FaultInv s.fault s.err s.faultInfo) : Inv s := by
  refine (inv_iff s).2 ⟨htable, ?_, ?_, ?_, hfault⟩ <;> rw [h]
  · exact ArenaInv.cleared rfl ⟨rfl, rfl, rfl, rfl, rfl, rfl, rfl⟩
  · exact CodeTableInv.cleared rfl rfl
  · exact PackerInv.zero

/-- Settles O49: every part of the invariant holds of the reset values. -/
theorem resetMeetsTheInvariant : Obligations.ResetMeetsTheInvariant :=
  fun _ => Inv.cleared rfl TableInv.nil FaultInv.none

/-- The states have the same arena, sizes, root, queue and codes. -/
def State.sameTree (s t : State) : Prop :=
  t = { s with
    ft := t.ft, encSymCnt := t.encSymCnt, encBitCnt := t.encBitCnt, pkBuf := t.pkBuf, pkCnt := t.pkCnt,
    decCur := t.decCur, decSymCnt := t.decSymCnt, fault := t.fault, err := t.err, faultInfo := t.faultInfo,
    beats := t.beats, inputs := t.inputs }

/-- The decoder's pointer stands on an internal node of the tree, or at 0 without a tree (10_state.md R33, R52). -/
def State.pointerOk (s : State) : Prop :=
  (s.treeValid = true → (s.nodeAt s.decCur).kind = .internal) ∧ (s.treeValid = false → s.decCur = 0)

theorem Inv.pointerOk {s : State} (h : Inv s) : s.pointerOk :=
  ⟨fun hv => (h.decoderSafe hv).2, fun hv => (h.noTree hv).decCur⟩

/-- The invariant of a state with the same tree and codes: what is left to show of the table, the pointer, the packer and the
fault registers. -/
theorem Inv.of_sameTree {s t : State} (h : Inv s) (hst : s.sameTree t) (htable : TableInv t.ft) (hpointer : t.pointerOk)
    (hpacker : PackerInv t.pkBuf t.pkCnt t.encBitCnt) (hfault : FaultInv t.fault t.err t.faultInfo) : Inv t := by
  obtain ⟨-, harena, hcodes, -, -⟩ := (inv_iff s).1 h
  obtain ⟨hcur, hzero⟩ := hpointer
  refine (inv_iff t).2 ⟨htable, ?_, ?_, hpacker, hfault⟩ <;> rw [hst] at hcur hzero ⊢
  · refine ⟨harena.memory, fun hv => ?_, fun hv => { harena.noTree hv with decCur := hzero hv }⟩
    obtain ⟨htree, hpq, -⟩ := harena.tree hv
    exact ⟨htree.of_same_tree rfl rfl rfl rfl, hpq, hcur hv⟩
  · exact ⟨hcodes.memory, fun hv => { hcodes.codes hv with }, hcodes.noCodes⟩

theorem Inv.tableInv {s : State} (h : Inv s) : TableInv s.ft := ((inv_iff s).1 h).1

theorem Inv.packerInv {s : State} (h : Inv s) : PackerInv s.pkBuf s.pkCnt s.encBitCnt :=
  ⟨h.packerBits, h.packerCount⟩

theorem Inv.faultInv {s : State} (h : Inv s) : FaultInv s.fault s.err s.faultInfo := ⟨h.noFault, h.faultCode⟩

theorem Inv.respond {s : State} (h : Inv s) (st : BitVec 8) (d : BitVec 56) : Inv (s.respond st d) :=
  h.of_sameTree rfl h.tableInv h.pointerOk h.packerInv h.faultInv

theorem Inv.raiseFault {s : State} (h : Inv s) (f : BlockFault) (k : BitVec 4) (w : Word) : Inv (s.raiseFault f k w) :=
  h.of_sameTree rfl h.tableInv h.pointerOk h.packerInv (FaultInv.raised f _)

theorem Inv.withTable {s : State} (h : Inv s) {ft : List (Nat × FtEntry)} (htable : TableInv ft) :
    Inv { s with ft := ft } :=
  h.of_sameTree rfl htable h.pointerOk h.packerInv h.faultInv

theorem Inv.withEncoder {s : State} (h : Inv s) {buf : Byte} {cnt : BitVec 3} {bits : BitVec 48}
    (hpacker : PackerInv buf cnt bits) (syms : BitVec 40) (bs : List Beat) :
    Inv { s with encSymCnt := syms, encBitCnt := bits, pkBuf := buf, pkCnt := cnt, beats := bs } :=
  h.of_sameTree rfl h.tableInv h.pointerOk hpacker h.faultInv

theorem Inv.withDecoder {s : State} (h : Inv s) {c : NodeIdx}
    (hpointer : ({ s with decCur := c } : State).pointerOk) (syms : BitVec 40) (bs : List Beat) :
    Inv { s with decCur := c, decSymCnt := syms, beats := bs } :=
  h.of_sameTree rfl h.tableInv hpointer h.packerInv h.faultInv

theorem Inv.withCodes {s : State} (h : Inv s) (hv : s.treeValid = true) {ct : List (Nat × CtEntry)}
    (hmem : Memory.wf 256 CtEntry.empty ct) (hcodes : CodesInv { s with ct := ct, codesValid := true }) :
    Inv { s with ct := ct, codesValid := true } := by
  obtain ⟨htable, harena, -, hpacker, hfault⟩ := (inv_iff s).1 h
  obtain ⟨htree, hqueue⟩ := harena.tree hv
  refine (inv_iff _).2 ⟨htable, ⟨harena.memory, fun _ => ⟨htree.of_same_tree rfl rfl rfl rfl, hqueue⟩, ?_⟩,
    ⟨hmem, fun _ => hcodes, ?_⟩, hpacker, hfault⟩
  · simp [hv]
  · simp

/-! ### The frequency unit, the packer and the decoder keep the invariant -/

theorem TableInv.write {ft : List (Nat × FtEntry)} (h : TableInv ft) (y : Symbol) (c : BitVec 32) :
    TableInv (Memory.write FtEntry.empty ft y.toNat ⟨true, c⟩) where
  memory := Memory.write_wf _ _ _ _ _ y.isLt h.memory
  noKey z := by
    rw [Memory.read_write]
    split
    · simp
    · exact h.noKey z

theorem PackerInv.emitBit {s : State} (h : PackerInv s.pkBuf s.pkCnt s.encBitCnt) (x : Bool) :
    PackerInv (s.emitBit x).pkBuf (s.emitBit x).pkCnt (s.emitBit x).encBitCnt := by
  obtain ⟨hhigh, hcount⟩ := h
  have hbits := satInc_toNat s.encBitCnt
  rcases s.emitBit_cases x with ⟨hcnt, heq⟩ | ⟨hcnt, heq⟩ <;> rw [heq] <;> constructor <;> dsimp only
  · decide
  · intro hlt
    rw [hcnt, show (7 : BitVec 3).toNat = 7 from rfl] at hcount
    rw [show (0 : BitVec 3).toNat = 0 from rfl]
    omega
  · have hnext : (s.pkCnt + 1).toNat = s.pkCnt.toNat + 1 := by bv_omega
    have hx : (BitVec.ofBool x).toNat < 2 := (BitVec.ofBool x).isLt
    have hbuf : (s.pkBuf.setWidth 7).toNat ≤ s.pkBuf.toNat := by
      rw [BitVec.toNat_setWidth]
      exact Nat.mod_le _ _
    rw [toNat_append_eq_add, hnext, pow_succ]
    omega
  · intro hlt
    have hnext : (s.pkCnt + 1).toNat = s.pkCnt.toNat + 1 := by bv_omega
    omega

theorem PackerInv.emitBits (l : List Bool) {s : State} (h : PackerInv s.pkBuf s.pkCnt s.encBitCnt) :
    PackerInv (s.emitBits l).pkBuf (s.emitBits l).pkCnt (s.emitBits l).encBitCnt := by
  induction l generalizing s with
  | nil => exact h
  | cons x l ih => exact ih (h.emitBit x)

/-- What a bit does when the decoder goes on: it moves to an internal node, or it emits a symbol and returns to the root. -/
theorem decBit_moved {x : Bool} {s u : State} {e : Option Symbol} (h : decBit x s = .moved u e) :
    s.treeValid = true ∧ ((e = none ∧ ∃ c, (s.nodeAt c).kind = .internal ∧ u = { s with decCur := c }) ∨
      ∃ y, e = some y ∧ u = s.emitSym y) := by
  rcases decBit_cases x s with ⟨-, hd⟩ | ⟨-, -, hd⟩ | ⟨n, hv, -, ⟨-, hd⟩ | ⟨-, -, hd⟩ | ⟨c, -, hc, hmove⟩⟩
  · simp [hd] at h
  · simp [hd] at h
  · simp [hd] at h
  · simp [hd] at h
  · obtain ⟨-, rfl⟩ := nodeRec?_some hc
    rcases hmove with ⟨hk, hd⟩ | ⟨-, hd⟩ | ⟨-, hd⟩ | ⟨-, hd⟩ <;> rw [hd] at h <;> cases h
    · exact ⟨hv, .inl ⟨rfl, _, hk, rfl⟩⟩
    · exact ⟨hv, .inr ⟨_, rfl, rfl⟩⟩

/-- Everything `DEC_END` can do: stop at a root that is no record's index, clear the count and answer it, or raise. -/
theorem execDecEnd_cases (f : Bool) (s : State) :
    execDecEnd f s = .fault .nodeIndexAbsent ∨
    execDecEnd f s = succeed { s with decSymCnt := 0 } (s.decSymCnt.setWidth 56) ∨
    ∃ g, execDecEnd f s = raised s g 0 (encode (.decEnd f)) := by
  unfold execDecEnd
  split_ifs
  · split
    · exact .inl rfl
    · split
      · exact .inr (.inl rfl)
      · exact .inr (.inr ⟨_, rfl⟩)
  · exact .inr (.inl rfl)
  · exact .inr (.inr ⟨_, rfl⟩)
  · exact .inr (.inr ⟨_, rfl⟩)

theorem Inv.decBit {s u : State} {x : Bool} {e : Option Symbol} (h : Inv s) (hd : decBit x s = .moved u e) : Inv u := by
  obtain ⟨hv, ⟨-, c, hc, rfl⟩ | ⟨y, -, rfl⟩⟩ := decBit_moved hd
  · exact h.withDecoder ⟨fun _ => hc, by simp [hv]⟩ _ _
  · obtain ⟨htree, -⟩ := h.tree hv
    obtain ⟨-, hroot⟩ := htree.rootLast
    exact h.withDecoder ⟨fun _ => hroot, by simp [hv]⟩ _ _

/-! ### What `CT_GEN` writes (43_code_table.md R141, R142) -/

/-- One iteration of a walk that runs to its end. -/
theorem walk_done_cons {node : List (Nat × NodeRec)} {k : Nat} {e : WalkEntry} {gs : List WalkEntry}
    {ct ct' : List (Nat × CtEntry)} (h : walk node k (e :: gs) ct = .done ct') :
    ∃ k', k = k' + 1 ∧ nodeRec? node e.node = some (nodeRec node e.node) ∧
      (((nodeRec node e.node).kind = .leaf ∧ e.path.length ≤ 255 ∧
          walk node k' gs (Memory.write CtEntry.empty ct (nodeRec node e.node).sym.toNat (CtEntry.ofPath e.path))
            = .done ct') ∨
        ((nodeRec node e.node).kind = .sentinel ∧ walk node k' gs ct = .done ct') ∨
        ((nodeRec node e.node).kind = .internal ∧
          walk node k' (⟨(nodeRec node e.node).left, e.path ++ [false]⟩ ::
            ⟨(nodeRec node e.node).right, e.path ++ [true]⟩ :: gs) ct = .done ct')) := by
  cases k with
  | zero => simp [walk] at h
  | succ k =>
    refine ⟨k, rfl, ?_⟩
    unfold walk at h
    cases hn : nodeRec? node e.node with
    | none => simp [hn] at h
    | some n =>
      obtain ⟨-, rfl⟩ := nodeRec?_some hn
      refine ⟨rfl, ?_⟩
      simp only [hn] at h
      split at h
      · next hk =>
        split at h
        · next hlen => exact .inl ⟨hk, hlen, h⟩
        · cases h
      · next hk => exact .inr (.inl ⟨hk, h⟩)
      · next hk => exact .inr (.inr ⟨hk, h⟩)
      · cases h

/-- A path starts at an internal record and goes on from its child. -/
theorem followPath_cons_iff {node : List (Nat × NodeRec)} {i j : NodeIdx} {x : Bool} {p : List Bool} :
    followPath node i (x :: p) = some j ↔ i.toNat < 511 ∧ (nodeRec node i).kind = .internal ∧
      followPath node ((nodeRec node i).child x) p = some j := by
  rw [followPath]
  by_cases hi : i.toNat < 511
  · rw [nodeRec?_of_lt node i hi]
    by_cases hk : (nodeRec node i).kind = .internal <;> simp [hi, hk]
  · have hnone : nodeRec? node i = none := if_neg hi
    simp [hnone, hi]

/-- A path with one edge more leads to the child along that edge. -/
theorem followPath_append {node : List (Nat × NodeRec)} {i j : NodeIdx} {p : List Bool} (x : Bool)
    (h : followPath node i p = some j) (hj : j.toNat < 511) (hk : (nodeRec node j).kind = .internal) :
    followPath node i (p ++ [x]) = some ((nodeRec node j).child x) := by
  induction p generalizing i with
  | nil =>
    cases h
    exact followPath_cons_iff.2 ⟨hj, hk, rfl⟩
  | cons b p ih =>
    obtain ⟨hi, hki, hp⟩ := followPath_cons_iff.1 h
    exact followPath_cons_iff.2 ⟨hi, hki, ih hp⟩

/-- The bits of a stored path are the path's (10_state.md R29). -/
theorem CtEntry.ofPath_getLsbD (p : List Bool) (hp : p.length ≤ 255) (k : Nat) :
    (CtEntry.ofPath p).bits.getLsbD k = p.getD k false := by
  rw [CtEntry.ofPath, pathBits, BitVec.getLsbD_setWidth, BitVec.getLsbD_ofBoolListLE]
  by_cases hk : k < 255
  · simp [hk]
  · simp [hk, List.getD_eq_getElem?_getD, List.getElem?_eq_none (Nat.le_trans hp (Nat.le_of_not_lt hk))]

theorem CtEntry.ofPath_len {p : List Bool} (hp : p.length ≤ 255) : (CtEntry.ofPath p).len.toNat = p.length :=
  Nat.mod_eq_of_lt (Nat.lt_succ_of_le hp)

theorem CtEntry.ofPath_code {p : List Bool} (hp : p.length ≤ 255) : (CtEntry.ofPath p).code = p := by
  rw [CtEntry.code, CtEntry.ofPath_len hp]
  refine List.ext_getElem (by simp) fun k hk hk' => ?_
  simp [CtEntry.ofPath_getLsbD p hp, List.getD_eq_getElem?_getD, hk']

/-- What holds of the code table during the walk: an entry is the reset entry or the path to its symbol's leaf. -/
structure PathTable (s : State) (ct : List (Nat × CtEntry)) : Prop where
  memory : Memory.wf 256 CtEntry.empty ct
  entries : ∀ y : Symbol, Memory.read CtEntry.empty ct y.toNat = CtEntry.empty ∨
    ∃ p : List Bool, p ≠ [] ∧ p.length ≤ 255 ∧ s.leadsTo p y ∧ Memory.read CtEntry.empty ct y.toNat = CtEntry.ofPath p

/-- What holds during the walk of `CT_GEN`, `v` being the nodes popped so far: a stacked path leads from the root to its node and,
but for the root's, is not empty; the root and each child of a popped node are popped or stacked; and each popped leaf has a code. -/
structure WalkTable (s : State) (v : List NodeIdx) (gs : List WalkEntry) (ct : List (Nat × CtEntry)) : Prop where
  table : PathTable s ct
  paths : ∀ e ∈ gs, followPath s.node s.root e.path = some e.node ∧ (e.path = [] → e.node = s.root)
  root : s.root ∈ v ++ gs.map WalkEntry.node
  children : ∀ i ∈ v, ∀ x j, s.isChild i x j → j ∈ v ++ gs.map WalkEntry.node
  coded : ∀ i ∈ v, (s.nodeAt i).kind = .leaf → (Memory.read CtEntry.empty ct (s.nodeAt i).sym.toNat).v = true

theorem PathTable.nil (s : State) : PathTable s [] := ⟨by simp [Memory.wf], fun _ => .inl rfl⟩

theorem PathTable.write {s : State} {ct : List (Nat × CtEntry)} (h : PathTable s ct) {p : List Bool} {y : Symbol}
    (hne : p ≠ []) (hlen : p.length ≤ 255) (hp : s.leadsTo p y) :
    PathTable s (Memory.write CtEntry.empty ct y.toNat (CtEntry.ofPath p)) where
  memory := Memory.write_wf _ _ _ _ _ y.isLt h.memory
  entries z := by
    rw [Memory.read_write]
    split
    · next heq => exact .inr ⟨p, hne, hlen, BitVec.eq_of_toNat_eq heq ▸ hp, rfl⟩
    · exact h.entries z

theorem WalkTable.start (s : State) : WalkTable s [] [⟨s.root, []⟩] [] where
  table := PathTable.nil s
  paths e he := by
    obtain rfl := List.mem_singleton.1 he
    exact ⟨rfl, fun _ => rfl⟩
  root := by simp
  children := by simp
  coded := by simp

/-- A popped node makes room for its children. -/
theorem WalkTable.pop {s : State} {v : List NodeIdx} {e : WalkEntry} {gs : List WalkEntry} {ct : List (Nat × CtEntry)}
    (hw : WalkTable s v (e :: gs) ct) {ct' : List (Nat × CtEntry)} (kids : List WalkEntry)
    (hkids : ∀ x j, s.isChild e.node x j → j ∈ kids.map WalkEntry.node)
    (hpaths : ∀ e' ∈ kids, followPath s.node s.root e'.path = some e'.node ∧ e'.path ≠ [])
    (htable : PathTable s ct')
    (hkeep : ∀ y : Symbol, (Memory.read CtEntry.empty ct y.toNat).v = true →
      (Memory.read CtEntry.empty ct' y.toNat).v = true)
    (hleaf : (s.nodeAt e.node).kind = .leaf →
      (Memory.read CtEntry.empty ct' (s.nodeAt e.node).sym.toNat).v = true) :
    WalkTable s (e.node :: v) (kids ++ gs) ct' := by
  have hmem (j : NodeIdx) (hj : j ∈ v ++ (e :: gs).map WalkEntry.node) :
      j ∈ e.node :: v ++ (kids ++ gs).map WalkEntry.node := by
    simp only [List.map_cons, List.map_append, List.mem_append, List.mem_cons] at hj ⊢
    tauto
  constructor
  case table => exact htable
  case paths =>
    intro e' he'
    rcases List.mem_append.1 he' with hkid | hold
    · obtain ⟨hfollow, hne⟩ := hpaths e' hkid
      exact ⟨hfollow, fun hnil => absurd hnil hne⟩
    · exact hw.paths e' (List.mem_cons_of_mem _ hold)
  case root => exact hmem _ hw.root
  case children =>
    intro i hi x j hc
    rcases List.mem_cons.1 hi with rfl | hi
    · exact List.mem_append_right _ (by rw [List.map_append]; exact List.mem_append_left _ (hkids x j hc))
    · exact hmem j (hw.children i hi x j hc)
  case coded =>
    intro i hi hk
    rcases List.mem_cons.1 hi with rfl | hi
    · exact hleaf hk
    · exact hkeep _ (hw.coded i hi hk)

/-- A walk that runs to its end has popped every record it could reach. -/
theorem WalkTable.of_walk_done {s : State} (h : TreeInv s) {k : Nat} {v : List NodeIdx} {gs : List WalkEntry}
    {ct ct' : List (Nat × CtEntry)} (hw : WalkTable s v gs ct) (hdone : walk s.node k gs ct = .done ct') :
    ∃ v', WalkTable s v' [] ct' := by
  induction k generalizing v gs ct with
  | zero =>
    cases gs with
    | nil => cases hdone; exact ⟨v, hw⟩
    | cons e gs => cases hdone
  | succ k ih =>
    cases gs with
    | nil => cases hdone; exact ⟨v, hw⟩
    | cons e gs =>
      obtain ⟨hfollow, hnil⟩ := hw.paths e (by simp)
      obtain ⟨-, hroot⟩ := h.rootLast
      obtain ⟨_, ⟨⟩, hnode, ⟨hk, hlen, hwalk⟩ | ⟨hk, hwalk⟩ | ⟨hk, hwalk⟩⟩ := walk_done_cons hdone
      · have hne : e.path ≠ [] := fun hp => by
          rw [← hnil hp, State.nodeAt, hk] at hroot
          cases hroot
        refine ih (hw.pop [] ?_ (by simp) (hw.table.write hne hlen ⟨_, hfollow, hk, rfl⟩) ?_ ?_) hwalk
        · rintro x j ⟨hint, -⟩
          rw [State.nodeAt, hk] at hint
          cases hint
        · intro y hy
          rw [Memory.read_write]
          split
          · rfl
          · exact hy
        · intro _
          rw [State.nodeAt, Memory.read_write_same]
          rfl
      · refine ih (hw.pop [] ?_ (by simp) hw.table (fun _ => id) ?_) hwalk
        · rintro x j ⟨hint, -⟩
          rw [State.nodeAt, hk] at hint
          cases hint
        · intro hleaf
          rw [State.nodeAt, hk] at hleaf
          cases hleaf
      · obtain ⟨hlt, -⟩ := nodeRec?_some hnode
        refine ih (hw.pop [_, _] ?_ ?_ hw.table (fun _ => id) ?_) hwalk
        · rintro x j ⟨-, rfl⟩
          cases x <;> simp [State.nodeAt, NodeRec.child]
        · intro e' he'
          rcases List.mem_pair.1 he' with rfl | rfl
          · exact ⟨followPath_append false hfollow hlt hk, by simp⟩
          · exact ⟨followPath_append true hfollow hlt hk, by simp⟩
        · intro hleaf
          rw [State.nodeAt, hk] at hleaf
          cases hleaf

/-- Every record of a tree is popped, from the root down. -/
theorem WalkTable.mem_visited {s : State} (h : TreeInv s) {v : List NodeIdx} {ct : List (Nat × CtEntry)}
    (hw : WalkTable s v [] ct) (i : NodeIdx) (hi : i.toNat < s.nnode.toNat) : i ∈ v := by
  by_cases hroot : i = s.root
  · simpa [hroot] using hw.root
  · obtain ⟨p, x, hc, -⟩ := h.oneParent i hi hroot
    have hlt := h.child_lt hc
    have hp := hw.mem_visited h p (h.lt_of_internal hc.1)
    simpa using hw.children p hp x i hc
termination_by s.nnode.toNat - i.toNat

/-- The table that a whole walk wrote holds the codes of the tree. -/
theorem WalkTable.codesInv {s : State} (h : TreeInv s) (hv : s.treeValid = true) {v : List NodeIdx}
    {ct : List (Nat × CtEntry)} (hw : WalkTable s v [] ct) : CodesInv { s with ct := ct, codesValid := true } := by
  constructor
  case tree => exact hv
  case covers =>
    intro i (hk : (s.nodeAt i).kind = .leaf)
    exact hw.coded i (hw.mem_visited h i ((h.allocated i).1 (by simp [hk]))) hk
  case paths =>
    intro y (hy : (Memory.read CtEntry.empty ct y.toNat).v = true)
    rcases hw.table.entries y with he | ⟨p, hne, hlen, hp, he⟩
    · rw [he] at hy
      cases hy
    · rw [State.ctAt, he, CtEntry.ofPath_len hlen, CtEntry.ofPath_code hlen]
      exact ⟨List.length_pos_iff.2 hne, hp⟩
  case highBits =>
    intro y k
    rw [State.ctAt]
    rcases hw.table.entries y with he | ⟨p, -, hlen, -, he⟩ <;> rw [he]
    · exact fun _ => BitVec.getLsbD_zero
    · rw [CtEntry.ofPath_len hlen, CtEntry.ofPath_getLsbD p hlen]
      exact fun hk => by simp [List.getD_eq_getElem?_getD, List.getElem?_eq_none hk]
  case invalid =>
    intro y
    rw [State.ctAt]
    rcases hw.table.entries y with he | ⟨p, -, -, -, he⟩ <;> rw [he]
    · exact fun _ => rfl
    · exact fun hv => absurd hv (by simp [CtEntry.ofPath])

/-! ### Every command keeps the invariant -/

/-- If the outcome is a next state, it meets the invariant. -/
def nextInv (o : Host.Outcome State Fault Refusal) : Prop := ∀ t, o = .next t → Inv t

theorem nextInv_succeed {s : State} (h : Inv s) (d : BitVec 56) : nextInv (succeed s d) := by
  rintro t ⟨⟩
  exact h.respond _ _

theorem nextInv_raised {s : State} (h : Inv s) (f : BlockFault) (k : BitVec 4) (w : Word) :
    nextInv (raised s f k w) := by
  rintro t ⟨⟩
  exact h.raiseFault f k w

theorem nextInv_fault (f : Fault) : nextInv (.fault f) := by
  rintro t ⟨⟩

theorem nextInv_execClr (s : State) : nextInv (execClr s) :=
  nextInv_succeed (Inv.cleared rfl TableInv.nil FaultInv.none) _

section
variable {s : State} (h : Inv s)
include h

theorem nextInv_execFaSym (y : Symbol) : nextInv (execFaSym y s) := by
  unfold execFaSym
  split
  · exact nextInv_raised h _ _ _
  · exact nextInv_succeed (h.withTable (h.tableInv.write y _)) _

theorem nextInv_execFtSet (y : Symbol) (c : BitVec 32) : nextInv (execFtSet y c s) :=
  nextInv_succeed (h.withTable (h.tableInv.write y c)) _

theorem nextInv_execTbBuild : nextInv (execTbBuild s) := by
  intro t ht
  have hscan := Scanned.clearDerived s
  have hclear : Inv s.clearDerived := Inv.cleared rfl h.tableInv h.faultInv
  rcases execTbBuild_cases s t ht with ⟨hnone, rfl⟩ | ⟨hsome, hsame, rfl⟩
  · rw [hscan.unchanged hnone]
    exact hclear.raiseFault _ _ _
  · obtain ⟨htree, harena, hvalid, hpq, hcur⟩ := hscan.buildTree hsome
    generalize s.clearDerived.scanTable.buildTree = u at hsame htree harena hvalid hpq hcur ⊢
    have hroot : (u.nodeAt u.decCur).kind = .internal := hcur ▸ htree.rootLast.2
    refine Inv.respond ((inv_iff u).2 ⟨?_, ⟨harena, fun _ => ⟨htree, hpq, hroot⟩, by simp [hvalid]⟩, ?_, ?_, ?_⟩) _ _
    all_goals rw [hsame]
    · exact h.tableInv
    · exact CodeTableInv.cleared rfl rfl
    · exact PackerInv.zero
    · exact h.faultInv

theorem nextInv_execNdInfo (n : NodeIdx) : nextInv (execNdInfo n s) := by
  unfold execNdInfo
  split
  · exact nextInv_succeed h _
  · exact nextInv_fault _

theorem nextInv_execNdFreq (n : NodeIdx) : nextInv (execNdFreq n s) := by
  unfold execNdFreq
  split
  · exact nextInv_succeed h _
  · exact nextInv_fault _

theorem nextInv_execCtGen : nextInv (execCtGen s) := by
  unfold execCtGen
  split
  · next hv =>
    obtain ⟨htree, -⟩ := h.tree hv
    obtain ⟨ct, hwalk⟩ := walk_completes htree 511 [] _ [] (WalkInv.start htree) rfl
    rw [show Config.nNodeMax = 511 from rfl, hwalk]
    obtain ⟨v, hw⟩ := (WalkTable.start s).of_walk_done htree hwalk
    exact nextInv_succeed (h.withCodes hv hw.table.memory (hw.codesInv htree hv)) _
  · exact nextInv_raised h _ _ _

theorem nextInv_execEncSym (y : Symbol) : nextInv (execEncSym y s) := by
  unfold execEncSym
  split
  · obtain ⟨-, -, hframe⟩ := s.emitBits_frame (s.ctAt y).code
    dsimp only
    refine nextInv_succeed ?_ _
    rw [hframe]
    exact h.withEncoder (h.packerInv.emitBits _) _ _
  · exact nextInv_raised h _ _ _

theorem nextInv_execEncFlush : nextInv (execEncFlush s) := by
  unfold execEncFlush
  dsimp only
  split
  · exact nextInv_succeed (h.withEncoder PackerInv.zero _ _) _
  · exact nextInv_succeed (h.withEncoder PackerInv.zero _ _) _

theorem nextInv_execDecBit (x : Bool) : nextInv (execDecBit x s) := by
  unfold execDecBit
  split
  · next hd => exact nextInv_succeed (h.decBit hd) _
  · next hd => exact nextInv_succeed (h.decBit hd) _
  · exact nextInv_raised h _ _ _
  · exact nextInv_fault _

theorem nextInv_execDecEnd (f : Bool) : nextInv (execDecEnd f s) := by
  rcases execDecEnd_cases f s with hd | hd | ⟨g, hd⟩ <;> rw [hd]
  · exact nextInv_fault _
  · exact nextInv_succeed (h.withDecoder h.pointerOk _ _) _
  · exact nextInv_raised h _ _ _

end

theorem nextInv_decBits (w : Word) (l : List Bool) (i k : Nat) {s : State} (h : Inv s) :
    nextInv (decBits w l i k s) := by
  induction l generalizing i k s with
  | nil => exact nextInv_succeed h _
  | cons x l ih =>
    unfold decBits
    split
    · next hd => exact ih _ _ (h.decBit hd)
    · next hd => exact ih _ _ (h.decBit hd)
    · exact nextInv_raised h _ _ _
    · exact nextInv_fault _

theorem nextInv_exec {s : State} (h : Inv s) (i : Instr) : nextInv (exec i s) := by
  have hsame (d : BitVec 56) : nextInv (succeed s d) := nextInv_succeed h d
  cases i with
  | nop | rdreg r | ftRd y | ctLen y | ctBits y k => exact hsame _
  | clr => exact nextInv_execClr s
  | faSym y => exact nextInv_execFaSym h y
  | ftSet y c => exact nextInv_execFtSet h y c
  | tbBuild => exact nextInv_execTbBuild (s := s) h
  | ndInfo n => exact nextInv_execNdInfo h n
  | ndFreq n => exact nextInv_execNdFreq h n
  | ctGen => exact nextInv_execCtGen h
  | encSym y => exact nextInv_execEncSym h y
  | encFlush => exact nextInv_execEncFlush h
  | decBit x => exact nextInv_execDecBit h x
  | decByte y n => exact nextInv_decBits (encode (.decByte y n)) (byteBits y n) 0 0 h
  | decEnd f => exact nextInv_execDecEnd h f

theorem nextInv_acceptWord {s : State} (h : Inv s) (w : Word) : nextInv (acceptWord w s) := by
  rcases acceptWord_cases w s with ⟨-, -, hacc⟩ | ⟨-, -, hacc⟩ | ⟨i, -, -, hacc⟩ <;> rw [hacc]
  · rintro t ⟨⟩
    exact h.respond _ _
  · exact nextInv_raised h _ _ _
  · exact nextInv_exec h i

/-- Settles O50: idling keeps the state, `RST` gives the reset state, and an accepted word keeps the invariant command by command;
`TB_BUILD` grows a forest whose roots are queued until one root is left, and `CT_GEN` pops every record of the tree. -/
theorem stepKeepsTheInvariant : Obligations.StepKeepsTheInvariant := by
  intro s t hinv ht
  rcases step_cases s with ⟨-, hstep⟩ | ⟨rest, -, hstep⟩ | ⟨w, rest, -, hstep⟩ <;> rw [hstep] at ht
  · cases ht
    exact hinv
  · cases ht
    exact resetMeetsTheInvariant rest
  · exact nextInv_acceptWord (hinv.withInputs rest) w t ht

end Sys2Proof.Machine

namespace Sys2Proof.Machine

open Sys2Proof.Spec

/-! ### Reset values (10_state.md R55) -/

theorem atReset_reset (bs : List Beat) (moves : List HostInput) :
    atReset { State.reset with beats := bs, inputs := moves } :=
  ⟨fun _ => rfl, fun _ => rfl, fun _ => rfl, rfl, rfl, rfl, rfl, rfl, rfl, rfl, rfl, rfl, rfl, rfl, rfl, rfl, rfl, rfl, rfl⟩

/-- Settles O7: `RST` and `CLR` both build the reset state, with the traces emptied and with the traces and the answer kept. -/
theorem resetAndClrValues : Obligations.ResetAndClrValues := by
  refine ⟨⟨atReset_reset [] [], rfl⟩, fun s rest hin => ?_, fun s => ?_⟩
  · exact ⟨{ State.reset with inputs := rest }, by simp [step, takeInput, hin, State.hardReset], atReset_reset [] rest, rfl⟩
  · refine ⟨s.clearSession.respond statusOk 0, rfl, atReset_reset _ s.inputs, ?_⟩
    rw [respond_eq_answer]
    rfl

/-! ### Who writes what (10_state.md R20; 20_memory.md R61) -/

/-- Between `s` and `t` no element changed but those a command with this name may write. -/
structure Owned (m : Mnemonic) (s t : State) : Prop where
  table : m ∉ [.faSym, .ftSet, .clr] → t.ft = s.ft
  tree : m ∉ [.tbBuild, .clr] →
    t.node = s.node ∧ t.nnode = s.nnode ∧ t.nleaf = s.nleaf ∧ t.root = s.root ∧ t.treeValid = s.treeValid ∧ t.pq = s.pq
  codes : m ∉ [.ctGen, .tbBuild, .clr] → t.ct = s.ct ∧ t.codesValid = s.codesValid
  encoder : m ∉ [.encSym, .encFlush, .tbBuild, .clr] →
    t.encSymCnt = s.encSymCnt ∧ t.encBitCnt = s.encBitCnt ∧ t.pkBuf = s.pkBuf ∧ t.pkCnt = s.pkCnt
  decoder : m ∉ [.decBit, .decByte, .decEnd, .tbBuild, .clr] → t.decCur = s.decCur ∧ t.decSymCnt = s.decSymCnt
  fault : m ≠ .clr → s.fault = true → t.fault = true
  bits : m ≠ .encSym → t.bitTrace = s.bitTrace
  bytes : m ∉ [.encSym, .encFlush] → t.byteTrace = s.byteTrace
  symbols : m ∉ [.decBit, .decByte] → t.symTrace = s.symTrace
  moves : t.inputs = s.inputs

/-- If the outcome is a next state, only what `m` owns has changed since `s`. -/
def changesOwned (m : Mnemonic) (s : State) (o : Host.Outcome State Fault Refusal) : Prop :=
  ∀ t, o = .next t → Owned m s t

theorem Owned.refl (m : Mnemonic) (s : State) : Owned m s s := by
  constructor <;> simp

theorem Owned.respond {m : Mnemonic} {s u : State} (h : Owned m s u) (st : BitVec 8) (d : BitVec 56) :
    Owned m s (u.respond st d) :=
  { h with
    bits := fun hm => (u.bitTrace_respond st d).trans (h.bits hm)
    bytes := fun hm => (u.byteTrace_respond st d).trans (h.bytes hm)
    symbols := fun hm => (u.symTrace_respond st d).trans (h.symbols hm) }

theorem Owned.latch {m : Mnemonic} {s u : State} (h : Owned m s u) (err : BitVec 8) (info : BitVec 36) :
    Owned m s { u with fault := true, err := err, faultInfo := info } :=
  { h with fault := fun _ _ => rfl }

theorem changesOwned_succeed {m : Mnemonic} {s u : State} (h : Owned m s u) (d : BitVec 56) :
    changesOwned m s (succeed u d) := by
  rintro t ⟨⟩
  exact h.respond _ _

theorem changesOwned_raised {m : Mnemonic} {s u : State} (h : Owned m s u) (f : BlockFault) (k : BitVec 4) (w : Word) :
    changesOwned m s (raised u f k w) := by
  rintro t ⟨⟩
  exact (h.latch _ _).respond _ _

theorem changesOwned_fault (m : Mnemonic) (s : State) (f : Fault) : changesOwned m s (.fault f) := by
  rintro t ⟨⟩

theorem Owned.setFt {m : Mnemonic} (hm : m ∈ [.faSym, .ftSet]) (s : State) (y : Symbol) (e : FtEntry) :
    Owned m s (s.setFt y e) :=
  { Owned.refl m s with table := fun hout => absurd (List.mem_append_left [Mnemonic.clr] hm) hout }

theorem changesOwned_execFaSym (y : Symbol) (s : State) : changesOwned .faSym s (execFaSym y s) := by
  unfold execFaSym
  split
  · exact changesOwned_raised (Owned.refl _ s) _ _ _
  · exact changesOwned_succeed (Owned.setFt (by simp) s y _) _

theorem changesOwned_execFtSet (y : Symbol) (c : BitVec 32) (s : State) : changesOwned .ftSet s (execFtSet y c s) :=
  changesOwned_succeed (Owned.setFt (by simp) s y _) _

theorem changesOwned_execClr (s : State) : changesOwned .clr s (execClr s) :=
  changesOwned_succeed (by constructor <;> simp [State.bitTrace, State.byteTrace, State.symTrace]) _

theorem Owned.of_sameOutsideTree {s u : State} (h : s.clearDerived.sameOutsideTree u) : Owned .tbBuild s u := by
  rw [h]
  constructor <;> simp [State.bitTrace, State.byteTrace, State.symTrace]

theorem changesOwned_execTbBuild (s : State) : changesOwned .tbBuild s (execTbBuild s) := by
  unfold execTbBuild
  have hscan := s.clearDerived.sameOutsideTree_scanTable
  dsimp only
  split
  · exact changesOwned_raised (Owned.of_sameOutsideTree hscan) _ _ _
  · exact changesOwned_succeed
      (Owned.of_sameOutsideTree (State.sameOutsideTree_trans hscan (State.sameOutsideTree_buildTree _))) _

theorem changesOwned_execNdInfo (i : NodeIdx) (s : State) : changesOwned .ndInfo s (execNdInfo i s) := by
  unfold execNdInfo
  split
  · exact changesOwned_succeed (Owned.refl _ s) _
  · exact changesOwned_fault _ _ _

theorem changesOwned_execNdFreq (i : NodeIdx) (s : State) : changesOwned .ndFreq s (execNdFreq i s) := by
  unfold execNdFreq
  split
  · exact changesOwned_succeed (Owned.refl _ s) _
  · exact changesOwned_fault _ _ _

theorem changesOwned_execCtGen (s : State) : changesOwned .ctGen s (execCtGen s) := by
  have hcodes (ct : List (Nat × CtEntry)) (v : Bool) : Owned .ctGen s { s with ct := ct, codesValid := v } :=
    { Owned.refl .ctGen s with codes := by simp }
  unfold execCtGen
  split
  · split
    · exact changesOwned_succeed (hcodes _ _) _
    · exact changesOwned_raised (hcodes _ _) _ _ _
    · exact changesOwned_fault _ _ _
  · exact changesOwned_raised (Owned.refl _ s) _ _ _

theorem changesOwned_execEncSym (y : Symbol) (s : State) : changesOwned .encSym s (execEncSym y s) := by
  unfold execEncSym
  dsimp only
  split
  · obtain ⟨-, hsyms, hframe⟩ := s.emitBits_frame (s.ctAt y).code
    refine changesOwned_succeed ?_ _
    generalize s.emitBits (s.ctAt y).code = u at hsyms hframe ⊢
    have hu : Owned .encSym s u := by
      rw [hframe]
      exact { Owned.refl .encSym s with
        encoder := by simp, bits := by simp, bytes := by simp, symbols := fun _ => hsyms }
    exact { hu with encoder := by simp }
  · exact changesOwned_raised (Owned.refl _ s) _ _ _

theorem changesOwned_execEncFlush (s : State) : changesOwned .encFlush s (execEncFlush s) := by
  unfold execEncFlush
  dsimp only
  split
  · refine changesOwned_succeed ?_ _
    exact { Owned.refl .encFlush s with encoder := by simp }
  · refine changesOwned_succeed ?_ _
    exact { Owned.refl .encFlush s with
      encoder := by simp, bytes := by simp
      bits := fun _ => s.bitTrace_emit_byte _, symbols := fun _ => s.symTrace_emit_byte _ }

theorem Owned.decBit {m : Mnemonic} (hm : m ∈ [.decBit, .decByte]) {s u u' : State} {x : Bool} {e : Option Symbol}
    (h : Owned m s u) (hd : decBit x u = .moved u' e) : Owned m s u' := by
  have hpointer : m ∈ [.decBit, .decByte, .decEnd, .tbBuild, .clr] := List.mem_append_left [Mnemonic.decEnd, .tbBuild, .clr] hm
  obtain ⟨-, ⟨-, c, -, rfl⟩ | ⟨y, -, rfl⟩⟩ := decBit_moved hd
  · exact { h with decoder := fun hout => absurd hpointer hout }
  · exact { h with
      decoder := fun hout => absurd hpointer hout, symbols := fun hout => absurd hm hout
      bits := fun hb => (u.bitTrace_emit_sym y).trans (h.bits hb)
      bytes := fun hb => (u.byteTrace_emit_sym y).trans (h.bytes hb) }

theorem changesOwned_execDecBit (x : Bool) (s : State) : changesOwned .decBit s (execDecBit x s) := by
  unfold execDecBit
  split
  · next hd => exact changesOwned_succeed ((Owned.refl _ s).decBit (by simp) hd) _
  · next hd => exact changesOwned_succeed ((Owned.refl _ s).decBit (by simp) hd) _
  · exact changesOwned_raised (Owned.refl _ s) _ _ _
  · exact changesOwned_fault _ _ _

/-- The loop of `DEC_BYTE` may stand behind bits already decoded. -/
theorem changesOwned_decBits (w : Word) (l : List Bool) (i k : Nat) {s u : State} (h : Owned .decByte s u) :
    changesOwned .decByte s (decBits w l i k u) := by
  induction l generalizing i k u with
  | nil => exact changesOwned_succeed h _
  | cons x l ih =>
    unfold decBits
    split
    · next hd => exact ih _ _ (h.decBit (by simp) hd)
    · next hd => exact ih _ _ (h.decBit (by simp) hd)
    · exact changesOwned_raised h _ _ _
    · exact changesOwned_fault _ _ _

theorem changesOwned_execDecEnd (f : Bool) (s : State) : changesOwned .decEnd s (execDecEnd f s) := by
  rcases execDecEnd_cases f s with hd | hd | ⟨g, hd⟩ <;> rw [hd]
  · exact changesOwned_fault _ _ _
  · refine changesOwned_succeed ?_ _
    exact { Owned.refl .decEnd s with decoder := by simp }
  · exact changesOwned_raised (Owned.refl _ s) _ _ _

theorem changesOwned_exec (i : Instr) (s : State) : changesOwned i.mnemonic s (exec i s) := by
  have hsame (m : Mnemonic) (d : BitVec 56) : changesOwned m s (succeed s d) := changesOwned_succeed (Owned.refl m s) d
  cases i with
  | nop | rdreg r | ftRd y | ctLen y | ctBits y k => exact hsame _ _
  | clr => exact changesOwned_execClr s
  | faSym y => exact changesOwned_execFaSym y s
  | ftSet y c => exact changesOwned_execFtSet y c s
  | tbBuild => exact changesOwned_execTbBuild s
  | ndInfo n => exact changesOwned_execNdInfo n s
  | ndFreq n => exact changesOwned_execNdFreq n s
  | ctGen => exact changesOwned_execCtGen s
  | encSym y => exact changesOwned_execEncSym y s
  | encFlush => exact changesOwned_execEncFlush s
  | decBit x => exact changesOwned_execDecBit x s
  | decByte y n => exact changesOwned_decBits (encode (.decByte y n)) (byteBits y n) 0 0 (Owned.refl _ s)
  | decEnd f => exact changesOwned_execDecEnd f s

/-- Settles O12: each command's frame, element by element and trace by trace. -/
theorem elementsAreWrittenByTheirOwners : Obligations.ElementsAreWrittenByTheirOwners := by
  intro i s t ht
  have h := changesOwned_exec i s t ht
  exact ⟨h.table, h.tree, h.codes, h.encoder, h.decoder, h.fault, h.bits, h.bytes, h.symbols, h.moves⟩

end Sys2Proof.Machine

namespace Sys2Proof.Machine

open Sys2Proof.Spec

/-! ### Record 511 (log 9) -/

theorem nodeRec?_511 (node : List (Nat × NodeRec)) : nodeRec? node 511#9 = none := rfl

theorem decBit_absent_of_pointer {s : State} (x : Bool) (hv : s.treeValid = true) (hcur : s.decCur = 511) :
    decBit x s = .absent := by
  simp [decBit, hv, hcur, nodeRec?_511]

theorem decBit_absent_of_child {s : State} {x : Bool} (hv : s.treeValid = true) (hcur : s.decCur.toNat ≤ 510)
    (hc : s.isChild s.decCur x 511) : decBit x s = .absent := by
  obtain ⟨hk, hchild⟩ := hc
  rw [State.nodeAt] at hk hchild
  simp [decBit, hv, nodeRec?_of_lt _ _ (Nat.lt_succ_of_le hcur), hk, hchild, nodeRec?_511]

theorem execDecBit_of_absent {s : State} {x : Bool} (h : decBit x s = .absent) :
    execDecBit x s = .fault .nodeIndexAbsent := by
  rw [execDecBit, h]

theorem execDecBit_fault {s : State} {x : Bool} {f : Fault} (h : execDecBit x s = .fault f) :
    decBit x s = .absent ∧ f = .nodeIndexAbsent := by
  unfold execDecBit at h
  split at h
  · cases h
  · cases h
  · cases h
  · next hd =>
    cases h
    exact ⟨hd, rfl⟩

theorem walk_stops_left (node : List (Nat × NodeRec)) {k m : Nat} (hkm : k < m) {e : WalkEntry} (gs : List WalkEntry)
    (ct : List (Nat × CtEntry)) (h : followPath node e.node (List.replicate k false) = some 511) :
    walk node m (e :: gs) ct = .stop .nodeIndexAbsent := by
  induction k generalizing m e gs with
  | zero =>
    obtain ⟨m, rfl⟩ := Nat.exists_eq_succ_of_ne_zero (Nat.ne_of_gt hkm)
    have he : e.node = 511 := Option.some.inj h
    simp [walk, he, nodeRec?_511]
  | succ k ih =>
    obtain ⟨m, rfl⟩ := Nat.exists_eq_succ_of_ne_zero (Nat.ne_of_gt (Nat.zero_lt_of_lt hkm))
    obtain ⟨hlt, hk, hrest⟩ := followPath_cons_iff.1 h
    simp only [walk, nodeRec?_of_lt node _ hlt, hk]
    exact ih (Nat.lt_of_succ_lt_succ hkm) _ hrest

/-- A walk that runs to its end finds no way to record 511. -/
theorem walk_done_no_path_511 {node : List (Nat × NodeRec)} {k : Nat} {gs : List WalkEntry} {ct ct' : List (Nat × CtEntry)}
    (h : walk node k gs ct = .done ct') {e : WalkEntry} (he : e ∈ gs) (p : List Bool) :
    followPath node e.node p ≠ some 511 := by
  induction k generalizing gs ct e p with
  | zero =>
    cases gs with
    | nil => cases he
    | cons d gs => cases h
  | succ k ih =>
    cases gs with
    | nil => cases he
    | cons d gs =>
      obtain ⟨_, ⟨⟩, hnode, hcases⟩ := walk_done_cons h
      rcases List.mem_cons.1 he with rfl | he
      · cases p with
        | nil =>
          intro hp
          obtain ⟨hlt, -⟩ := nodeRec?_some hnode
          rw [show e.node = 511 from Option.some.inj hp] at hlt
          exact absurd hlt (by decide)
        | cons x p =>
          intro hp
          obtain ⟨-, hk, hp⟩ := followPath_cons_iff.1 hp
          rcases hcases with ⟨hk', -⟩ | ⟨hk', -⟩ | ⟨-, hwalk⟩
          · simp [hk] at hk'
          · simp [hk] at hk'
          · cases x
            · exact ih hwalk (List.mem_cons_self ..) p hp
            · exact ih hwalk (List.mem_cons_of_mem _ (List.mem_cons_self ..)) p hp
      · rcases hcases with ⟨-, -, hwalk⟩ | ⟨-, hwalk⟩ | ⟨-, hwalk⟩
        · exact ih hwalk he p
        · exact ih hwalk he p
        · exact ih hwalk (List.mem_cons_of_mem _ (List.mem_cons_of_mem _ he)) p

theorem execCtGen_codes {s t : State} (hv : s.treeValid = true) (h : execCtGen s = .next t) (hc : t.codesValid = true) :
    ∃ ct, walk s.node 511 [⟨s.root, []⟩] [] = .done ct := by
  rw [execCtGen, if_pos hv, show Config.nNodeMax = 511 from rfl] at h
  split at h
  · next ct hwalk => exact ⟨ct, hwalk⟩
  · cases h
    cases hc
  · cases h

/-! ### A run of `DEC_BIT` and the loop of `DEC_BYTE` (45_decoder.md R164) -/

/-- The state with these traces and these moves of the host. -/
def State.withPorts (s : State) (bs : List Beat) (moves : List HostInput) : State :=
  { s with beats := bs, inputs := moves }

/-- The same result of a bit where the traces before it and the host's moves were these. -/
def DecResult.withPorts (bs : List Beat) (moves : List HostInput) : DecResult → DecResult
  | .moved u e => .moved (u.withPorts (bs ++ e.toList.map .sym) moves) e
  | .raises f => .raises f
  | .absent => .absent

/-- The decoder reads neither the traces nor the host's moves. -/
theorem decBit_withPorts (x : Bool) (s : State) (bs : List Beat) (moves : List HostInput) :
    decBit x (s.withPorts bs moves) = (decBit x s).withPorts bs moves := by
  rcases decBit_cases x s with ⟨hv, -⟩ | ⟨hv, hn, -⟩ | ⟨n, hv, hn, ⟨hk, -⟩ | ⟨hk, hc, -⟩ | ⟨c, hk, hc, hmove⟩⟩
  · simp [decBit, State.withPorts, hv, DecResult.withPorts]
  · simp [decBit, State.withPorts, hv, hn, DecResult.withPorts]
  · simp [decBit, State.withPorts, hv, hn, hk, DecResult.withPorts]
  · simp [decBit, State.withPorts, hv, hn, hk, hc, DecResult.withPorts]
  · rcases hmove with ⟨hck, -⟩ | ⟨hck, -⟩ | ⟨hck, -⟩ | ⟨hck, -⟩
    all_goals simp [decBit, State.withPorts, hv, hn, hk, hc, hck, DecResult.withPorts, State.emitSym, State.emit]

theorem decode_encode_decBit (x : Bool) : decode (encode (.decBit x)) = .ok (.decBit x) := by
  cases x <;> decide

/-- The first step of a run. -/
theorem run_succ_next {M : Host.Core} {k : Nat} {s u : M.State} (h : M.run (k + 1) s = .next u) :
    ∃ t, M.step s = .next t ∧ M.run k t = .next u := by
  rw [Host.Core.run] at h
  split at h
  · next t ht => exact ⟨t, ht, h⟩
  · cases h
  · cases h

theorem run_core_succ_next {k : Nat} {s u : State} (h : Host.Core.run core (k + 1) s = .next u) :
    ∃ t, step s = .next t ∧ Host.Core.run core k t = .next u := run_succ_next h

/-- The host's moves that send these bits one by one. -/
def bitMoves (l : List Bool) : List HostInput := l.map fun x => .command (encode (.decBit x))

theorem runCommands_decBit (l : List Bool) (s : State) :
    runCommands (l.map .decBit) s = Host.Core.run core l.length (s.withPorts s.beats (bitMoves l)) := by
  rw [runCommands, List.length_map, State.feed, List.map_map]
  rfl

theorem step_decBit {s : State} {x : Bool} {rest : List HostInput} (hin : s.inputs = .command (encode (.decBit x)) :: rest)
    (hf : s.fault = false) : step s = execDecBit x (s.withPorts s.beats rest) :=
  (step_command hin).trans (acceptWord_exec (decode_encode_decBit x) (.inl hf))

/-- In the fault state the bits are answered `Aborted` (60_exceptions.md R186). -/
theorem run_decBit_of_fault {l : List Bool} {s u : State} (h : Host.Core.run core l.length s = .next u)
    (hin : s.inputs = bitMoves l) (hf : s.fault = true) : u.fault = true := by
  induction l generalizing s with
  | nil =>
    cases h
    exact hf
  | cons x l ih =>
    obtain ⟨t, ht, hrun⟩ := run_core_succ_next h
    have hnext := (step_command hin).trans
      (acceptWord_aborted (decode_encode_decBit x) hf (by decide : Mnemonic.decBit ∉ always))
    obtain rfl := Host.Outcome.next.inj (hnext.symm.trans ht)
    exact ih hrun rfl hf

/-- A run of `DEC_BIT` without a fault is the loop of `DEC_BYTE` over its bits, but for the responses and the host's moves: the
symbols `ys` it emitted are emitted and counted there too. -/
theorem decBits_of_run {l : List Bool} {s u : State} (h : Host.Core.run core l.length s = .next u)
    (hin : s.inputs = bitMoves l) (hf : s.fault = false) (hu : u.fault = false) :
    ∃ ys : List Symbol, ∀ w rest i k bs moves, decBits w (l ++ rest) i k (s.withPorts bs moves) =
      decBits w rest (i + l.length) (k + ys.length) (u.withPorts (bs ++ ys.map .sym) moves) := by
  induction l generalizing s with
  | nil =>
    cases h
    exact ⟨[], fun w rest i k bs moves => by simp⟩
  | cons x l ih =>
    obtain ⟨t, ht, hrun⟩ := run_core_succ_next h
    rw [step_decBit hin hf, execDecBit, decBit_withPorts] at ht
    cases hd : decBit x s with
    | absent => simp [hd, DecResult.withPorts] at ht
    | raises f =>
      rw [hd] at ht
      cases ht
      exact absurd (run_decBit_of_fault hrun rfl rfl) (by simp [hu])
    | moved v e =>
      have hvf : v.fault = false := by
        obtain ⟨-, ⟨-, c, -, rfl⟩ | ⟨y, -, rfl⟩⟩ := decBit_moved hd <;> exact hf
      obtain ⟨d, rfl⟩ : ∃ d, (v.withPorts (s.beats ++ e.toList.map .sym) (bitMoves l)).respond statusOk d = t := by
        rw [hd] at ht
        cases e <;> cases ht <;> exact ⟨_, rfl⟩
      obtain ⟨ys, hys⟩ := ih hrun rfl hvf
      refine ⟨e.toList ++ ys, fun w rest i k bs moves => ?_⟩
      have hbit : decBits w (x :: l ++ rest) i k (s.withPorts bs moves) =
          decBits w (l ++ rest) (i + 1) (k + e.toList.length) (v.withPorts (bs ++ e.toList.map .sym) moves) := by
        rw [List.cons_append, decBits, decBit_withPorts, hd]
        cases e <;> rfl
      rw [hbit]
      refine (hys w rest (i + 1) (k + e.toList.length) (bs ++ e.toList.map .sym) moves).trans ?_
      simp only [List.map_append, List.append_assoc, List.length_append, List.length_cons, Nat.add_assoc, Nat.add_comm 1]

/-- The high bits of a byte, in the statements' words and in the model's. -/
theorem byteBits_eq_highBits (y : Byte) {n : BitVec 4} (hn : n.toNat ≤ 8) : byteBits y n = highBits y n :=
  List.map_congr_left fun i hi => by
    rw [List.mem_range] at hi
    simp [BitVec.getMsbD, show i < 8 by omega]

/-- `DEC_BYTE` stops at the first of its bits at which `DEC_BIT` would stop. -/
theorem execDecByte_stops {y : Byte} {n : BitVec 4} {i : Nat} {s u : State} {f : Fault} (hi : i < n.toNat)
    (hn : n.toNat ≤ 8) (hs : s.fault = false)
    (hrun : runCommands (((highBits y n).take i).map .decBit) s = .next u) (hu : u.fault = false)
    (hstop : execDecBit (y.getLsbD (7 - i)) u = .fault f) : execDecByte y n s = .fault f := by
  obtain ⟨habsent, rfl⟩ := execDecBit_fault hstop
  rw [runCommands_decBit] at hrun
  obtain ⟨ys, hys⟩ := decBits_of_run hrun rfl hs hu
  have hsplit : byteBits y n = (highBits y n).take i ++ y.getLsbD (7 - i) :: (highBits y n).drop (i + 1) := by
    have hlen : i < (highBits y n).length := by simpa [highBits] using hi
    have hbit : (highBits y n)[i] = y.getLsbD (7 - i) := by simp [highBits]
    rw [byteBits_eq_highBits y hn, ← hbit, ← List.drop_eq_getElem_cons hlen, List.take_append_drop]
  have hloop := hys (encode (.decByte y n)) (y.getLsbD (7 - i) :: (highBits y n).drop (i + 1)) 0 0 s.beats s.inputs
  rw [execDecByte, hsplit]
  refine hloop.trans ?_
  rw [decBits, decBit_withPorts, habsent]
  rfl

/-- Settles O28: where a pointer is 511 the command's own read of it stops; `DEC_BYTE` reaches the bit at which `DEC_BIT` stops;
and the walk of `CT_GEN` reaches the end of every path, the left edges first. -/
theorem absentRecordStops : Obligations.AbsentRecordStops := by
  refine ⟨fun s => ⟨rfl, rfl⟩, fun s x hv hcur => ?_, fun s x hv hcur hc => ?_, ?_, fun s hv hroot hcur => ⟨?_, ?_⟩,
    fun s k hv hk hpath => ?_, fun s t p hv ht hc => ?_⟩
  · exact execDecBit_of_absent (decBit_absent_of_pointer x hv hcur)
  · exact execDecBit_of_absent (decBit_absent_of_child hv hcur hc)
  · intro y n i s u f hi hn hs hrun hu hstop
    exact execDecByte_stops hi hn hs hrun hu hstop
  · simp [exec, execDecEnd, hv, hroot, hcur, nodeRec?_511]
  · have hcount : (s.decSymCnt.setWidth 56).toNat = s.decSymCnt.toNat := BitVec.toNat_setWidth_of_le (by decide)
    simp [exec, execDecEnd, hv, hroot, hcur, succeed, respond_eq_answer, hcount, statusOk]
  · have hwalk := walk_stops_left s.node (Nat.lt_succ_of_le hk) (e := ⟨s.root, []⟩) [] [] hpath
    rw [exec, execCtGen, if_pos hv, show Config.nNodeMax = 511 from rfl, hwalk]
  · obtain ⟨ct, hwalk⟩ := execCtGen_codes hv ht hc
    exact walk_done_no_path_511 hwalk (List.mem_singleton.2 rfl) p

end Sys2Proof.Machine

namespace Sys2Proof.Machine

/-! ### The memories stay canonical (20_memory.md R60; log 7) -/

/-- A command that owns none of the three memories leaves them canonical (20_memory.md R61). -/
theorem Owned.memWf {m : Mnemonic} {s t : State} (h : Owned m s t) (hm : m ∉ [.faSym, .ftSet, .tbBuild, .ctGen, .clr])
    (hs : s.memWf) : t.memWf := by
  simp only [List.mem_cons, List.not_mem_nil, or_false, not_or] at hm
  obtain ⟨hfaSym, hftSet, htbBuild, hctGen, hclr⟩ := hm
  have hft : t.ft = s.ft := h.table (by simp [hfaSym, hftSet, hclr])
  obtain ⟨hnode, -⟩ := h.tree (by simp [htbBuild, hclr])
  obtain ⟨hct, -⟩ := h.codes (by simp [hctGen, htbBuild, hclr])
  rwa [State.memWf, hft, hnode, hct]

theorem State.memWf_setFt {s : State} (h : s.memWf) (y : Symbol) (e : FtEntry) : (s.setFt y e).memWf := by
  obtain ⟨hft, hnode, hct⟩ := h
  exact ⟨Memory.write_wf _ _ _ _ _ y.isLt hft, hnode, hct⟩

theorem execFaSym_memWf {s t : State} (h : s.memWf) (y : Symbol) (ht : execFaSym y s = .next t) : t.memWf := by
  unfold execFaSym at ht
  split at ht
  · cases ht
    exact h
  · cases ht
    exact State.memWf_setFt h y ⟨true, (s.ftAt y).cnt + 1⟩

/-- `TB_BUILD` clears the code table and builds its tree in an empty arena, one record above the other. -/
theorem execTbBuild_memWf {s t : State} (h : s.memWf) (ht : execTbBuild s = .next t) : t.memWf := by
  obtain ⟨hft, -, -⟩ := h
  obtain ⟨-, hnode, hct⟩ := reset_memories_wf
  have hscan := Scanned.clearDerived s
  rcases execTbBuild_cases s t ht with ⟨hnone, rfl⟩ | ⟨hsome, hsame, rfl⟩
  · rw [hscan.unchanged hnone]
    exact ⟨hft, hnode, hct⟩
  · obtain ⟨-, harena, -⟩ := hscan.buildTree hsome
    generalize s.clearDerived.scanTable.buildTree = u at hsame harena ⊢
    refine ⟨?_, harena, ?_⟩ <;> rw [hsame]
    · exact hft
    · exact hct

/-- The walk of `CT_GEN` writes its table at symbols only, on whatever records it walks (43_code_table.md R141). -/
theorem walk_wf {node : List (Nat × NodeRec)} {k : Nat} {gs : List WalkEntry} {ct ct' : List (Nat × CtEntry)}
    (hct : Memory.wf 256 CtEntry.empty ct) (h : walk node k gs ct = .done ct' ∨ walk node k gs ct = .corrupt ct') :
    Memory.wf 256 CtEntry.empty ct' := by
  fun_induction walk node k gs ct with
  | case1 | case8 =>
    obtain rfl : _ = ct' := by simpa using h
    exact hct
  | case2 | case3 | case5 => simp at h
  | case4 _ _ _ _ n _ _ _ ih => exact ih (Memory.write_wf _ _ _ _ _ n.sym.isLt hct) h
  | case6 _ _ _ _ _ _ _ ih | case7 _ _ _ _ _ _ _ ih => exact ih hct h

theorem execCtGen_memWf {s t : State} (h : s.memWf) (ht : execCtGen s = .next t) : t.memWf := by
  obtain ⟨hft, hnode, hct⟩ := h
  obtain ⟨-, -, hempty⟩ := reset_memories_wf
  unfold execCtGen at ht
  split at ht
  · split at ht
    · next ct hwalk =>
      cases ht
      exact ⟨hft, hnode, walk_wf hempty (.inl hwalk)⟩
    · next ct hwalk =>
      cases ht
      exact ⟨hft, hnode, walk_wf hempty (.inr hwalk)⟩
    · cases ht
  · cases ht
    exact ⟨hft, hnode, hct⟩

theorem exec_memWf {s t : State} (h : s.memWf) (i : Instr) (ht : exec i s = .next t) : t.memWf := by
  have hframe : Owned i.mnemonic s t := changesOwned_exec i s t ht
  cases i with
  | clr =>
    cases ht
    exact reset_memories_wf
  | faSym y => exact execFaSym_memWf h y ht
  | ftSet y c =>
    cases ht
    exact State.memWf_setFt h y ⟨true, c⟩
  | tbBuild => exact execTbBuild_memWf (s := s) h ht
  | ctGen => exact execCtGen_memWf h ht
  | nop | rdreg r | ftRd y | ndInfo n | ndFreq n | ctLen y | ctBits y k | encSym y | encFlush | decBit x | decByte y n
  | decEnd f => exact hframe.memWf (by simp [Instr.mnemonic]) h

theorem acceptWord_memWf {s t : State} (h : s.memWf) (w : Word) (ht : acceptWord w s = .next t) : t.memWf := by
  rcases acceptWord_cases w s with ⟨-, -, hacc⟩ | ⟨-, -, hacc⟩ | ⟨i, -, -, hacc⟩ <;> rw [hacc] at ht
  · cases ht
    exact h
  · cases ht
    exact h
  · exact exec_memWf h i ht

/-- Settles O52: idling keeps the memories, `RST` empties them, and of the commands only `FA_SYM`, `FT_SET`, `TB_BUILD`, `CT_GEN`
and `CLR` write one, at symbols and at the arena's own indices. -/
theorem stepKeepsMemoriesCanonical : Obligations.StepKeepsMemoriesCanonical := by
  intro s t hwf ht
  rcases step_cases s with ⟨-, hstep⟩ | ⟨rest, -, hstep⟩ | ⟨w, rest, -, hstep⟩ <;> rw [hstep] at ht
  · cases ht
    exact hwf
  · cases ht
    exact reset_memories_wf
  · exact acceptWord_memWf (s := { s with inputs := rest }) hwf w ht

end Sys2Proof.Machine

namespace Sys2Proof

/-! ### The operand bits of a command word (30_encoding.md R82, R83) -/

/-- A mask of all bits from `k` up picks nothing exactly when the number has at most `k` bits. -/
theorem and_allOnes_shiftLeft_eq_zero_iff {n : Nat} (x : BitVec n) (k : Nat) :
    x &&& BitVec.allOnes n <<< k = 0 ↔ x.toNat < 2 ^ k := by
  have hle : x.toNat / 2 ^ k * 2 ^ k ≤ x.toNat := Nat.div_mul_le_self _ _
  have hlt := x.isLt
  rw [← BitVec.shiftLeft_ushiftRight, ← BitVec.toNat_inj, BitVec.toNat_shiftLeft, BitVec.toNat_ushiftRight,
    Nat.shiftLeft_eq, Nat.shiftRight_eq_div_pow, Nat.mod_eq_of_lt (by omega)]
  simp [Nat.div_eq_zero_iff]

/-- The number of operand bits in `a`: all 8 where the format uses it. -/
def Format.bitsA : Format → Nat
  | .z | .b => 0
  | .a | .ai | .ab => 8

/-- The number of operand bits in `imm`: all 32 where the format uses it. -/
def Format.bitsImm : Format → Nat
  | .z | .a | .b | .ab => 0
  | .ai => 32

/-- The number of operand bits in `b`, the low ones (30_encoding.md R83). -/
def Mnemonic.bitsB : Mnemonic → Nat
  | .ndInfo | .ndFreq => 9
  | .ctBits => 3
  | .decBit | .decEnd => 1
  | .decByte => 4
  | .nop | .clr | .rdreg | .faSym | .ftSet | .ftRd | .tbBuild | .ctGen | .ctLen | .encSym | .encFlush => 0

theorem Format.maskA_eq (f : Format) : f.maskA = BitVec.allOnes 8 <<< f.bitsA := by cases f <;> decide

theorem Format.maskImm_eq (f : Format) : f.maskImm = BitVec.allOnes 32 <<< f.bitsImm := by cases f <;> decide

theorem Mnemonic.maskB_eq (m : Mnemonic) : m.maskB = BitVec.allOnes 16 <<< m.bitsB := by cases m <;> decide

/-- No bit of the word's fields is set outside the command's operands (30_encoding.md R85 case 2). -/
def Mnemonic.fits (m : Mnemonic) (w : Word) : Prop :=
  (fieldA w).toNat < 2 ^ m.format.bitsA ∧ (fieldB w).toNat < 2 ^ m.bitsB ∧ (fieldImm w).toNat < 2 ^ m.format.bitsImm

theorem row_matches_iff_fits (m : Mnemonic) (w : Word) :
    w &&& m.row.mask = m.row.pattern ↔ fieldOp w = m.row.op ∧ m.fits w := by
  rw [row_matches_iff, Format.maskA_eq, Mnemonic.maskB_eq, Format.maskImm_eq, and_allOnes_shiftLeft_eq_zero_iff,
    and_allOnes_shiftLeft_eq_zero_iff, and_allOnes_shiftLeft_eq_zero_iff, Mnemonic.fits]

/-! ### Decoding what was encoded -/

/-- The word of a command has the fixed bits of the command's row. -/
theorem encode_matches_row (i : Instr) : encode i &&& i.mnemonic.row.mask = i.mnemonic.row.pattern := by
  cases i with
  | nop => exact Laws.FixedBits.nop
  | clr => exact Laws.FixedBits.clr
  | rdreg r => exact Laws.FixedBits.rdreg r
  | faSym y => exact Laws.FixedBits.faSym y
  | ftSet y c => exact Laws.FixedBits.ftSet y c
  | ftRd y => exact Laws.FixedBits.ftRd y
  | tbBuild => exact Laws.FixedBits.tbBuild
  | ndInfo n => exact Laws.FixedBits.ndInfo n
  | ndFreq n => exact Laws.FixedBits.ndFreq n
  | ctGen => exact Laws.FixedBits.ctGen
  | ctLen y => exact Laws.FixedBits.ctLen y
  | ctBits y k => exact Laws.FixedBits.ctBits y k
  | encSym y => exact Laws.FixedBits.encSym y
  | encFlush => exact Laws.FixedBits.encFlush
  | decBit x => exact Laws.FixedBits.decBit x
  | decByte y n => exact Laws.FixedBits.decByte y n
  | decEnd f => exact Laws.FixedBits.decEnd f

/-- The operands of a legal command are read back from its word. -/
theorem decodeOperands_encode {i : Instr} (h : i.wf = true) : decodeOperands i.mnemonic (encode i) = .ok i := by
  cases i with
  | nop | clr | tbBuild | ctGen | encFlush => rfl
  | rdreg r => simp [decodeOperands, Instr.mnemonic, Instr.encodeA]
  | faSym y | ftRd y | ctLen y | encSym y => simp [decodeOperands, Instr.mnemonic, Instr.encodeA]
  | ftSet y c => simpa [decodeOperands, Instr.mnemonic, Instr.encodeA, Instr.encodeImm, Instr.wf] using h
  | ndInfo n | ndFreq n =>
    have hn : (n.setWidth 16).toNat ≤ 510 := by
      rw [BitVec.toNat_setWidth_of_le (by decide)]
      simpa [Instr.wf] using h
    simp only [decodeOperands, Instr.mnemonic, fieldB_encode, Instr.encodeB, if_pos hn]
    simp
  | ctBits y k => simp [decodeOperands, Instr.mnemonic, Instr.encodeA, Instr.encodeB]
  | decBit x | decEnd x => simp [decodeOperands, Instr.mnemonic, Instr.encodeB]
  | decByte y n =>
    have hn : 1 ≤ (n.setWidth 16).toNat ∧ (n.setWidth 16).toNat ≤ 8 := by
      rw [BitVec.toNat_setWidth_of_le (by decide)]
      simpa [Instr.wf] using h
    simp only [decodeOperands, Instr.mnemonic, fieldA_encode, fieldB_encode, Instr.encodeA, Instr.encodeB, if_pos hn]
    simp

/-- Settles O1: the opcode finds the command's row, the word has the row's fixed bits, and the operands are read back. -/
theorem decodeOfEncode : Obligations.DecodeOfEncode := fun i hwf =>
  (decode_ok_iff (encode i) i).2 ⟨i.mnemonic, fieldOp_encode i, encode_matches_row i, decodeOperands_encode hwf⟩

/-- Settles O4, by running the decoder on the seventeen words. -/
theorem exampleWordsDecode : Obligations.ExampleWordsDecode := by
  unfold Obligations.ExampleWordsDecode
  decide

/-! ### Encoding what was decoded -/

theorem number_of_ofNumber {a : BitVec 8} {r : StatusReg} (h : StatusReg.ofNumber a = some r) : r.number = a := by
  simpa using List.find?_some h

/-- An accepted command encodes, of each field, the operand bits and nothing else. -/
theorem encode_fields_of_decodeOperands {m : Mnemonic} {w : Word} {i : Instr} (h : decodeOperands m w = .ok i) :
    i.encodeA.toNat = (fieldA w).toNat % 2 ^ m.format.bitsA ∧ i.encodeB.toNat = (fieldB w).toNat % 2 ^ m.bitsB ∧
      i.encodeImm.toNat = (fieldImm w).toNat % 2 ^ m.format.bitsImm := by
  have hnone (x : Nat) : 0 = x % 2 ^ 0 := by simp [Nat.mod_one]
  have ha : (fieldA w).toNat = (fieldA w).toNat % 2 ^ 8 := (Nat.mod_eq_of_lt (fieldA w).isLt).symm
  have hb (k : Nat) (hk : k ≤ 16) : (((fieldB w).setWidth k).setWidth 16).toNat = (fieldB w).toNat % 2 ^ k := by
    rw [BitVec.toNat_setWidth_of_le hk, BitVec.toNat_setWidth]
  have himm : (fieldImm w).toNat = (fieldImm w).toNat % 2 ^ 32 := (Nat.mod_eq_of_lt (fieldImm w).isLt).symm
  cases m <;> simp only [decodeOperands] at h
  case nop | clr | tbBuild | ctGen | encFlush => cases h; exact ⟨hnone _, hnone _, hnone _⟩
  case faSym | ftRd | ctLen | encSym => cases h; exact ⟨ha, hnone _, hnone _⟩
  case rdreg =>
    split at h <;> cases h
    next hr => exact ⟨(congrArg BitVec.toNat (number_of_ofNumber hr)).trans ha, hnone _, hnone _⟩
  case ftSet => split at h <;> cases h; exact ⟨ha, hnone _, himm⟩
  case ndInfo | ndFreq => split at h <;> cases h; exact ⟨hnone _, hb 9 (by decide), hnone _⟩
  case ctBits => cases h; exact ⟨ha, hb 3 (by decide), hnone _⟩
  case decBit | decEnd =>
    cases h
    rw [Instr.encodeB, ← BitVec.setWidth_one]
    exact ⟨hnone _, hb 1 (by decide), hnone _⟩
  case decByte => split at h <;> cases h; exact ⟨ha, hb 4 (by decide), hnone _⟩

/-- In a word that decodes nothing but the operand bits is set, so encoding gives back each field. -/
theorem encode_of_decode {w : Word} {i : Instr} (h : decode w = .ok i) : encode i = w := by
  obtain ⟨m, hop, hmatch, hd⟩ := (decode_ok_iff w i).1 h
  obtain ⟨-, hfitA, hfitB, hfitImm⟩ := (row_matches_iff_fits m w).1 hmatch
  obtain ⟨ha, hb, himm⟩ := encode_fields_of_decodeOperands hd
  rw [Nat.mod_eq_of_lt hfitA] at ha
  rw [Nat.mod_eq_of_lt hfitB] at hb
  rw [Nat.mod_eq_of_lt hfitImm] at himm
  rw [encode, decodeOperands_mnemonic hd, ← hop, BitVec.eq_of_toNat_eq ha, BitVec.eq_of_toNat_eq hb,
    BitVec.eq_of_toNat_eq himm, assemble_fields]

/-- Settles O2: the row's fixed bits leave only operand bits free, and the decoder accepts legal operands alone. -/
theorem encodeOfDecode : Obligations.EncodeOfDecode := fun _ _ h => ⟨encode_of_decode h, Machine.wf_of_decode h⟩

/-! ### Illegal words (30_encoding.md R85) -/

/-- A search by a key fails when no entry of the list has the key. -/
theorem find?_key_eq_none_iff {α : Type} {n : Nat} (key : α → BitVec n) (l : List α) (x : BitVec n) :
    l.find? (fun r => key r == x) = none ↔ x.toNat ∉ l.map (fun r => (key r).toNat) := by
  simp only [List.find?_eq_none, List.mem_map, beq_iff_eq, BitVec.toNat_inj, not_exists, not_and]

/-- The opcodes that are not reserved (R85 case 1). -/
theorem rowOfOp_eq_none_iff (op : BitVec 8) : rowOfOp op = none ↔ op.toNat ∉
    [0x00, 0x01, 0x02, 0x10, 0x11, 0x12, 0x20, 0x21, 0x22, 0x30, 0x31, 0x32, 0x40, 0x41, 0x50, 0x51, 0x52] :=
  find?_key_eq_none_iff OpRow.op opcodeTable op

/-- The registers' numbers are 0 to 0x0C (R85 case 3). -/
theorem ofNumber_eq_none_iff (a : BitVec 8) : StatusReg.ofNumber a = none ↔ 0x0C < a.toNat := by
  have hnumbers : statusRegs.map (fun r => r.number.toNat) = List.range 13 := by decide
  rw [StatusReg.ofNumber, find?_key_eq_none_iff, hnumbers, List.mem_range]
  omega

/-- The further condition of the command's row holds of the word's fields (R84; R85 cases 3 to 6). -/
def Mnemonic.condition (m : Mnemonic) (w : Word) : Prop :=
  match m with
  | .rdreg => (fieldA w).toNat ≤ 0x0C
  | .ftSet => (fieldImm w).toNat < 2 ^ Config.freqW
  | .ndInfo | .ndFreq => (fieldB w).toNat ≤ 510
  | .decByte => 1 ≤ (fieldB w).toNat ∧ (fieldB w).toNat ≤ 8
  | .nop | .clr | .faSym | .ftRd | .tbBuild | .ctGen | .ctLen | .ctBits | .encSym | .encFlush | .decBit | .decEnd => True

theorem decodeOperands_error_iff (m : Mnemonic) (w : Word) :
    (∃ e, decodeOperands m w = .error e) ↔ ¬ m.condition w := by
  cases m <;> simp only [decodeOperands, Mnemonic.condition]
  case rdreg =>
    rw [Nat.not_le, ← ofNumber_eq_none_iff]
    cases StatusReg.ofNumber (fieldA w) <;> simp
  case ftSet | ndInfo | ndFreq | decByte => split <;> simp [*]
  all_goals simp

/-- The decoder's failure on an opcode of the table. -/
theorem decode_error_iff_of_op {m : Mnemonic} {w : Word} (hop : fieldOp w = m.row.op) :
    (∃ e, decode w = .error e) ↔ ¬ (m.fits w ∧ m.condition w) := by
  unfold decode
  rw [hop, rowOfOp_op]
  by_cases hfit : m.fits w
  · have hmatch := (row_matches_iff_fits m w).2 ⟨hop, hfit⟩
    simp only [if_pos hmatch, row_mnemonic, decodeOperands_error_iff, hfit, true_and]
  · simp [row_matches_iff_fits, hfit]

/-- Of the cases of R85 those of the word's own opcode remain; they are a bit outside the operands and a failed condition. -/
theorem illegal_iff_of_op {m : Mnemonic} {w : Word} (hop : fieldOp w = m.row.op) :
    Spec.illegal w ↔ ¬ (m.fits w ∧ m.condition w) := by
  have ha := (fieldA w).isLt
  have himm := (fieldImm w).isLt
  unfold Spec.illegal Mnemonic.fits
  rw [← fieldOp_toNat, ← fieldA_toNat, ← fieldB_toNat, ← fieldImm_toNat, hop]
  cases m <;>
    · simp [Mnemonic.row, Mnemonic.condition, Mnemonic.format, Format.bitsA, Format.bitsImm, Mnemonic.bitsB]
      omega

theorem decode_error_iff_illegal (w : Word) : (∃ e, decode w = .error e) ↔ Spec.illegal w := by
  rcases hr : rowOfOp (fieldOp w) with _ | r
  · have hreserved := (rowOfOp_eq_none_iff _).1 hr
    rw [fieldOp_toNat] at hreserved
    exact iff_of_true ⟨.reservedOpcode, by simp [decode, hr]⟩ (.inl hreserved)
  · obtain ⟨m, rfl, hop⟩ := rowOfOp_some hr
    rw [decode_error_iff_of_op hop.symm, illegal_iff_of_op hop.symm]

end Sys2Proof

namespace Sys2Proof.Machine

/-- Settles O3: the decoder fails on exactly the words of R85's cases, and the step answers a word that does not decode. -/
theorem illegalWordsAreTheSixCases : Obligations.IllegalWordsAreTheSixCases := by
  refine ⟨decode_error_iff_illegal, fun w hlegal => ?_, fun s w rest hin hill => ?_⟩
  · rw [← decode_error_iff_illegal] at hlegal
    cases hd : decode w with
    | error e => exact absurd ⟨e, hd⟩ hlegal
    | ok i => exact ⟨i, rfl, wf_of_decode hd⟩
  · obtain ⟨e, hd⟩ := (decode_error_iff_illegal w).2 hill
    rw [step_command hin]
    exact ⟨fun hf => acceptWord_illegal_raises hd hf, fun hf => acceptWord_illegal_aborted hd hf⟩

/-! ### The status and the data of a response (30_encoding.md R87) -/

theorem responseWord_toNat (st : BitVec 8) (d : BitVec 56) :
    (responseWord st d).toNat = st.toNat * 2 ^ 56 + d.toNat :=
  toNat_append_eq_add st d

theorem responseWord_status (st : BitVec 8) (d : BitVec 56) : (responseWord st d).toNat / 2 ^ 56 = st.toNat := by
  have hd := d.isLt
  rw [responseWord_toNat]
  omega

theorem responseWord_data (st : BitVec 8) (d : BitVec 56) : (responseWord st d).toNat % 2 ^ 56 = d.toNat := by
  have hd := d.isLt
  rw [responseWord_toNat]
  omega

/-- Settles O8: an accepted word answers once, behind its data beats; the response's status and data are read off the word. -/
theorem oneResponsePerCommandLast : Obligations.OneResponsePerCommandLast := by
  intro s t w rest hin ht
  rw [step_command hin] at ht
  obtain ⟨bs, st, d, hbeats, hdata, hst, hd⟩ := answersOnce_acceptWord w _ t ht
  refine ⟨bs, responseWord st d, hbeats, hdata, ?_⟩
  rw [responseWord_status, responseWord_data]
  refine ⟨hst, fun hne => ?_⟩
  have hnotOk : st ≠ statusOk := fun h => hne (by rw [h]; rfl)
  rw [hd hnotOk]
  rfl

end Sys2Proof.Machine

namespace Sys2Proof.Machine

open Sys2Proof.Spec

/-! ### The system commands (40_system.md) -/

/-- A command that succeeds answers `OK` with its data. -/
theorem succeed_eq_answer (s : State) (d : BitVec 56) : succeed s d = .next (answer s 0 d.toNat) :=
  congrArg Host.Outcome.next (respond_eq_answer s statusOk d)

/-- Settles O13: `NOP` succeeds in the state it finds, with the data 0. -/
theorem nopOnlyAnswers : Obligations.NopOnlyAnswers := fun s => succeed_eq_answer s 0

/-! ### The values of the status registers (10_state.md R45 to R47) -/

/-- A flag is the number of its bit. -/
theorem toNat_ofBool_eq_num (x : Bool) : (BitVec.ofBool x).toNat = num x := by cases x <;> rfl

/-- `STATUS` is positional: the error code above the four zero bits and the four flags (10_state.md R46). -/
theorem status_toNat (s : State) : s.status.toNat = regValue s .status := by
  simp only [State.status, State.decMid, regValue, toNat_append_eq_add, toNat_ofBool_eq_num, BitVec.ofNat_eq_ofNat,
    BitVec.toNat_zero]
  omega

/-- There are at most 256 keys, so nine bits hold their number. -/
theorem ftCount_toNat (s : State) : s.ftCount.toNat = regValue s .ftCount := by
  have hlen : allSymbols.length = 256 := by rw [allSymbols, List.length_map, List.length_range, Config.nSym]
  have hle : allSymbols.countP (fun y => (s.ftAt y).v) ≤ allSymbols.length := List.countP_le_length
  rw [State.ftCount, BitVec.toNat_ofNat, Nat.mod_eq_of_lt (by omega), allSymbols, List.countP_map,
    List.countP_eq_length_filter]
  rfl

theorem params_toNat : params.toNat = 0x1FF282008 := by decide

/-- Every register is narrower than the 56 data bits, so zero extension keeps its value (R45, R102). -/
theorem reg_toNat (s : State) (r : StatusReg) : (s.reg r).toNat = regValue s r := by
  cases r <;> rw [State.reg, BitVec.toNat_setWidth_of_le (by decide)]
  case status => exact status_toNat s
  case ftCount => exact ftCount_toNat s
  case params => exact params_toNat
  case packer => exact toNat_append_eq_add s.pkCnt s.pkBuf
  case pqlen => exact BitVec.toNat_ofNat _ _
  all_goals rfl

/-! ### The words of `RDREG` (40_system.md R102; 10_state.md R45) -/

/-- The word with the opcode of `RDREG` and `a` as register number, by its fields. -/
theorem rdregWord_eq_assemble (a : BitVec 8) :
    BitVec.ofNat 64 (0x02 * 2 ^ 56 + a.toNat * 2 ^ 48) = assemble Mnemonic.rdreg.row.op a 0#16 0#32 := by
  have hop : Mnemonic.rdreg.row.op.toNat = 0x02 := rfl
  have ha := a.isLt
  apply BitVec.eq_of_toNat_eq
  rw [assemble_toNat, hop, BitVec.toNat_ofNat, BitVec.toNat_zero, BitVec.toNat_zero]
  omega

theorem number_toNat (r : StatusReg) : r.number.toNat = regNumber r := by cases r <;> rfl

/-- A register's word is the encoding of its `RDREG`. -/
theorem decode_rdregWord (r : StatusReg) :
    decode (BitVec.ofNat 64 (0x02 * 2 ^ 56 + regNumber r * 2 ^ 48)) = .ok (.rdreg r) := by
  rw [← number_toNat, rdregWord_eq_assemble]
  exact decodeOfEncode (.rdreg r) rfl

/-- The registers' numbers end at 0x0C, which is the further condition of the row of `RDREG` (R85 case 3). -/
theorem decode_rdregWord_error {a : BitVec 8} (h : 0x0C < a.toNat) :
    ∃ e, decode (BitVec.ofNat 64 (0x02 * 2 ^ 56 + a.toNat * 2 ^ 48)) = .error e := by
  rw [rdregWord_eq_assemble, decode_error_iff_of_op (m := .rdreg) (fieldOp_assemble ..)]
  rintro ⟨-, hnumber⟩
  rw [Mnemonic.condition, fieldA_assemble] at hnumber
  omega

/-- Settles O14: `RDREG` succeeds with the register as data, and zero extension keeps the register's value. -/
theorem rdregReadsTheRegister : Obligations.RdregReadsTheRegister := by
  refine ⟨fun r s => ?_, fun _ ha => decode_rdregWord_error ha, decode_rdregWord⟩
  rw [← reg_toNat]
  exact succeed_eq_answer s (s.reg r)

end Sys2Proof.Machine

namespace Sys2Proof.Machine

open Sys2Proof.Spec

/-! ### The frequency unit (41_frequency.md) -/

/-- A write of an entry replaces it and no other, and keeps a canonical table canonical. -/
theorem ftReplaced_setFt (s : State) (y : Symbol) (e : FtEntry) : ftReplaced s y e (s.setFt y e).ft := by
  refine ⟨fun z => ?_, fun hwf => Memory.write_wf _ _ _ _ _ y.isLt hwf⟩
  simpa only [eq_comm, State.ftAt] using State.ftAt_setFt s y z e

/-- `FA_SYM` below the greatest count (R111): the incremented count does not wrap. -/
theorem exec_faSym_of_lt {y : Symbol} {s : State} (h : (s.ftAt y).cnt.toNat < 2 ^ Config.freqW - 1) :
    exec (.faSym y) s = .next (answer (s.setFt y ⟨true, BitVec.ofNat 32 ((s.ftAt y).cnt.toNat + 1)⟩) 0
      ((s.ftAt y).cnt.toNat + 1)) := by
  have hcnt : (s.ftAt y).cnt + 1 = BitVec.ofNat 32 ((s.ftAt y).cnt.toNat + 1) := by simp [BitVec.ofNat_add]
  have hdata : (((s.ftAt y).cnt + 1).setWidth 56).toNat = (s.ftAt y).cnt.toNat + 1 := by
    rw [BitVec.toNat_setWidth_of_le (by decide), hcnt, BitVec.toNat_ofNat]
    exact Nat.mod_eq_of_lt (Nat.add_lt_of_lt_sub h)
  rw [exec, execFaSym, if_neg (show (s.ftAt y).cnt.toNat ≠ Config.countMax from Nat.ne_of_lt h), succeed_eq_answer, hdata,
    hcnt]

/-- `FA_SYM` at the greatest count (R111; 60_exceptions.md R182). -/
theorem exec_faSym_of_eq {y : Symbol} {s : State} (h : (s.ftAt y).cnt.toNat = 2 ^ Config.freqW - 1) :
    exec (.faSym y) s = .next (latched s 6 (info 0 0 y.toNat 0x10)) := by
  rw [exec, execFaSym, if_pos (show (s.ftAt y).cnt.toNat = Config.countMax from h), raised, raiseFault_eq_latched,
    ← fieldB_toNat, ← fieldA_toNat, ← fieldOp_toNat, fieldB_encode, fieldA_encode, fieldOp_encode]
  rfl

/-- Settles O15: the two arms of `FA_SYM`; below the greatest count the write replaces the symbol's entry alone. -/
theorem faSymCountsOrOverflows : Obligations.FaSymCountsOrOverflows := fun y s =>
  ⟨fun hlt => ⟨_, exec_faSym_of_lt hlt, ftReplaced_setFt s y _⟩, exec_faSym_of_eq⟩

/-- Settles O16: `FT_SET` succeeds with the data 0, and its write replaces the symbol's entry alone. -/
theorem ftSetReplacesTheEntry : Obligations.FtSetReplacesTheEntry := fun y c s =>
  ⟨_, succeed_eq_answer (s.setFt y ⟨true, c⟩) 0, ftReplaced_setFt s y ⟨true, c⟩⟩

/-- Settles O17: `FT_RD` succeeds in the state it finds, and its data is positional: the valid bit above the 32-bit count. -/
theorem ftRdReadsTheEntry : Obligations.FtRdReadsTheEntry := by
  intro y s
  rw [exec, execFtRd, succeed_eq_answer, BitVec.toNat_setWidth_of_le (by decide), toNat_append_eq_add,
    toNat_ofBool_eq_num]

/-! ### The counting pass (R115) -/

/-- Without a fault the table holds the counts of this sequence: what a counting pass keeps. After a fault nothing
is claimed of it, and `FAULT` then stays 1 to the end of the pass (60_exceptions.md R186). -/
def State.hasCounted (s : State) (l : List Symbol) : Prop :=
  s.fault = false → ∀ y : Symbol, (s.ftAt y).cnt.toNat = l.count y ∧ ((s.ftAt y).v = true ↔ 1 ≤ l.count y)

theorem State.hasCounted_of_fault {s : State} (h : s.fault = true) (l : List Symbol) : s.hasCounted l :=
  fun hf => absurd (hf.symm.trans h) Bool.false_ne_true

theorem State.hasCounted_nil {s : State} (h : s.ft = []) : s.hasCounted [] := by
  intro _ y
  have hy : s.ftAt y = FtEntry.empty := by rw [State.ftAt, h, Memory.read_nil]
  simp [hy, FtEntry.empty]

/-- One more count of `y` is one more occurrence of it in the sequence. -/
theorem State.hasCounted.setFt {s : State} {l : List Symbol} (h : s.hasCounted l) (hf : s.fault = false) {y : Symbol}
    (hlt : (s.ftAt y).cnt.toNat < 2 ^ Config.freqW - 1) :
    (s.setFt y ⟨true, BitVec.ofNat 32 ((s.ftAt y).cnt.toNat + 1)⟩).hasCounted (l ++ [y]) := by
  intro _ z
  rw [State.ftAt_setFt, List.count_append, List.count_singleton]
  by_cases hz : y = z
  · subst hz
    obtain ⟨hcnt, -⟩ := h hf y
    have hfits : l.count y + 1 < 2 ^ 32 := hcnt ▸ Nat.add_lt_of_lt_sub hlt
    simpa [hcnt] using hfits
  · simpa [hz] using h hf z

/-- A word of `FA_SYM` is counted, raises `FreqOverflow`, or is answered `Aborted`. -/
theorem acceptWord_faSym_hasCounted {s : State} {l : List Symbol} (h : s.hasCounted l) (y : Symbol) :
    ∃ t, acceptWord (encode (.faSym y)) s = .next t ∧ t.inputs = s.inputs ∧ t.hasCounted (l ++ [y]) := by
  have hdecode : decode (encode (.faSym y)) = .ok (.faSym y) := decodeOfEncode (.faSym y) rfl
  cases hf : s.fault with
  | true =>
    exact ⟨_, acceptWord_aborted hdecode hf (by decide : Mnemonic.faSym ∉ always), rfl, State.hasCounted_of_fault hf _⟩
  | false =>
    rw [acceptWord_exec hdecode (.inl hf)]
    rcases Nat.lt_or_eq_of_le (s.ftAt y).cnt_le with hlt | heq
    · exact ⟨_, exec_faSym_of_lt hlt, rfl, h.setFt hf hlt⟩
    · exact ⟨_, exec_faSym_of_eq heq, rfl, State.hasCounted_of_fault rfl _⟩

/-- A run goes on from the state its first step leads to. -/
theorem run_succ_of_step {M : Host.Core} {k : Nat} {s t : M.State} (h : M.step s = .next t) :
    M.run (k + 1) s = M.run k t := by
  rw [Host.Core.run, h]

/-- The host's moves that count these symbols one by one. -/
def countMoves (l : List Symbol) : List HostInput := l.map fun y => .command (encode (.faSym y))

theorem runCommands_faSym (l : List Symbol) (s : State) :
    runCommands (l.map .faSym) s = Host.Core.run core l.length { s with inputs := countMoves l } := by
  rw [runCommands, List.length_map, State.feed, List.map_map]
  rfl

/-- The rest of a counting pass, of which the symbols `p` have been sent. -/
theorem run_faSym_hasCounted (l p : List Symbol) {s : State} (hin : s.inputs = countMoves l) (h : s.hasCounted p) :
    ∃ t, Host.Core.run core l.length s = .next t ∧ State.hasCounted t (p ++ l) := by
  induction l generalizing p s with
  | nil => exact ⟨s, rfl, by rwa [List.append_nil]⟩
  | cons y l ih =>
    obtain ⟨u, hacc, hrest, hu⟩ := acceptWord_faSym_hasCounted (s := { s with inputs := countMoves l }) h y
    obtain ⟨t, hrun, ht⟩ := ih (p ++ [y]) hrest hu
    have hstep : core.step s = .next u := (step_command hin).trans hacc
    exact ⟨t, (run_succ_of_step hstep).trans hrun, by rwa [List.append_cons]⟩

/-- Settles O18: the empty table has counted the empty sequence, and each word of the pass adds its symbol to what was
counted. -/
theorem countingPassCounts : Obligations.CountingPassCounts := by
  intro l s hempty _
  rw [runCommands_faSym]
  exact run_faSym_hasCounted l [] rfl (State.hasCounted_nil hempty)

end Sys2Proof.Machine

namespace Sys2Proof.Machine

open Sys2Proof.Spec

/-! ### The key order (42_tree_builder.md R121) -/

theorem keyBefore_trans {s : State} {i j k : NodeIdx} (hij : keyBefore s i j) (hjk : keyBefore s j k) :
    keyBefore s i k := by
  unfold keyBefore at *
  omega

theorem keyBefore_asymm {s : State} {i j : NodeIdx} (hij : keyBefore s i j) : ¬ keyBefore s j i := by
  unfold keyBefore at *
  omega

theorem keyBefore_freq_le {s : State} {i j : NodeIdx} (h : keyBefore s i j) :
    (s.nodeAt i).freq.toNat ≤ (s.nodeAt j).freq.toNat := by
  unfold keyBefore at h
  omega

/-- Keys are distinct, so the order is total. -/
theorem keyBefore_total {s : State} {i j : NodeIdx} (hne : i ≠ j) : keyBefore s i j ∨ keyBefore s j i := by
  have hidx : i.toNat ≠ j.toNat := fun he => hne (BitVec.eq_of_toNat_eq he)
  unfold keyBefore
  omega

/-- The comparison of `pq_insert` is the key order. -/
theorem keyLt_iff_keyBefore (s : State) (i j : NodeIdx) : keyLt s.node i j = true ↔ keyBefore s i j := by
  simp [keyLt, keyBefore, State.nodeAt, BitVec.lt_def, BitVec.toNat_inj]

/-- A key is read off the records of its nodes. -/
theorem keyBefore_congr {s t : State} {i j : NodeIdx} (hi : t.nodeAt i = s.nodeAt i) (hj : t.nodeAt j = s.nodeAt j) :
    keyBefore t i j ↔ keyBefore s i j := by
  unfold keyBefore
  rw [hi, hj]

/-! ### The queue stays sorted (42_tree_builder.md R122) -/

/-- A new element goes into a sorted list behind the elements before it. -/
theorem pairwise_insert_at_countP {α : Type} {r : α → α → Prop} (before : α → Bool) (a : α) (l : List α)
    (htrans : ∀ {b c d}, r b c → r c d → r b d) (hasymm : ∀ {b c}, r b c → ¬ r c b)
    (hbefore : ∀ b, before b = true ↔ r b a) (htotal : ∀ b ∈ l, r b a ∨ r a b) (hl : l.Pairwise r) :
    (l.take (l.countP before) ++ a :: l.drop (l.countP before)).Pairwise r := by
  induction l with
  | nil => exact List.pairwise_singleton r a
  | cons b l ih =>
    obtain ⟨hb, hrest⟩ := List.pairwise_cons.1 hl
    by_cases hba : r b a
    · rw [List.countP_cons_of_pos ((hbefore b).2 hba), List.take_succ_cons, List.drop_succ_cons, List.cons_append]
      refine List.pairwise_cons.2 ⟨fun c hc => ?_, ih (fun c hc => htotal c (List.mem_cons_of_mem _ hc)) hrest⟩
      rcases List.mem_cons.1 (List.perm_middle.mem_iff.1 hc) with rfl | hc
      · exact hba
      · exact hb c (by rwa [List.take_append_drop] at hc)
    · have hab : r a b := (htotal b (by simp)).resolve_left hba
      have hall : ∀ c ∈ b :: l, r a c := List.forall_mem_cons.2 ⟨hab, fun c hc => htrans hab (hb c hc)⟩
      have hzero : (b :: l).countP before = 0 :=
        List.countP_eq_zero.2 fun c hc hcb => hasymm (hall c hc) ((hbefore c).1 hcb)
      rw [hzero]
      exact List.pairwise_cons.2 ⟨hall, hl⟩

theorem queueSorted_pqInsert {s : State} {i : NodeIdx} (hs : queueSorted s) (hi : i ∉ s.pq) :
    queueSorted (s.pqInsert i) :=
  pairwise_insert_at_countP _ i s.pq keyBefore_trans keyBefore_asymm (fun j => keyLt_iff_keyBefore s j i)
    (fun _ hj => keyBefore_total fun he => hi (he ▸ hj)) hs

/-- Settles O19: the node goes behind the queued nodes of smaller key. -/
theorem pqInsertKeepsTheOrder : Obligations.PqInsertKeepsTheOrder :=
  fun s i hs hi => ⟨queueSorted_pqInsert hs hi, s.pqInsert_perm i, rfl⟩

/-- A new record is inserted among queued nodes that were sorted before it was made. -/
theorem queueSorted_pqInsert_of_growsBy {s u : State} {n : NodeRec} (hg : s.growsBy u n) (hs : queueSorted s)
    (hqueued : ∀ i ∈ s.pq, i.toNat < s.nnode.toNat) (hsub : u.pq.Sublist s.pq) : queueSorted (u.pqInsert s.nextIdx) := by
  have hlt (i : NodeIdx) (hi : i ∈ u.pq) : i.toNat < s.nnode.toNat := hqueued i (hsub.subset hi)
  refine queueSorted_pqInsert ((hs.sublist hsub).imp_of_mem fun hi hj h => ?_) fun hmem => ?_
  · exact (keyBefore_congr (hg.nodeAt_of_lt (hlt _ hi)) (hg.nodeAt_of_lt (hlt _ hj))).2 h
  · exact absurd (hlt _ hmem) (State.nextIdx_toNat hg.room).not_lt

/-- A queue of two nodes or more by its head. -/
theorem exists_two_of_one_lt_length {α : Type} {l : List α} (h : 1 < l.length) : ∃ x y rest, l = x :: y :: rest := by
  match l, h with
  | x :: y :: rest, _ => exact ⟨x, y, rest, rfl⟩

/-! ### The merge step (42_tree_builder.md R125) -/

/-- The merge step before its `pq_insert`. -/
def State.mergeAlloc (s : State) : State :=
  s.pqPop.pqPop.allocNode
    ⟨.internal, 0, (s.nodeAt (s.pqAt 0)).freq + (s.nodeAt (s.pqPop.pqAt 0)).freq, s.pqAt 0, s.pqPop.pqAt 0⟩

theorem State.mergeStep_eq (s : State) : s.mergeStep = s.mergeAlloc.pqInsert s.nextIdx := rfl

theorem State.mergeAlloc_growsBy {s : State} {x y : NodeIdx} {rest : List NodeIdx} (hpq : s.pq = x :: y :: rest)
    (hs : s.nnode.toNat ≤ 510) :
    s.growsBy s.mergeAlloc ⟨.internal, 0, (s.nodeAt x).freq + (s.nodeAt y).freq, x, y⟩ :=
  have hg := State.mergeStep_growsBy hpq hs
  ⟨hs, hg.nodeAt, hg.nnode⟩

theorem queueSorted_mergeStep {s : State} {x y : NodeIdx} {rest : List NodeIdx} (hpq : s.pq = x :: y :: rest)
    (hs : s.nnode.toNat ≤ 510) (hsorted : queueSorted s) (hqueued : ∀ i ∈ s.pq, i.toNat < s.nnode.toNat) :
    queueSorted s.mergeStep := by
  rw [State.mergeStep_eq]
  exact queueSorted_pqInsert_of_growsBy (State.mergeAlloc_growsBy hpq hs) hsorted hqueued
    ((List.tail_sublist _).trans (List.tail_sublist _))

theorem State.nextIdx_eq_ofNat (s : State) : s.nextIdx = BitVec.ofNat 9 s.nnode.toNat := by
  rw [BitVec.ofNat_toNat]
  rfl

theorem ofNat_toNat_add_toNat {n : Nat} (a b : BitVec n) : BitVec.ofNat n (a.toNat + b.toNat) = a + b := by
  rw [BitVec.ofNat_add, BitVec.ofNat_toNat, BitVec.ofNat_toNat, BitVec.setWidth_eq, BitVec.setWidth_eq]

/-- Settles O20: the step pops the two nodes at the head of the sorted queue, and only the new record's key is new to the
queue. -/
theorem mergeStepJoinsTheTwoLeast : Obligations.MergeStepJoinsTheTwoLeast := by
  intro s x y rest hpq hs hsorted hqueued
  have hg := State.mergeStep_growsBy hpq hs
  dsimp only
  rw [← State.nextIdx_eq_ofNat]
  refine ⟨fun j => ?_, hg.nnode, State.mergeStep_pq hpq, queueSorted_mergeStep hpq hs hsorted hqueued, rfl⟩
  rw [hg.nodeAt, ofNat_toNat_add_toNat]
  simp only [eq_comm]

end Sys2Proof.Machine

namespace Sys2Proof.Machine

open Sys2Proof.Spec

/-! ### Read-out of the arena (42_tree_builder.md R131, R132) -/

theorem NodeRec.info_toNat (n : NodeRec) :
    n.info.toNat = n.right.toNat * 2 ^ 19 + n.left.toNat * 2 ^ 10 + n.sym.toNat * 2 ^ 2 + kindNumber n.kind := by
  have hkind : n.kind.number.toNat = kindNumber n.kind := by cases n.kind <;> rfl
  rw [NodeRec.info, BitVec.toNat_setWidth_of_le (by decide), toNat_append_eq_add, toNat_append_eq_add,
    toNat_append_eq_add, hkind]
  omega

/-- Settles O26: the record is there, and its fields lie side by side in the data. -/
theorem ndInfoReadsTheRecord : Obligations.NdInfoReadsTheRecord := by
  intro i s hi
  change execNdInfo i s = _
  rw [execNdInfo, nodeRec?_of_lt _ _ (Nat.lt_succ_of_le hi), ← NodeRec.info_toNat]
  exact succeed_eq_answer s _

/-- Settles O27: the record is there, and zero extension keeps its frequency. -/
theorem ndFreqReadsTheFrequency : Obligations.NdFreqReadsTheFrequency := by
  intro i s hi
  change execNdFreq i s = _
  rw [execNdFreq, nodeRec?_of_lt _ _ (Nat.lt_succ_of_le hi),
    ← BitVec.toNat_setWidth_of_le (w' := 56) (by decide) (b := (s.nodeAt i).freq)]
  exact succeed_eq_answer s _

/-! ### The outcome of `TB_BUILD` (42_tree_builder.md R126, R128) -/

theorem exec_tbBuild_of_no_leaf {s : State} (h : s.clearDerived.scanTable.nleaf = 0) :
    exec .tbBuild s = .next (s.clearDerived.raiseFault .invalidInput 0 (encode .tbBuild)) := by
  change execTbBuild s = _
  rw [execTbBuild, if_pos h, (Scanned.clearDerived s).unchanged h]
  rfl

theorem exec_tbBuild_of_leaf {s : State} (h : s.clearDerived.scanTable.nleaf ≠ 0) :
    exec .tbBuild s = .next (answer s.clearDerived.scanTable.buildTree 0
      (s.clearDerived.scanTable.buildTree.nnode.toNat * 2 ^ 9 + s.clearDerived.scanTable.buildTree.root.toNat)) := by
  change execTbBuild s = _
  rw [execTbBuild, if_neg h, ← toNat_append_eq_add, ← BitVec.toNat_setWidth_of_le (w' := 56) (by decide)]
  exact succeed_eq_answer _ _

/-- A scan that meets no key changes nothing. -/
theorem State.scanTable_of_no_key {s : State} (h : ∀ y : Symbol, (s.ftAt y).v = false) : s.scanTable = s :=
  List.foldl_fixed' (fun y => State.scanSymbol_of_not_key (h y)) allSymbols

/-- Settles O21: the scan finds no key, so the cleared state takes the fault. -/
theorem tbBuildOfEmptyTableFaults : Obligations.TbBuildOfEmptyTableFaults := by
  intro s h
  have hscan : s.clearDerived.scanTable = s.clearDerived := State.scanTable_of_no_key h
  rw [exec_tbBuild_of_no_leaf (by rw [hscan]; rfl), raiseFault_eq_latched]
  rfl

/-! ### The build is a function of the table (42_tree_builder.md R134) -/

/-- The state `u` with the arena, the queue and the tree of `s`. -/
def State.withTreeOf (u s : State) : State :=
  { u with
    node := s.node, nnode := s.nnode, nleaf := s.nleaf, root := s.root, treeValid := s.treeValid, pq := s.pq,
    decCur := s.decCur }

@[simp] theorem State.withTreeOf_node (u s : State) : (u.withTreeOf s).node = s.node := rfl
@[simp] theorem State.withTreeOf_nleaf (u s : State) : (u.withTreeOf s).nleaf = s.nleaf := rfl

theorem State.withTreeOf_scanSymbol {u s : State} (h : ∀ y : Symbol, u.ftAt y = s.ftAt y) (y : Symbol) :
    (u.withTreeOf s).scanSymbol y = u.withTreeOf (s.scanSymbol y) := by
  have hsame : (u.withTreeOf s).ftAt y = s.ftAt y := h y
  cases hkey : (s.ftAt y).v with
  | false => rw [State.scanSymbol_of_not_key hkey, State.scanSymbol_of_not_key (by rw [hsame, hkey])]
  | true =>
    rw [State.scanSymbol_of_key hkey, State.scanSymbol_of_key (by rw [hsame, hkey]), State.keyLeaf, hsame]
    rfl

theorem State.ftAt_scanSymbol (s : State) (y z : Symbol) : (s.scanSymbol y).ftAt z = s.ftAt z := by
  rw [s.sameOutsideTree_scanSymbol y]
  rfl

theorem State.withTreeOf_scanTable {u s : State} (h : ∀ y : Symbol, u.ftAt y = s.ftAt y) :
    (u.withTreeOf s).scanTable = u.withTreeOf s.scanTable := by
  unfold State.scanTable
  induction allSymbols generalizing s with
  | nil => rfl
  | cons y l ih =>
    rw [List.foldl_cons, List.foldl_cons, State.withTreeOf_scanSymbol h]
    exact ih fun z => (h z).trans (State.ftAt_scanSymbol s y z).symm

theorem State.withTreeOf_mergeLoop (u s : State) (n : Nat) :
    (u.withTreeOf s).mergeLoop n = u.withTreeOf (s.mergeLoop n) := by
  induction n generalizing s with
  | zero => rfl
  | succ n ih =>
    unfold State.mergeLoop
    by_cases hlen : 1 < s.pq.length
    · rw [if_pos hlen, if_pos (show 1 < (u.withTreeOf s).pq.length from hlen)]
      exact ih s.mergeStep
    · rw [if_neg hlen, if_neg (show ¬ 1 < (u.withTreeOf s).pq.length from hlen)]

theorem State.withTreeOf_buildTree (u s : State) : (u.withTreeOf s).buildTree = u.withTreeOf s.buildTree := by
  unfold State.buildTree
  by_cases hone : s.nleaf = 1
  · rw [if_pos hone, if_pos (show (u.withTreeOf s).nleaf = 1 from hone)]
    rfl
  · rw [if_neg hone, if_neg (show ¬ (u.withTreeOf s).nleaf = 1 from hone), State.withTreeOf_mergeLoop]
    rfl

/-- The cleared states differ only in what the scan carries along, and the scan reads equal tables alike. -/
theorem State.scanTable_eq_withTreeOf {s s' : State} (h : ∀ y : Symbol, s.ftAt y = s'.ftAt y) :
    s.clearDerived.scanTable = s.clearDerived.withTreeOf s'.clearDerived.scanTable :=
  have hclear : s.clearDerived = s.clearDerived.withTreeOf s'.clearDerived := rfl
  (congrArg State.scanTable hclear).trans (State.withTreeOf_scanTable h)

/-- Settles O24: over equal tables the scanned states differ only in what the build carries along. -/
theorem tbBuildDependsOnTheTableAlone : Obligations.TbBuildDependsOnTheTableAlone := by
  intro s s' h
  have hscan := State.scanTable_eq_withTreeOf h
  have hnleaf : s.clearDerived.scanTable.nleaf = s'.clearDerived.scanTable.nleaf := by
    rw [hscan, State.withTreeOf_nleaf]
  by_cases hnone : s'.clearDerived.scanTable.nleaf = 0
  · exact ⟨_, _, exec_tbBuild_of_no_leaf (hnleaf.trans hnone), exec_tbBuild_of_no_leaf hnone, rfl, rfl, rfl, rfl, rfl⟩
  · refine ⟨_, _, exec_tbBuild_of_leaf (by rwa [hnleaf]), exec_tbBuild_of_leaf hnone, ?_⟩
    rw [hscan, State.withTreeOf_buildTree]
    generalize s'.clearDerived.scanTable.buildTree = t
    exact ⟨rfl, rfl, rfl, rfl, rfl⟩

end Sys2Proof.Machine

namespace Sys2Proof.Machine

open Sys2Proof.Spec

/-! ### Indices as numbers -/

theorem toNat_ofNat_lt {w i n : Nat} (h : i < n) : (BitVec.ofNat w i).toNat < n := by
  rw [BitVec.toNat_ofNat]
  exact Nat.lt_of_le_of_lt (Nat.mod_le _ _) h

theorem nodup_range_ofNat {w n : Nat} (hn : n ≤ 2 ^ w) : ((List.range n).map (BitVec.ofNat w)).Nodup := by
  refine List.Nodup.map_on (fun i hi j hj heq => ?_) List.nodup_range
  rw [List.mem_range] at hi hj
  have hmod := congrArg BitVec.toNat heq
  rwa [BitVec.toNat_ofNat, BitVec.toNat_ofNat, Nat.mod_eq_of_lt (hi.trans_le hn), Nat.mod_eq_of_lt (hj.trans_le hn)] at hmod

/-! ### The keys of the table in ascending order (42_tree_builder.md R124) -/

/-- The keys of the table below `k`, in ascending order. -/
def State.keysUpTo (s : State) (k : Nat) : List Symbol :=
  ((List.range k).map (BitVec.ofNat 8)).filter fun y => (s.ftAt y).v

theorem State.keysUpTo_succ (s : State) (k : Nat) :
    s.keysUpTo (k + 1) = s.keysUpTo k ++ if (s.ftAt (BitVec.ofNat 8 k)).v then [BitVec.ofNat 8 k] else [] := by
  rw [State.keysUpTo, List.range_succ, List.map_append, List.filter_append, List.map_singleton, List.filter_singleton]
  cases (s.ftAt (BitVec.ofNat 8 k)).v <;> rfl

theorem State.keysUpTo_prefix (s : State) {j k : Nat} (h : j ≤ k) : s.keysUpTo j <+: s.keysUpTo k := by
  induction k, h using Nat.le_induction with
  | base => exact List.prefix_rfl
  | succ k _ ih =>
    rw [State.keysUpTo_succ]
    exact ih.trans (List.prefix_append _ _)

theorem State.mem_keysUpTo {s : State} {y : Symbol} : y ∈ s.keysUpTo 256 ↔ (s.ftAt y).v = true := by
  simp only [State.keysUpTo, List.mem_filter, List.mem_map, List.mem_range, and_iff_right_iff_imp]
  exact fun _ => ⟨y.toNat, y.isLt, by simp⟩

theorem State.keysUpTo_nodup (s : State) : (s.keysUpTo 256).Nodup := (nodup_range_ofNat le_rfl).filter _

theorem keysBelow_eq (s : State) (y : Symbol) : keysBelow s y = (s.keysUpTo y.toNat).length := by
  rw [keysBelow, State.keysUpTo, List.filter_map, List.length_map]
  rfl

/-- A key stands in the list of keys behind the keys below it. -/
theorem State.getElem?_keysUpTo {s : State} {y : Symbol} (hy : (s.ftAt y).v = true) :
    (s.keysUpTo 256)[keysBelow s y]? = some y := by
  obtain ⟨rest, hrest⟩ := s.keysUpTo_prefix (Nat.succ_le_of_lt y.isLt)
  rw [State.keysUpTo_succ, BitVec.ofNat_toNat, BitVec.setWidth_eq, if_pos hy] at hrest
  rw [← hrest, keysBelow_eq]
  simp

/-- A sum over the keys runs over the list of keys. -/
theorem keySum_eq (s : State) (f : Symbol → Nat) : keySum s f = ((s.keysUpTo 256).map f).sum := by
  have hsum (l : List Symbol) : (l.map fun y => if (s.ftAt y).v then f y else 0).sum =
      ((l.filter fun y => (s.ftAt y).v).map f).sum := by
    induction l with
    | nil => rfl
    | cons y l ih => cases hy : (s.ftAt y).v <;> simp [hy, ih]
  rw [State.keysUpTo, ← hsum, List.map_map]
  rfl

theorem keySum_one (s : State) : keySum s (fun _ => 1) = (s.keysUpTo 256).length := by
  rw [keySum_eq, List.map_const', List.sum_replicate_nat, Nat.mul_one]

/-! ### The leaves (42_tree_builder.md R124) -/

/-- The first records, one for each leaf. -/
def State.leafRecords (s : State) : List NodeRec :=
  (List.range s.nleaf.toNat).map fun i => s.nodeAt (BitVec.ofNat 9 i)

theorem State.leafRecords_congr {s t : State} (hnleaf : t.nleaf = s.nleaf)
    (hnode : ∀ i : NodeIdx, i.toNat < s.nleaf.toNat → t.nodeAt i = s.nodeAt i) : t.leafRecords = s.leafRecords := by
  rw [State.leafRecords, hnleaf]
  exact List.map_congr_left fun i hi => hnode _ (toNat_ofNat_lt (List.mem_range.1 hi))

/-- The records at the indices of the leaves are the leaves of the keys of `s`, in ascending order. -/
def State.hasLeavesOf (t s : State) : Prop := t.leafRecords = (s.keysUpTo 256).map s.keyLeaf

section
variable {s t : State} (h : t.hasLeavesOf s)
include h

theorem State.hasLeavesOf.nleaf : t.nleaf.toNat = (s.keysUpTo 256).length := by
  simpa [State.leafRecords] using congrArg List.length h

/-- The leaf of a key stands at the number of keys below it. -/
theorem State.hasLeavesOf.keyLeaf {y : Symbol} (hy : (s.ftAt y).v = true) :
    (BitVec.ofNat 9 (keysBelow s y)).toNat < t.nleaf.toNat ∧
      t.nodeAt (BitVec.ofNat 9 (keysBelow s y)) = s.keyLeaf y := by
  have hkey := State.getElem?_keysUpTo hy
  obtain ⟨hlt, -⟩ := List.getElem?_eq_some_iff.1 hkey
  rw [← h.nleaf] at hlt
  have hleaf : t.leafRecords[keysBelow s y]? = some (s.keyLeaf y) := by rw [h, List.getElem?_map, hkey]; rfl
  rw [State.leafRecords, List.getElem?_map, List.getElem?_range hlt] at hleaf
  exact ⟨toNat_ofNat_lt hlt, Option.some.inj hleaf⟩

/-- Every leaf is that of a key. -/
theorem State.hasLeavesOf.exists_key {i : NodeIdx} (hi : i.toNat < t.nleaf.toNat) :
    ∃ y, (s.ftAt y).v = true ∧ t.nodeAt i = s.keyLeaf y := by
  have hmem : t.nodeAt i ∈ t.leafRecords :=
    List.mem_map.2 ⟨i.toNat, List.mem_range.2 hi, by rw [BitVec.ofNat_toNat, BitVec.setWidth_eq]⟩
  rw [h, List.mem_map] at hmem
  obtain ⟨y, hy, hnode⟩ := hmem
  exact ⟨y, State.mem_keysUpTo.1 hy, hnode.symm⟩

end

theorem State.keyLeaf_eq (s : State) (y : Symbol) :
    s.keyLeaf y = ⟨.leaf, y, BitVec.ofNat 40 (s.ftAt y).cnt.toNat, 0, 0⟩ := by
  rw [BitVec.ofNat_toNat]
  rfl

theorem State.keyLeaf_freq (s : State) (y : Symbol) : (s.keyLeaf y).freq.toNat = (s.ftAt y).cnt.toNat :=
  BitVec.toNat_setWidth_of_le (by decide)

end Sys2Proof.Machine

namespace Sys2Proof.Machine

open Sys2Proof.Spec

/-! ### The greedy merge, record by record (42_tree_builder.md R124, R125) -/

/-- Record `r` joins the least and the second least of the records that wait when it is made. -/
def State.joinsTwoLeast (s : State) (r : NodeIdx) : Prop :=
  ∃ x y : NodeIdx, waiting s r x ∧ waiting s r y ∧ keyBefore s x y ∧
    (∀ j, waiting s r j → j ≠ x → j ≠ y → keyBefore s y j) ∧
    s.nodeAt r = ⟨.internal, 0, BitVec.ofNat 40 ((s.nodeAt x).freq.toNat + (s.nodeAt y).freq.toNat), x, y⟩

/-- What holds of the arena and the queue while `TB_BUILD` scans and merges, beside `Forest`: the queue is sorted, the records
from `NNODE` up are as after reset, and each internal record joined the two least. -/
structure Greedy (s : State) : Prop where
  sorted : queueSorted s
  free : ∀ i : NodeIdx, s.nnode.toNat ≤ i.toNat → s.nodeAt i = NodeRec.empty
  joined : ∀ r : NodeIdx, (s.nodeAt r).kind = .internal → s.joinsTwoLeast r

theorem Greedy.empty {s : State} (hnode : s.node = []) (hpq : s.pq = []) : Greedy s := by
  have hfree (i : NodeIdx) : s.nodeAt i = NodeRec.empty := by simp [State.nodeAt, nodeRec, hnode]
  constructor <;> simp [queueSorted, hpq, hfree, NodeRec.empty]

/-- What waits is read off the records below. -/
theorem waiting_congr {s t : State} {r : NodeIdx} (h : ∀ i : NodeIdx, i.toNat < r.toNat → t.nodeAt i = s.nodeAt i)
    (j : NodeIdx) : waiting t r j ↔ waiting s r j := by
  unfold waiting State.isChild
  refine and_congr_right fun _ => forall_congr' fun i => forall_congr' fun x => imp_congr_right fun hi => ?_
  rw [h i hi]

theorem State.joinsTwoLeast.congr {s t : State} {r : NodeIdx} (hr : s.joinsTwoLeast r)
    (h : ∀ i : NodeIdx, i.toNat ≤ r.toNat → t.nodeAt i = s.nodeAt i) : t.joinsTwoLeast r := by
  have hwait := waiting_congr fun i hi => h i (Nat.le_of_lt hi)
  have hbelow {j : NodeIdx} (hj : waiting s r j) : t.nodeAt j = s.nodeAt j := h j (Nat.le_of_lt hj.1)
  obtain ⟨x, y, hx, hy, hxy, hleast, hnode⟩ := hr
  refine ⟨x, y, (hwait x).2 hx, (hwait y).2 hy, (keyBefore_congr (hbelow hx) (hbelow hy)).2 hxy, ?_, ?_⟩
  · intro j hj hjx hjy
    have hj' := (hwait j).1 hj
    exact (keyBefore_congr (hbelow hy) (hbelow hj')).2 (hleast j hj' hjx hjy)
  · rw [h r le_rfl, hbelow hx, hbelow hy, hnode]

/-- One record more, the queue sorted again, and the new record a leaf or a join. -/
theorem Greedy.grow {s t : State} {n : NodeRec} (h : Greedy s) (hr : Records s) (hg : s.growsBy t n)
    (hsorted : queueSorted t) (hnew : n.kind = .internal → t.joinsTwoLeast s.nextIdx) : Greedy t where
  sorted := hsorted
  free i hi := by
    have hnnode := hg.nnode
    rcases hg.eq_or_nodeAt i with ⟨-, he, -⟩ | ⟨-, -, hnode⟩
    · omega
    · rw [hnode]
      exact h.free i (by omega)
  joined r hk := by
    rcases hg.eq_or_nodeAt r with ⟨rfl, -, hnode⟩ | ⟨-, -, hnode⟩ <;> rw [hnode] at hk
    · exact hnew hk
    · obtain ⟨-, hlt⟩ := (hr.internal_iff r).1 hk
      exact (h.joined r hk).congr fun i hi => hg.nodeAt_of_lt (Nat.lt_of_le_of_lt hi hlt)

theorem Greedy.scanSymbol {s : State} (h : Greedy s) (hf : Forest s) (hs : s.nnode.toNat ≤ 510) (y : Symbol) :
    Greedy (s.scanSymbol y) := by
  cases hkey : (s.ftAt y).v with
  | false => rwa [State.scanSymbol_of_not_key hkey]
  | true =>
    refine h.grow hf.records (State.scanSymbol_growsBy hkey hs) ?_ nofun
    rw [State.scanSymbol_of_key hkey]
    exact queueSorted_pqInsert_of_growsBy (State.growsBy_of_alloc (n := s.keyLeaf y) hs rfl rfl) h.sorted hf.roots.queued
      (List.Sublist.refl _)

/-- The next record's waiting nodes are the queued ones. -/
theorem Forest.waiting_iff {s t : State} {n : NodeRec} (h : Forest s) (hg : s.growsBy t n) (j : NodeIdx) :
    waiting t s.nextIdx j ↔ j ∈ s.pq := by
  have hnext := State.nextIdx_toNat hg.room
  rw [waiting_congr fun i hi => hg.nodeAt_of_lt (hnext ▸ hi)]
  constructor
  · rintro ⟨hlt, hnone⟩
    by_contra hmem
    obtain ⟨i, x, hc, -⟩ := h.roots.oneParent j (hnext ▸ hlt) hmem
    obtain ⟨-, hi⟩ := h.records.isChild_lt hc
    exact hnone i x (hnext.symm ▸ hi) hc
  · exact fun hj => ⟨hnext.symm ▸ h.roots.queued j hj, fun i x _ => h.roots.orphans j hj i x⟩

theorem Greedy.mergeStep {s : State} (h : Greedy s) (hf : Forest s) {x y : NodeIdx} {rest : List NodeIdx}
    (hpq : s.pq = x :: y :: rest) (hs : s.nnode.toNat ≤ 510) : Greedy s.mergeStep := by
  have hg := State.mergeStep_growsBy hpq hs
  have hwait := hf.waiting_iff hg
  have hold (j : NodeIdx) (hj : j ∈ s.pq) : s.mergeStep.nodeAt j = s.nodeAt j := hg.nodeAt_of_lt (hf.roots.queued j hj)
  have hx : x ∈ s.pq := by simp [hpq]
  have hy : y ∈ s.pq := by simp [hpq]
  have hsorted := h.sorted
  rw [queueSorted, hpq] at hsorted
  obtain ⟨hxrest, hyrest⟩ := List.pairwise_cons.1 hsorted
  obtain ⟨hyrest, -⟩ := List.pairwise_cons.1 hyrest
  refine h.grow hf.records hg (queueSorted_mergeStep hpq hs h.sorted hf.roots.queued) fun _ => ?_
  refine ⟨x, y, (hwait x).2 hx, (hwait y).2 hy, (keyBefore_congr (hold x hx) (hold y hy)).2 (hxrest y (by simp)), ?_, ?_⟩
  · intro j hj hjx hjy
    have hj := (hwait j).1 hj
    refine (keyBefore_congr (hold y hy) (hold j hj)).2 (hyrest j ?_)
    simpa [hpq, hjx, hjy] using hj
  · rw [hg.nodeAt_new, hold x hx, hold y hy, ofNat_toNat_add_toNat]

theorem Greedy.mergeLoop {s : State} (n : Nat) (h : Greedy s) (hf : Forest s) : Greedy (s.mergeLoop n) := by
  induction n generalizing s with
  | zero => exact h
  | succ n ih =>
    unfold State.mergeLoop
    split
    · next hlen =>
      obtain ⟨x, y, rest, hpq⟩ := exists_two_of_one_lt_length hlen
      have hsize := hf.size
      have hleaves := hf.leaves_le
      exact ih (h.mergeStep hf hpq (by omega)) (hf.mergeStep hlen).1
    · exact h

/-! ### The scan finds the keys (42_tree_builder.md R124) -/

/-- What holds of the scan after the symbols below `k`, beside `Scanned`: the leaves are those of the keys below `k`. -/
structure ScannedKeys (s₀ s : State) (k : Nat) : Prop where
  greedy : Greedy s
  table : ∀ y : Symbol, s.ftAt y = s₀.ftAt y
  leaves : s.leafRecords = (s₀.keysUpTo k).map s₀.keyLeaf

theorem ScannedKeys.scanSymbol {s₀ s : State} {k : Nat} (h : ScannedKeys s₀ s k) (hs : Scanned s₀ s k) (hk : k < 256) :
    ScannedKeys s₀ (s.scanSymbol (BitVec.ofNat 8 k)) (k + 1) := by
  have hcount := hs.count
  have hsame := hs.onlyLeaves
  have hroom : s.nnode.toNat ≤ 510 := by omega
  have hentry := h.table (BitVec.ofNat 8 k)
  constructor
  case greedy => exact h.greedy.scanSymbol hs.forest hroom _
  case table => exact fun y => (s.ftAt_scanSymbol _ y).trans (h.table y)
  case leaves =>
    rw [State.keysUpTo_succ]
    cases hkey : (s.ftAt (BitVec.ofNat 8 k)).v with
    | false => rw [State.scanSymbol_of_not_key hkey, ← hentry, hkey, h.leaves]; simp
    | true =>
      have hg := State.scanSymbol_growsBy hkey hroom
      have hnew : (s.scanSymbol (BitVec.ofNat 8 k)).nodeAt (BitVec.ofNat 9 s.nleaf.toNat) =
          s₀.keyLeaf (BitVec.ofNat 8 k) := by
        rw [← hsame, ← State.nextIdx_eq_ofNat, hg.nodeAt_new, State.keyLeaf, hentry]
        rfl
      have hold : (List.range s.nleaf.toNat).map (fun i => (s.scanSymbol (BitVec.ofNat 8 k)).nodeAt (BitVec.ofNat 9 i)) =
          s.leafRecords :=
        List.map_congr_left fun i hi => hg.nodeAt_of_lt (hsame ▸ toNat_ofNat_lt (List.mem_range.1 hi))
      rw [State.leafRecords, State.scanSymbol_nleaf hkey (by omega), List.range_succ, List.map_append, hold, h.leaves,
        List.map_singleton, hnew, ← hentry, hkey]
      simp

theorem Scanned.start (s : State) : Scanned s.clearDerived s.clearDerived 0 := by
  constructor
  case forest => exact Forest.empty rfl rfl rfl rfl
  case unchanged => exact fun _ => rfl
  all_goals simp

theorem ScannedKeys.clearDerived (s : State) : ScannedKeys s.clearDerived s.clearDerived.scanTable 256 := by
  have hscan : ∀ k ≤ 256, ∃ u, ((List.range k).map (BitVec.ofNat 8)).foldl State.scanSymbol s.clearDerived = u ∧
      Scanned s.clearDerived u k ∧ ScannedKeys s.clearDerived u k := by
    intro k
    induction k with
    | zero => exact fun _ => ⟨_, rfl, Scanned.start s, Greedy.empty rfl rfl, fun _ => rfl, rfl⟩
    | succ k ih =>
      intro hk
      obtain ⟨u, hu, hs, hkeys⟩ := ih (by omega)
      rw [List.range_succ, List.map_append, List.foldl_append, hu]
      exact ⟨_, rfl, hs.scanSymbol (by omega), hkeys.scanSymbol hs (by omega)⟩
  obtain ⟨_, rfl, -, hkeys⟩ := hscan 256 le_rfl
  exact hkeys

end Sys2Proof.Machine

namespace Sys2Proof.Machine

open Sys2Proof.Spec

/-! ### The tree that `TB_BUILD` leaves (42_tree_builder.md R126, R130) -/

/-- The state that `TB_BUILD` builds from a table with a key, before its answer; irreducible, so that no comparison of states
runs the scan. -/
@[irreducible] def State.built (s : State) : State := s.clearDerived.scanTable.buildTree

theorem State.built_eq_buildTree (s : State) : s.built = s.clearDerived.scanTable.buildTree := by
  unfold State.built
  rfl

/-- The leaves stay as they are while other records are made. -/
theorem Forest.leafRecords_mergeLoop {s : State} (n : Nat) (h : Forest s) : (s.mergeLoop n).leafRecords = s.leafRecords := by
  induction n generalizing s with
  | zero => rfl
  | succ n ih =>
    unfold State.mergeLoop
    split
    · next hlen =>
      obtain ⟨x, y, rest, hpq⟩ := exists_two_of_one_lt_length hlen
      have hsize := h.size
      have hleaves := h.leaves_le
      have hle := h.records.leaves_le
      have hg := State.mergeStep_growsBy hpq (by omega)
      rw [ih (h.mergeStep hlen).1]
      exact State.leafRecords_congr rfl fun i hi => hg.nodeAt_of_lt (Nat.lt_of_lt_of_le hi hle)
    · rfl

theorem Scanned.leafRecords_buildTree {s₀ s : State} {k : Nat} (h : Scanned s₀ s k) :
    s.buildTree.leafRecords = s.leafRecords := by
  unfold State.buildTree
  split
  · next hone =>
    obtain ⟨hnnode, hpq⟩ := h.single hone
    refine State.leafRecords_congr rfl fun i hi => (State.singleSymbol_nodeAt hnnode hpq i).trans ?_
    rw [hone] at hi
    rw [if_neg (by bv_omega), if_neg (by bv_omega)]
  · exact h.forest.leafRecords_mergeLoop 255

theorem State.scanTable_hasLeavesOf (s : State) : s.clearDerived.scanTable.hasLeavesOf s :=
  (ScannedKeys.clearDerived s).leaves

theorem State.built_hasLeavesOf (s : State) : s.built.hasLeavesOf s := by
  rw [State.built_eq_buildTree]
  exact (Scanned.clearDerived s).leafRecords_buildTree.trans s.scanTable_hasLeavesOf

theorem State.scanTable_nleaf_ne_zero {s : State} (h : ∃ y : Symbol, (s.ftAt y).v = true) :
    s.clearDerived.scanTable.nleaf ≠ 0 := by
  obtain ⟨y, hy⟩ := h
  obtain ⟨hlt, -⟩ := s.scanTable_hasLeavesOf.keyLeaf hy
  intro hzero
  rw [hzero] at hlt
  exact Nat.not_lt_zero _ hlt

theorem exec_tbBuild_of_key {s : State} (h : ∃ y : Symbol, (s.ftAt y).v = true) :
    exec .tbBuild s = .next (answer s.built 0 (s.built.nnode.toNat * 2 ^ 9 + s.built.root.toNat)) := by
  rw [State.built_eq_buildTree]
  exact exec_tbBuild_of_leaf (State.scanTable_nleaf_ne_zero h)

theorem State.built_tree {s : State} (h : ∃ y : Symbol, (s.ftAt y).v = true) :
    TreeInv s.built ∧ Memory.wf 511 NodeRec.empty s.built.node ∧ s.built.treeValid = true ∧
      s.built.pq = [s.built.root] ∧ s.built.decCur = s.built.root := by
  rw [State.built_eq_buildTree]
  exact (Scanned.clearDerived s).buildTree (State.scanTable_nleaf_ne_zero h)

/-- What `TB_BUILD` clears and what it keeps (42_tree_builder.md R126, R127). -/
theorem State.built_eq {s : State} (h : ∃ y : Symbol, (s.ftAt y).v = true) :
    s.built = { s with
      node := s.built.node, nnode := s.built.nnode, nleaf := s.built.nleaf, root := s.built.root, treeValid := true,
      pq := [s.built.root], ct := [], codesValid := false, encSymCnt := 0, encBitCnt := 0, pkBuf := 0, pkCnt := 0,
      decCur := s.built.root, decSymCnt := 0 } := by
  have hsame : s.clearDerived.sameOutsideTree s.built := by
    rw [State.built_eq_buildTree]
    exact State.sameOutsideTree_trans s.clearDerived.sameOutsideTree_scanTable (State.sameOutsideTree_buildTree _)
  obtain ⟨-, -, hvalid, hpq, hcur⟩ := State.built_tree h
  rw [State.sameOutsideTree, hvalid, hpq, hcur] at hsame
  exact hsame

/-! ### No leaf's path goes on (42_tree_builder.md R133) -/

/-- A path goes on from where its first part leads. -/
theorem followPath_append_eq (node : List (Nat × NodeRec)) (i : NodeIdx) (p q : List Bool) :
    followPath node i (p ++ q) = (followPath node i p).bind fun j => followPath node j q := by
  induction p generalizing i with
  | nil => rfl
  | cons x p ih =>
    rw [List.cons_append, followPath, followPath]
    split
    · split
      · exact ih _
      · rfl
    · rfl

theorem State.leadsTo_prefix_eq {s : State} {p q : List Bool} {y z : Symbol} (hp : s.leadsTo p y) (hq : s.leadsTo q z)
    (hpq : p <+: q) : p = q := by
  obtain ⟨i, hi, hleaf, -⟩ := hp
  obtain ⟨j, hj, -, -⟩ := hq
  obtain ⟨r, rfl⟩ := hpq
  cases r with
  | nil => rw [List.append_nil]
  | cons x r =>
    rw [followPath_append_eq, hi] at hj
    obtain ⟨-, hk, -⟩ := followPath_cons_iff.1 hj
    cases hleaf.symm.trans hk

/-- Settles O22: the scanned table is a forest of the keys' leaves, and the merges, or the single-symbol rule, make it one
tree. -/
theorem tbBuildBuildsTheTree : Obligations.TbBuildBuildsTheTree := by
  intro s h
  obtain ⟨htree, harena, -, -, -⟩ := State.built_tree h
  refine ⟨_, exec_tbBuild_of_key h, ?_, harena, htree.of_same_tree rfl rfl rfl rfl, ?_, ?_, ?_⟩
  · have hframe := State.built_eq h
    generalize s.built = b at hframe ⊢
    rw [hframe]
    rfl
  · intro y hy
    rw [← State.keyLeaf_eq]
    exact ⟨_, s.built_hasLeavesOf.keyLeaf hy⟩
  · intro i hi
    obtain ⟨y, hy, hnode⟩ := s.built_hasLeavesOf.exists_key hi
    change (s.ftAt (s.built.nodeAt i).sym).v = true
    rw [hnode]
    exact hy
  · exact fun p q y z => State.leadsTo_prefix_eq

/-! ### One key (42_tree_builder.md R129) -/

theorem State.keysUpTo_of_single {s : State} {y : Symbol} (h : ∀ z : Symbol, (s.ftAt z).v = true ↔ z = y) :
    s.keysUpTo 256 = [y] := by
  refine List.perm_singleton.1 ((List.perm_ext_iff_of_nodup s.keysUpTo_nodup (List.nodup_singleton y)).2 fun z => ?_)
  rw [State.mem_keysUpTo, h, List.mem_singleton]

/-- The records of the tree of one key. -/
theorem Scanned.buildTree_nodeAt {s₀ s : State} {k : Nat} (h : Scanned s₀ s k) (hone : s.nleaf = 1) (i : NodeIdx) :
    s.buildTree.nodeAt i = if 2 = i then ⟨.internal, 0, (s.nodeAt 0).freq, 0, 1⟩
      else if 1 = i then ⟨.sentinel, 0, 0, 0, 0⟩ else s.nodeAt i := by
  obtain ⟨hnnode, hpq⟩ := h.single hone
  rw [State.buildTree, if_pos hone]
  exact State.singleSymbol_nodeAt hnnode hpq i

/-- Settles O23: the scan leaves the one leaf, record 0, and the single-symbol rule adds records 1 and 2. -/
theorem singleKeyTree : Obligations.SingleKeyTree := by
  intro s y h
  have hkey : (s.ftAt y).v = true := (h y).2 rfl
  have hkeys := State.keysUpTo_of_single h
  have hscan := s.scanTable_hasLeavesOf
  have hone : s.clearDerived.scanTable.nleaf = 1 :=
    BitVec.eq_of_toNat_eq (by rw [hscan.nleaf, hkeys]; rfl)
  have hleaf : s.clearDerived.scanTable.nodeAt 0 = s.keyLeaf y := by
    have hrecord : s.clearDerived.scanTable.leafRecords = [s.keyLeaf y] := by rw [hscan, hkeys]; rfl
    rw [State.leafRecords, hone] at hrecord
    exact (List.cons.inj hrecord).1
  obtain ⟨hnnode, hnleaf, hroot⟩ : s.built.nnode = 3 ∧ s.built.nleaf = 1 ∧ s.built.root = 2 := by
    rw [State.built_eq_buildTree, State.buildTree, if_pos hone]
    exact ((Scanned.clearDerived s).sentinelTree hone).sizes
  have hframe := State.built_eq ⟨y, hkey⟩
  have hnode := (Scanned.clearDerived s).buildTree_nodeAt hone
  rw [← State.built_eq_buildTree, hleaf, State.keyLeaf_eq] at hnode
  have hfree (i : NodeIdx) (hi : 2 < i.toNat) : s.clearDerived.scanTable.nodeAt i = NodeRec.empty := by
    refine (ScannedKeys.clearDerived s).greedy.free i ?_
    rw [((Scanned.clearDerived s).single hone).1]
    exact Nat.le_of_lt (Nat.lt_of_succ_lt hi)
  refine ⟨_, exec_tbBuild_of_key ⟨y, hkey⟩, ?_, hnnode, hnleaf, hroot, ?_, ?_, ?_, ?_, hnode 1, hnode 2, ?_⟩
  · rw [hnnode, hroot, State.rspTrace, answer, hframe, List.filterMap_append]
    rfl
  · rw [hframe]
    rfl
  · rw [hframe, hroot]
    rfl
  · rw [hframe, hroot]
    rfl
  · refine (hnode 0).trans ?_
    rw [if_neg (by decide), if_neg (by decide), hleaf, State.keyLeaf_eq]
  · intro i hi
    refine (hnode i).trans ?_
    rw [if_neg (by bv_omega), if_neg (by bv_omega), hfree i hi]
    rfl

/-- Beside two leaves or more all other records are internal (42_tree_builder.md R130). -/
theorem TreeInv.internal_of_nleaf_le {s : State} (h : TreeInv s) (hmany : 2 ≤ s.nleaf.toNat) {i : NodeIdx}
    (hlo : s.nleaf.toNat ≤ i.toNat) (hhi : i.toNat < s.nnode.toNat) : (s.nodeAt i).kind = .internal := by
  cases hk : (s.nodeAt i).kind with
  | free => exact absurd hk ((h.allocated i).2 hhi)
  | leaf => exact absurd ((h.leafPlace i).1 hk) hlo.not_gt
  | sentinel =>
    obtain ⟨hone, -⟩ := h.sentinelFields i hk
    omega
  | internal => rfl

/-! ### Two keys or more (42_tree_builder.md R124 to R126) -/

theorem Greedy.finishTree {s : State} (h : Greedy s) : Greedy s.finishTree := ⟨h.sorted, h.free, h.joined⟩

/-- With two keys or more every internal record joined the two least. -/
theorem State.built_greedy {s : State} (h : s.clearDerived.scanTable.nleaf ≠ 1) : Greedy s.built := by
  rw [State.built_eq_buildTree, State.buildTree, if_neg h]
  exact ((ScannedKeys.clearDerived s).greedy.mergeLoop 255 (Scanned.clearDerived s).forest).finishTree

/-- Settles O54: each merge joins the two nodes at the head of the queue, which holds exactly the waiting records in key
order. -/
theorem tbBuildMergesInKeyOrder : Obligations.TbBuildMergesInKeyOrder := by
  intro s hmany
  rw [keySum_one] at hmany
  have hleaves := s.built_hasLeavesOf
  have hkey : ∃ y : Symbol, (s.ftAt y).v = true := by
    obtain ⟨y, hy⟩ := List.exists_mem_of_length_pos (Nat.lt_of_lt_of_le Nat.zero_lt_two hmany)
    exact ⟨y, State.mem_keysUpTo.1 hy⟩
  obtain ⟨htree, -, -, -, -⟩ := State.built_tree hkey
  have hgreedy : Greedy s.built := State.built_greedy fun hone => by
    have := s.scanTable_hasLeavesOf.nleaf
    rw [hone, show (1 : BitVec 9).toNat = 1 from rfl] at this
    omega
  have hsize := htree.sizeMany (hleaves.nleaf ▸ hmany)
  obtain ⟨hlast, -⟩ := htree.rootLast
  refine ⟨_, exec_tbBuild_of_key hkey, ?_, hsize, ?_, ?_, ?_, ?_⟩
  · rw [keySum_one]
    exact hleaves.nleaf
  · change s.built.root.toNat = 2 * s.built.nleaf.toNat - 2
    omega
  · intro y hy
    rw [← State.keyLeaf_eq]
    exact (hleaves.keyLeaf hy).2
  · intro r hlo hhi
    exact hgreedy.joined r (htree.internal_of_nleaf_le (hleaves.nleaf ▸ hmany) hlo hhi)
  · exact hgreedy.free

end Sys2Proof.Machine

namespace Sys2Proof.Huffman

/-! ### Weights with code lengths (42_tree_builder.md R133) -/

/-- The weighted length of weights, each with the length of its codeword. -/
def cost (P : Multiset (ℕ × ℕ)) : ℕ := (P.map fun p => p.1 * p.2).sum

/-- The Kraft sum of code lengths. -/
noncomputable def kraft (L : Multiset ℕ) : ℝ := (L.map fun l => (1 / 2 : ℝ) ^ l).sum

@[simp] theorem cost_cons (w l : ℕ) (P : Multiset (ℕ × ℕ)) : cost ((w, l) ::ₘ P) = w * l + cost P := by simp [cost]

@[simp] theorem kraft_cons (l : ℕ) (L : Multiset ℕ) : kraft (l ::ₘ L) = (1 / 2 : ℝ) ^ l + kraft L := by simp [kraft]

/-- A longest codeword may as well go to the least weight. -/
theorem exists_longest_first (w l : ℕ) (P : Multiset (ℕ × ℕ)) (hw : ∀ p ∈ P, w ≤ p.1) :
    ∃ (m : ℕ) (Q : Multiset (ℕ × ℕ)), Q.map Prod.fst = P.map Prod.fst ∧
      m ::ₘ Q.map Prod.snd = l ::ₘ P.map Prod.snd ∧ (∀ p ∈ Q, p.2 ≤ m) ∧ w * m + cost Q ≤ w * l + cost P := by
  induction P using Multiset.induction_on with
  | empty => exact ⟨l, 0, rfl, rfl, by simp, le_rfl⟩
  | cons p P ih =>
    obtain ⟨v, k⟩ := p
    obtain ⟨hv, hP⟩ := Multiset.forall_mem_cons.1 hw
    obtain ⟨m, Q, hfst, hsnd, hlongest, hcost⟩ := ih hP
    rcases le_or_gt k m with hkm | hmk
    · refine ⟨m, (v, k) ::ₘ Q, by simp [hfst], ?_, Multiset.forall_mem_cons.2 ⟨hkm, hlongest⟩, ?_⟩
      · rw [Multiset.map_cons, Multiset.map_cons, Multiset.cons_swap, hsnd, Multiset.cons_swap]
      · simp only [cost_cons]
        omega
    · refine ⟨k, (v, m) ::ₘ Q, by simp [hfst], ?_, Multiset.forall_mem_cons.2 ⟨hmk.le, fun p hp => ?_⟩, ?_⟩
      · rw [Multiset.map_cons, Multiset.map_cons, hsnd, Multiset.cons_swap]
      · exact (hlongest p hp).trans hmk.le
      · have hswap : w * k + v * m ≤ w * m + v * k := mul_add_mul_le_mul_add_mul hv hmk.le
        simp only [cost_cons]
        omega

/-- A Kraft sum of lengths up to `m` is a whole number of codewords of length `m`. -/
theorem exists_kraft_eq (m : ℕ) (L : Multiset ℕ) (hL : ∀ l ∈ L, l ≤ m) :
    ∃ n : ℕ, kraft L = n * (1 / 2 : ℝ) ^ m := by
  induction L using Multiset.induction_on with
  | empty => exact ⟨0, by simp [kraft]⟩
  | cons l L ih =>
    obtain ⟨hl, hL⟩ := Multiset.forall_mem_cons.1 hL
    obtain ⟨n, hn⟩ := ih hL
    refine ⟨2 ^ (m - l) + n, ?_⟩
    have hpow : (1 / 2 : ℝ) ^ l = 2 ^ (m - l) * (1 / 2 : ℝ) ^ m := by
      obtain ⟨d, rfl⟩ := Nat.exists_eq_add_of_le hl
      rw [Nat.add_sub_cancel_left, pow_add, mul_left_comm, ← mul_pow]
      norm_num
    rw [kraft_cons, hn, hpow]
    push_cast
    ring

/-- A codeword of `m` bits, no other but one being longer, has room for a second of its length beside it, so the two longest
can be joined one bit higher. -/
theorem kraft_join {k m : ℕ} {L : Multiset ℕ} (hL : ∀ l ∈ L, l ≤ m) (hkraft : kraft (k ::ₘ m ::ₘ L) ≤ 1) :
    1 ≤ m ∧ kraft ((m - 1) ::ₘ L) ≤ 1 := by
  obtain ⟨n, hn⟩ := exists_kraft_eq m L hL
  have hunit : (2 : ℝ) ^ m * (1 / 2 : ℝ) ^ m = 1 := by rw [← mul_pow]; norm_num
  have hpos : (0 : ℝ) < (1 / 2 : ℝ) ^ m := by positivity
  have hpos' : (0 : ℝ) < (1 / 2 : ℝ) ^ k := by positivity
  rw [kraft_cons, kraft_cons, hn] at hkraft
  have hlt : (n : ℝ) + 1 < 2 ^ m := by
    refine lt_of_mul_lt_mul_right ?_ hpos.le
    rw [hunit]
    linarith
  have hroom : n + 2 ≤ 2 ^ m := by exact_mod_cast hlt
  have hm : 1 ≤ m := by
    rcases Nat.eq_zero_or_pos m with rfl | hm
    · rw [pow_zero] at hroom
      omega
    · exact hm
  refine ⟨hm, ?_⟩
  have htwo : (1 / 2 : ℝ) ^ (m - 1) = 2 * (1 / 2 : ℝ) ^ m := by
    obtain ⟨d, rfl⟩ := Nat.exists_eq_add_of_le' hm
    rw [Nat.add_sub_cancel, pow_succ]
    ring
  have hroom' : ((n : ℝ) + 2) * (1 / 2 : ℝ) ^ m ≤ 1 := by
    have hcast : (n : ℝ) + 2 ≤ 2 ^ m := by exact_mod_cast hroom
    exact (mul_le_mul_of_nonneg_right hcast hpos.le).trans hunit.le
  rw [kraft_cons, htwo, hn]
  linarith

/-- A weight's length, taken from the front. -/
theorem exists_cons_of_map_fst {w : ℕ} {W : Multiset ℕ} {P : Multiset (ℕ × ℕ)} (h : P.map Prod.fst = w ::ₘ W) :
    ∃ (l : ℕ) (Q : Multiset (ℕ × ℕ)), P = (w, l) ::ₘ Q ∧ Q.map Prod.fst = W := by
  obtain ⟨⟨_, l⟩, hmem, rfl, hrest⟩ := (Multiset.map_eq_cons _ _ _ _).2 h
  exact ⟨l, _, (Multiset.cons_erase hmem).symm, hrest⟩

/-- Huffman's step: lengths that satisfy Kraft's inequality give such lengths with the two least weights joined, which save at
least the joined weight. -/
theorem exists_joined {u v : ℕ} (huv : u ≤ v) (a b : ℕ) (P : Multiset (ℕ × ℕ)) (hv : ∀ p ∈ P, v ≤ p.1)
    (hkraft : kraft (a ::ₘ b ::ₘ P.map Prod.snd) ≤ 1) :
    ∃ (l : ℕ) (Q : Multiset (ℕ × ℕ)), Q.map Prod.fst = P.map Prod.fst ∧ kraft (l ::ₘ Q.map Prod.snd) ≤ 1 ∧
      (u + v) + cost ((u + v, l) ::ₘ Q) ≤ cost ((u, a) ::ₘ (v, b) ::ₘ P) := by
  obtain ⟨k, Q, hfst, hsnd, hlongest, hcost⟩ := exists_longest_first u a ((v, b) ::ₘ P)
    (Multiset.forall_mem_cons.2 ⟨huv, fun p hp => huv.trans (hv p hp)⟩)
  rw [Multiset.map_cons] at hfst
  obtain ⟨c, R, rfl, hrest⟩ := exists_cons_of_map_fst hfst
  have hR : ∀ p ∈ R, v ≤ p.1 := by
    intro p hp
    have hpfst : p.1 ∈ P.map Prod.fst := hrest ▸ Multiset.mem_map_of_mem Prod.fst hp
    obtain ⟨q, hq, hpq⟩ := Multiset.mem_map.1 hpfst
    exact hpq ▸ hv q hq
  obtain ⟨m, Q', hfst', hsnd', hlongest', hcost'⟩ := exists_longest_first v c R hR
  have hlengths : k ::ₘ m ::ₘ Q'.map Prod.snd = a ::ₘ b ::ₘ P.map Prod.snd := by
    rw [hsnd', ← Multiset.map_cons Prod.snd (v, c) R, hsnd, Multiset.map_cons]
  have hmk : m ≤ k := by
    have hm : m ∈ ((v, c) ::ₘ R).map Prod.snd := by
      rw [Multiset.map_cons, ← hsnd']
      exact Multiset.mem_cons_self _ _
    obtain ⟨p, hp, rfl⟩ := Multiset.mem_map.1 hm
    exact hlongest p hp
  rw [← hlengths] at hkraft
  have hbound : ∀ l ∈ Q'.map Prod.snd, l ≤ m := fun l hl => by
    obtain ⟨p, hp, rfl⟩ := Multiset.mem_map.1 hl
    exact hlongest' p hp
  obtain ⟨hm, hjoined⟩ := kraft_join hbound hkraft
  refine ⟨m - 1, Q', hfst'.trans hrest, hjoined, ?_⟩
  simp only [cost_cons] at hcost ⊢
  obtain ⟨d, rfl⟩ := Nat.exists_eq_add_of_le' hm
  have hu : u * (d + 1) ≤ u * k := Nat.mul_le_mul_left u hmk
  rw [Nat.add_sub_cancel]
  linarith

/-! ### Kraft's inequality for instantaneous codes, in which no codeword begins another -/

open InformationTheory in
/-- An instantaneous code without the empty codeword is uniquely decodable. -/
theorem uniquelyDecodable_of_prefixFree {S : Set (List Bool)} (hne : [] ∉ S)
    (hprefix : ∀ p ∈ S, ∀ q ∈ S, p <+: q → p = q) : UniquelyDecodable S := by
  intro L
  induction L with
  | nil =>
    rintro (_ | ⟨q, M⟩) - hM heq
    · rfl
    · obtain ⟨rfl, -⟩ := List.append_eq_nil_iff.1 heq.symm
      exact absurd (hM [] (by simp)) hne
  | cons p L ih =>
    rintro (_ | ⟨q, M⟩) hL hM heq
    · obtain ⟨rfl, -⟩ := List.append_eq_nil_iff.1 heq
      exact absurd (hL [] (by simp)) hne
    · obtain ⟨hp, hL'⟩ := List.forall_mem_cons.1 hL
      obtain ⟨hq, hM'⟩ := List.forall_mem_cons.1 hM
      rw [List.flatten_cons, List.flatten_cons] at heq
      have hpq : p = q := by
        rcases List.prefix_or_prefix_of_prefix (List.prefix_append p L.flatten)
          (heq ▸ List.prefix_append q M.flatten) with h | h
        · exact hprefix p hp q hq h
        · exact (hprefix q hq p hp h).symm
      subst hpq
      rw [ih M hL' hM' (List.append_cancel_left heq)]

/-- The lengths of an instantaneous code's codewords satisfy Kraft's inequality. -/
theorem kraft_le_one_of_prefixFree {α : Type} (l : List α) (c : α → List Bool) (hl : l.Nodup)
    (hne : ∀ y ∈ l, c y ≠ []) (hprefix : ∀ y ∈ l, ∀ z ∈ l, y ≠ z → ¬ c y <+: c z) :
    kraft (Multiset.map (fun y => (c y).length) l) ≤ 1 := by
  have hinj : ∀ y ∈ l, ∀ z ∈ l, c y = c z → y = z := fun y hy z hz heq => by
    by_contra hyz
    exact hprefix y hy z hz hyz (heq ▸ List.prefix_rfl)
  have hcode : InformationTheory.UniquelyDecodable ((l.map c).toFinset : Set (List Bool)) := by
    refine uniquelyDecodable_of_prefixFree ?_ fun p hp q hq hpq => ?_
    · simpa using hne
    · rw [Finset.mem_coe, List.mem_toFinset, List.mem_map] at hp hq
      obtain ⟨y, hy, rfl⟩ := hp
      obtain ⟨z, hz, rfl⟩ := hq
      by_cases hyz : y = z
      · rw [hyz]
      · exact absurd hpq (hprefix y hy z hz hyz)
  have hsum := InformationTheory.kraft_mcmillan_inequality hcode
  rw [List.sum_toFinset _ (hl.map_on hinj), List.map_map, Fintype.card_bool] at hsum
  simpa [kraft, Function.comp_def] using hsum

end Sys2Proof.Huffman

namespace Sys2Proof.Machine

open Sys2Proof.Spec

/-! ### Sums over the records of a tree (10_state.md R50) -/

/-- The leaves of the arena; irreducible, as the next set is, so that no membership is decided by listing the 512 indices. -/
@[irreducible] def State.leaves (s : State) : Finset NodeIdx := {i | (s.nodeAt i).kind = .leaf}

/-- The internal records of the arena. -/
@[irreducible] def State.internals (s : State) : Finset NodeIdx := {i | (s.nodeAt i).kind = .internal}

@[simp] theorem State.mem_leaves {s : State} {i : NodeIdx} : i ∈ s.leaves ↔ (s.nodeAt i).kind = .leaf := by
  unfold State.leaves
  exact Finset.mem_filter_univ i

@[simp] theorem State.mem_internals {s : State} {i : NodeIdx} : i ∈ s.internals ↔ (s.nodeAt i).kind = .internal := by
  unfold State.internals
  exact Finset.mem_filter_univ i

theorem State.sum_leaves (s : State) (f : NodeIdx → Nat) :
    ∑ i ∈ s.leaves, f i = ∑ i : NodeIdx, if (s.nodeAt i).kind = .leaf then f i else 0 := by
  unfold State.leaves
  exact Finset.sum_filter _ _

theorem State.sum_internals (s : State) (f : NodeIdx → Nat) :
    ∑ i ∈ s.internals, f i = ∑ i : NodeIdx, if (s.nodeAt i).kind = .internal then f i else 0 := by
  unfold State.internals
  exact Finset.sum_filter _ _

/-- The sum of the frequencies of the internal records (42_tree_builder.md R133). -/
def State.internalSum (s : State) : Nat := ∑ i ∈ s.internals, (s.nodeAt i).freq.toNat

/-- A sum over the first indices runs over the records there. -/
theorem sum_range_ofNat {n : Nat} (hn : n ≤ 512) (f : NodeIdx → Nat) :
    ((List.range n).map fun i => f (BitVec.ofNat 9 i)).sum = ∑ i : NodeIdx with i.toNat < n, f i := by
  refine (Finset.sum_nbij' (s := Finset.range n) (BitVec.ofNat 9) BitVec.toNat ?_ ?_ ?_ ?_ fun _ _ => rfl)
  · intro i hi
    rw [Finset.mem_range] at hi
    simp only [Finset.mem_filter_univ, BitVec.toNat_ofNat]
    omega
  · intro i hi
    simpa using hi
  · intro i hi
    rw [Finset.mem_range] at hi
    rw [BitVec.toNat_ofNat]
    omega
  · intro i _
    rw [BitVec.ofNat_toNat, BitVec.setWidth_eq]

/-- Each record but the root is counted once as a child (10_state.md R50 item 4). -/
theorem TreeInv.sum_children {s : State} (h : TreeInv s) (f : NodeIdx → Nat) :
    ∑ i ∈ s.internals, (f (s.nodeAt i).left + f (s.nodeAt i).right) =
      ∑ j : NodeIdx with j.toNat < s.nnode.toNat ∧ j ≠ s.root, f j := by
  have hedge (i : NodeIdx) : f (s.nodeAt i).left + f (s.nodeAt i).right = ∑ x : Bool, f ((s.nodeAt i).child x) := by
    simp [NodeRec.child, Nat.add_comm]
  simp only [hedge]
  rw [← Finset.sum_product' _ _ fun i x => f ((s.nodeAt i).child x)]
  have hmem {e : NodeIdx × Bool} : e ∈ s.internals ×ˢ (Finset.univ : Finset Bool) ↔ (s.nodeAt e.1).kind = .internal := by
    rw [Finset.mem_product, State.mem_internals]
    exact and_iff_left (Finset.mem_univ e.2)
  refine Finset.sum_nbij (fun e => (s.nodeAt e.1).child e.2) ?_ ?_ ?_ fun _ _ => rfl
  · rintro ⟨i, x⟩ he
    have hk := hmem.1 he
    have hlt := h.child_lt (x := x) ⟨hk, rfl⟩
    have hi := h.lt_of_internal hk
    obtain ⟨hlast, -⟩ := h.rootLast
    rw [Finset.mem_filter_univ]
    refine ⟨Nat.lt_trans hlt hi, fun hroot => ?_⟩
    rw [hroot] at hlt
    omega
  · rintro ⟨i, x⟩ he ⟨i', x'⟩ he' heq
    obtain ⟨rfl, rfl⟩ := h.parent_unique ⟨hmem.1 he, rfl⟩ ⟨hmem.1 he', Eq.symm heq⟩
    rfl
  · intro j hj
    obtain ⟨hlt, hne⟩ := (Finset.mem_filter_univ _).1 hj
    obtain ⟨i, x, ⟨hk, hc⟩, -⟩ := h.oneParent j hlt hne
    exact ⟨(i, x), hmem.2 hk, hc⟩

/-- A tree's records counted by kind are its root and its children; the sentinel counts nothing. -/
theorem TreeInv.sum_by_kind {s : State} (h : TreeInv s) (f : NodeIdx → Nat)
    (hsentinel : ∀ i, (s.nodeAt i).kind = .sentinel → f i = 0) :
    ∑ i ∈ s.leaves, f i + ∑ i ∈ s.internals, f i =
      f s.root + ∑ i ∈ s.internals, (f (s.nodeAt i).left + f (s.nodeAt i).right) := by
  have hroot : f s.root = ∑ j : NodeIdx, if j = s.root then f j else 0 := by
    rw [Finset.sum_ite_eq', if_pos (Finset.mem_univ _)]
  rw [h.sum_children, hroot]
  rw [State.sum_leaves, State.sum_internals, Finset.sum_filter]
  rw [← Finset.sum_add_distrib, ← Finset.sum_add_distrib]
  refine Finset.sum_congr rfl fun j _ => ?_
  have halloc := h.allocated j
  obtain ⟨-, hint⟩ := h.rootLast
  by_cases hj : j = s.root
  · simp [hj, hint]
  · cases hk : (s.nodeAt j).kind with
    | free | leaf | internal =>
      rw [hk] at halloc
      simp [hj, ← halloc]
    | sentinel => simp [hj, hsentinel j hk]

/-- The root's frequency is the sum of the leaves' (42_tree_builder.md R135). -/
theorem TreeInv.root_freq {s : State} (h : TreeInv s) :
    (s.nodeAt s.root).freq.toNat = ∑ i ∈ s.leaves, (s.nodeAt i).freq.toNat := by
  have hkind := h.sum_by_kind (fun i => (s.nodeAt i).freq.toNat) fun i hk => by
    rw [(h.sentinelFields i hk).2]
    rfl
  have hint : ∑ i ∈ s.internals,
        ((s.nodeAt (s.nodeAt i).left).freq.toNat + (s.nodeAt (s.nodeAt i).right).freq.toNat) =
      ∑ i ∈ s.internals, (s.nodeAt i).freq.toNat :=
    Finset.sum_congr rfl fun i hi => (h.freqSum i (State.mem_internals.1 hi)).symm
  omega

/-- A sum over the leaves of the table's keys is a sum over the keys. -/
theorem State.hasLeavesOf.sum_leaves {s t : State} (h : t.hasLeavesOf s) (htree : TreeInv t) (f : NodeRec → Nat) :
    ∑ i ∈ t.leaves, f (t.nodeAt i) = keySum s fun y => f (s.keyLeaf y) := by
  have hrecords : (t.leafRecords.map f).sum = keySum s fun y => f (s.keyLeaf y) := by
    rw [h, List.map_map, keySum_eq]
    rfl
  obtain ⟨-, hle⟩ := htree.leafRange
  rw [← hrecords, State.leafRecords, List.map_map]
  rw [State.sum_leaves]
  simp only [htree.leafPlace]
  rw [← Finset.sum_filter]
  exact (sum_range_ofNat (Nat.le_trans hle (by decide)) fun i => f (t.nodeAt i)).symm

/-- Settles O25: the root's frequency is the sum over the leaves, which are the keys' with their counts. -/
theorem rootFrequencyIsTheTotal : Obligations.RootFrequencyIsTheTotal := by
  intro s h
  obtain ⟨htree, -, -, -, -⟩ := State.built_tree h
  refine ⟨_, exec_tbBuild_of_key h, htree.root_freq.trans ?_⟩
  rw [s.built_hasLeavesOf.sum_leaves htree fun n => n.freq.toNat]
  simp only [State.keyLeaf_freq]

/-! ### The depth of a record (43_code_table.md R140) -/

theorem followPath_concat_iff {node : List (Nat × NodeRec)} {i j : NodeIdx} {p : List Bool} {x : Bool} :
    followPath node i (p ++ [x]) = some j ↔ ∃ k, followPath node i p = some k ∧ k.toNat < 511 ∧
      (nodeRec node k).kind = .internal ∧ (nodeRec node k).child x = j := by
  rw [followPath_append_eq, Option.bind_eq_some_iff]
  refine exists_congr fun k => and_congr_right fun _ => followPath_cons_iff.trans ?_
  exact and_congr_right fun _ => and_congr_right fun _ => Option.some_inj

/-- A path leads to every record of a tree. -/
theorem TreeInv.exists_path {s : State} (h : TreeInv s) (i : NodeIdx) (hi : i.toNat < s.nnode.toNat) :
    ∃ p, followPath s.node s.root p = some i := by
  by_cases hroot : i = s.root
  · exact ⟨[], congrArg some hroot.symm⟩
  · obtain ⟨k, x, hc, -⟩ := h.oneParent i hi hroot
    have hlt := h.child_lt hc
    have hk := h.lt_of_internal hc.1
    obtain ⟨p, hp⟩ := h.exists_path k hk
    exact ⟨p ++ [x], followPath_concat_iff.2 ⟨k, hp, Nat.lt_of_lt_of_le hk h.nnode_le, hc⟩⟩
termination_by s.nnode.toNat - i.toNat

/-- One path leads to a record. -/
theorem TreeInv.path_unique {s : State} (h : TreeInv s) {p q : List Bool} {i : NodeIdx}
    (hp : followPath s.node s.root p = some i) (hq : followPath s.node s.root q = some i) : p = q := by
  have hnotRoot {k : NodeIdx} {x : Bool} (hc : s.isChild k x s.root) : False := by
    have hlt := h.child_lt hc
    have hk := h.lt_of_internal hc.1
    obtain ⟨hlast, -⟩ := h.rootLast
    omega
  induction p using List.reverseRecOn generalizing q i with
  | nil =>
    cases hp
    rcases q.eq_nil_or_concat with rfl | ⟨q, x, rfl⟩
    · rfl
    · obtain ⟨k, -, -, hc⟩ := followPath_concat_iff.1 (List.concat_eq_append ▸ hq)
      exact (hnotRoot hc).elim
  | append_singleton p x ih =>
    obtain ⟨k, hk, -, hc⟩ := followPath_concat_iff.1 hp
    rcases q.eq_nil_or_concat with rfl | ⟨q, x', rfl⟩
    · cases hq
      exact (hnotRoot hc).elim
    · rw [List.concat_eq_append] at hq ⊢
      obtain ⟨k', hk', -, hc'⟩ := followPath_concat_iff.1 hq
      obtain ⟨rfl, rfl⟩ := h.parent_unique hc hc'
      rw [ih hk hk']

/-- The length of the path to a record. -/
theorem TreeInv.exists_depth {s : State} (h : TreeInv s) :
    ∃ d : NodeIdx → Nat, ∀ p i, followPath s.node s.root p = some i → d i = p.length := by
  have hdepth (i : NodeIdx) : ∃ n, ∀ p, followPath s.node s.root p = some i → n = p.length := by
    by_cases hi : ∃ p, followPath s.node s.root p = some i
    · obtain ⟨p, hp⟩ := hi
      exact ⟨p.length, fun q hq => congrArg List.length (h.path_unique hp hq)⟩
    · exact ⟨0, fun p hp => absurd ⟨p, hp⟩ hi⟩
  choose d hd using hdepth
  exact ⟨d, fun p i => hd i p⟩

/-- Each leaf's frequency is counted once in every internal record above it (42_tree_builder.md R133). -/
theorem TreeInv.sum_depth {s : State} (h : TreeInv s) {d : NodeIdx → Nat}
    (hd : ∀ p i, followPath s.node s.root p = some i → d i = p.length) :
    ∑ i ∈ s.leaves, (s.nodeAt i).freq.toNat * d i = s.internalSum := by
  have hroot : d s.root = 0 := hd [] s.root rfl
  have hchild {i j : NodeIdx} {x : Bool} (hc : s.isChild i x j) : d j = d i + 1 := by
    have hi := h.lt_of_internal hc.1
    obtain ⟨p, hp⟩ := h.exists_path i hi
    rw [hd p i hp, hd (p ++ [x]) j (followPath_concat_iff.2 ⟨i, hp, Nat.lt_of_lt_of_le hi h.nnode_le, hc⟩),
      List.length_append, List.length_singleton]
  have hkind := h.sum_by_kind (fun i => (s.nodeAt i).freq.toNat * d i) fun i hk => by
    rw [(h.sentinelFields i hk).2]
    exact Nat.zero_mul _
  have hint : ∑ i ∈ s.internals,
        ((s.nodeAt (s.nodeAt i).left).freq.toNat * d (s.nodeAt i).left
          + (s.nodeAt (s.nodeAt i).right).freq.toNat * d (s.nodeAt i).right) =
      ∑ i ∈ s.internals, (s.nodeAt i).freq.toNat * d i + s.internalSum := by
    rw [State.internalSum, ← Finset.sum_add_distrib]
    refine Finset.sum_congr rfl fun i hi => ?_
    have hk : (s.nodeAt i).kind = .internal := State.mem_internals.1 hi
    have hleft : d (s.nodeAt i).left = d i + 1 := hchild (x := false) ⟨hk, rfl⟩
    have hright : d (s.nodeAt i).right = d i + 1 := hchild (x := true) ⟨hk, rfl⟩
    rw [hleft, hright, ← Nat.add_mul, ← h.freqSum i hk, Nat.mul_succ]
  rw [hroot, Nat.mul_zero, hint] at hkind
  omega

/-! ### The weighted path length (42_tree_builder.md R133) -/

theorem CtEntry.code_length (e : CtEntry) : e.code.length = e.len.toNat := by
  rw [CtEntry.code, List.length_map, List.length_range]

/-- Leaves hold distinct symbols (10_state.md R50 item 5). -/
theorem TreeInv.leaf_unique {s : State} (h : TreeInv s) {i j : NodeIdx} (hi : (s.nodeAt i).kind = .leaf)
    (hj : (s.nodeAt j).kind = .leaf) (hsym : (s.nodeAt i).sym = (s.nodeAt j).sym) : i = j := by
  rw [h.leafPlace] at hi hj
  refine BitVec.eq_of_toNat_eq (Nat.le_antisymm ?_ ?_) <;> refine Nat.le_of_not_lt fun hlt => ?_
  · exact absurd (hsym ▸ h.leafOrder j i hlt hi) (Nat.lt_irrefl _)
  · exact absurd (hsym ▸ h.leafOrder i j hlt hj) (Nat.lt_irrefl _)

/-- The code of a leaf's symbol is as long as the leaf is deep. -/
theorem CodesInv.len_eq_depth {s : State} (h : CodesInv s) (htree : TreeInv s) {d : NodeIdx → Nat}
    (hd : ∀ p i, followPath s.node s.root p = some i → d i = p.length) {i : NodeIdx} (hi : (s.nodeAt i).kind = .leaf) :
    (s.ctAt (s.nodeAt i).sym).len.toNat = d i := by
  obtain ⟨-, j, hj, hk, hsym⟩ := h.paths _ (h.covers i hi)
  obtain rfl := htree.leaf_unique hk hi hsym
  rw [hd _ _ hj, CtEntry.code_length]

/-- The weighted path length of a tree's codes is the sum of the internal frequencies. -/
theorem CodesInv.weighted_length {s : State} (h : CodesInv s) (htree : TreeInv s) :
    ∑ i ∈ s.leaves, (s.nodeAt i).freq.toNat * (s.ctAt (s.nodeAt i).sym).len.toNat =
      s.internalSum := by
  obtain ⟨d, hd⟩ := htree.exists_depth
  rw [← htree.sum_depth hd]
  exact Finset.sum_congr rfl fun i hi => by rw [h.len_eq_depth htree hd (State.mem_leaves.1 hi)]

/-- Settles O34: a code is as long as its leaf is deep, and a leaf's depth counts the internal records above it. -/
theorem weightedPathLengthIsInternalSum : Obligations.WeightedPathLengthIsInternalSum := by
  intro s hinv hv
  have hcodes := hinv.codes hv
  obtain ⟨htree, -, -⟩ := hinv.tree hcodes.tree
  obtain ⟨-, hle⟩ := htree.leafRange
  rw [sum_range_ofNat (Nat.le_trans hle (by decide)) fun i =>
      (s.nodeAt i).freq.toNat * (s.ctAt (s.nodeAt i).sym).len.toNat,
    sum_range_ofNat (by decide) fun i => if (s.nodeAt i).kind = .internal then (s.nodeAt i).freq.toNat else 0]
  rw [Finset.sum_filter, Finset.sum_filter]
  simp only [← htree.leafPlace]
  rw [← State.sum_leaves, hcodes.weighted_length htree, State.internalSum, State.sum_internals]
  refine Finset.sum_congr rfl fun i _ => ?_
  by_cases hk : (s.nodeAt i).kind = .internal
  · rw [if_pos hk, if_pos (Nat.lt_of_lt_of_le (htree.lt_of_internal hk) htree.nnode_le)]
  · rw [if_neg hk, ite_self]

end Sys2Proof.Machine

namespace Sys2Proof.Machine

open Sys2Proof.Spec Sys2Proof.Huffman

/-! ### What the merges add up to (42_tree_builder.md R133) -/

/-- The frequencies of the queued nodes. -/
def State.queueWeights (s : State) : Multiset Nat := Multiset.map (fun i => (s.nodeAt i).freq.toNat) s.pq

theorem State.internalSum_congr {s t : State} (h : ∀ i : NodeIdx, t.nodeAt i = s.nodeAt i) :
    t.internalSum = s.internalSum := by
  simp only [State.internalSum, State.sum_internals, h]

/-- A new internal record adds its frequency. -/
theorem Records.internalSum_grow {s t : State} {n : NodeRec} (h : Records s) (hg : s.growsBy t n) (hk : n.kind = .internal) :
    t.internalSum = n.freq.toNat + s.internalSum := by
  have hfresh : s.nextIdx ∉ s.internals := by
    rw [State.mem_internals, (h.free_iff s.nextIdx).2 (State.nextIdx_toNat hg.room).ge]
    decide
  have hinsert : t.internals = insert s.nextIdx s.internals := by
    ext i
    rw [Finset.mem_insert, State.mem_internals, State.mem_internals]
    rcases hg.eq_or_nodeAt i with ⟨rfl, -, heq⟩ | ⟨hne, -, heq⟩ <;> simp [*]
  rw [State.internalSum, hinsert, Finset.sum_insert hfresh, hg.nodeAt_new]
  refine congrArg _ (Finset.sum_congr rfl fun i hi => ?_)
  rw [hg.nodeAt_old fun he => hfresh (he ▸ hi)]

/-- The next record's frequency is the sum of its children's, without wrapping (42_tree_builder.md R135). -/
theorem Forest.freq_add {s : State} (h : Forest s) {x y : NodeIdx} {rest : List NodeIdx} (hpq : s.pq = x :: y :: rest)
    (hg : s.growsBy s.mergeStep ⟨.internal, 0, (s.nodeAt x).freq + (s.nodeAt y).freq, x, y⟩) :
    ((s.nodeAt x).freq + (s.nodeAt y).freq).toNat = (s.nodeAt x).freq.toNat + (s.nodeAt y).freq.toNat := by
  obtain ⟨hforest, -⟩ := h.mergeStep (by rw [hpq]; simp)
  have hsum := hforest.records.freqSum s.nextIdx (by rw [hg.nodeAt_new])
  rwa [hg.nodeAt_new, hg.nodeAt_of_lt (h.roots.queued x (by simp [hpq])),
    hg.nodeAt_of_lt (h.roots.queued y (by simp [hpq]))] at hsum

/-- The joined weight takes the place of the two least. -/
theorem Forest.queueWeights_mergeStep {s : State} (h : Forest s) {x y : NodeIdx} {rest : List NodeIdx}
    (hpq : s.pq = x :: y :: rest)
    (hg : s.growsBy s.mergeStep ⟨.internal, 0, (s.nodeAt x).freq + (s.nodeAt y).freq, x, y⟩) :
    s.mergeStep.queueWeights = ((s.nodeAt x).freq.toNat + (s.nodeAt y).freq.toNat) ::ₘ
      Multiset.map (fun i => (s.nodeAt i).freq.toNat) rest := by
  have hqueue : (s.mergeStep.pq : Multiset NodeIdx) = s.nextIdx ::ₘ rest := Multiset.coe_eq_coe.2 (State.mergeStep_pq hpq)
  rw [State.queueWeights, hqueue, Multiset.map_cons, hg.nodeAt_new, h.freq_add hpq hg]
  refine congrArg _ (Multiset.map_congr rfl fun i hi => ?_)
  rw [hg.nodeAt_of_lt (h.roots.queued i (by simp [hpq, Multiset.mem_coe.1 hi]))]

/-- Huffman's theorem along the merges: whatever lengths that satisfy Kraft's inequality the queued weights have, the merges to
come add no more than their cost. -/
theorem Forest.internalSum_mergeLoop_le {s : State} (n : Nat) (h : Forest s) (hg : Greedy s) {P : Multiset (Nat × Nat)}
    (hP : P.map Prod.fst = s.queueWeights) (hkraft : kraft (P.map Prod.snd) ≤ 1) :
    (s.mergeLoop n).internalSum ≤ s.internalSum + cost P := by
  induction n generalizing s P with
  | zero => exact Nat.le_add_right _ _
  | succ n ih =>
    unfold State.mergeLoop
    split
    · next hlen =>
      obtain ⟨x, y, rest, hpq⟩ := exists_two_of_one_lt_length hlen
      have hsize := h.size
      have hleaves := h.leaves_le
      have hroom : s.nnode.toNat ≤ 510 := by omega
      have hgrow := State.mergeStep_growsBy hpq hroom
      obtain ⟨hforest, -⟩ := h.mergeStep hlen
      have hsorted := hg.sorted
      rw [queueSorted, hpq] at hsorted
      obtain ⟨hx, hsorted⟩ := List.pairwise_cons.1 hsorted
      obtain ⟨hy, -⟩ := List.pairwise_cons.1 hsorted
      rw [State.queueWeights, hpq, ← Multiset.cons_coe, ← Multiset.cons_coe, Multiset.map_cons, Multiset.map_cons] at hP
      obtain ⟨a, R, rfl, hR⟩ := exists_cons_of_map_fst hP
      obtain ⟨b, R, rfl, hrest⟩ := exists_cons_of_map_fst hR
      have hleast : ∀ p ∈ R, (s.nodeAt y).freq.toNat ≤ p.1 := by
        intro p hp
        have hmem : p.1 ∈ R.map Prod.fst := Multiset.mem_map_of_mem Prod.fst hp
        rw [hrest, Multiset.mem_map] at hmem
        obtain ⟨i, hi, heq⟩ := hmem
        exact heq ▸ keyBefore_freq_le (hy i (Multiset.mem_coe.1 hi))
      rw [Multiset.map_cons, Multiset.map_cons] at hkraft
      obtain ⟨l, Q, hQ, hkraft, hcost⟩ := exists_joined (keyBefore_freq_le (hx y (by simp))) a b R hleast hkraft
      have hstep := ih hforest (hg.mergeStep h hpq hroom) (P := (_, l) ::ₘ Q)
        (by rw [Multiset.map_cons, hQ, hrest, h.queueWeights_mergeStep hpq hgrow]) (by rwa [Multiset.map_cons])
      have hadd := h.records.internalSum_grow hgrow rfl
      rw [h.freq_add hpq hgrow] at hadd
      omega
    · exact Nat.le_add_right _ _

/-! ### From the table to the codes (42_tree_builder.md R133) -/

/-- After the scan all records are queued. -/
theorem Scanned.mem_pq {s₀ s : State} {k : Nat} (h : Scanned s₀ s k) (i : NodeIdx) :
    i ∈ s.pq ↔ i.toNat < s.nleaf.toNat := by
  rw [← h.onlyLeaves]
  refine ⟨h.forest.roots.queued i, fun hi => ?_⟩
  by_contra hmem
  obtain ⟨p, x, ⟨hk, -⟩, -⟩ := h.forest.roots.oneParent i hi hmem
  have hp := (h.forest.records.internal_iff p).1 hk
  have hsame := h.onlyLeaves
  omega

theorem Scanned.internals_eq_empty {s₀ s : State} {k : Nat} (h : Scanned s₀ s k) : s.internals = ∅ := by
  refine Finset.eq_empty_of_forall_notMem fun i hi => ?_
  have hlt := (h.forest.records.internal_iff i).1 (State.mem_internals.1 hi)
  have hsame := h.onlyLeaves
  omega

/-- The queued weights after the scan are the leaves' frequencies. -/
theorem Scanned.queueWeights_eq {s₀ s : State} {k : Nat} (h : Scanned s₀ s k) :
    s.queueWeights = Multiset.map (fun n => n.freq.toNat) (s.leafRecords : Multiset NodeRec) := by
  have hleaves := h.forest.leaves_le
  have hnodup : ((List.range s.nleaf.toNat).map (BitVec.ofNat 9)).Nodup :=
    nodup_range_ofNat (Nat.le_trans hleaves (by decide))
  have hperm : s.pq.Perm ((List.range s.nleaf.toNat).map (BitVec.ofNat 9)) := by
    refine (List.perm_ext_iff_of_nodup h.forest.roots.nodup hnodup).2 fun i => ?_
    rw [h.mem_pq, List.mem_map]
    constructor
    · exact fun hi => ⟨i.toNat, List.mem_range.2 hi, by simp⟩
    · rintro ⟨j, hj, rfl⟩
      exact toNat_ofNat_lt (List.mem_range.1 hj)
  rw [State.queueWeights, Multiset.coe_eq_coe.2 hperm, Multiset.map_coe, Multiset.map_coe, State.leafRecords, List.map_map,
    List.map_map]
  rfl

/-- The tree's internal frequencies add up to no more than the cost of lengths of a bit or more that satisfy Kraft's
inequality. -/
theorem Scanned.internalSum_buildTree_le {s₀ s : State} {k : Nat} (h : Scanned s₀ s k) (hg : Greedy s)
    {P : Multiset (Nat × Nat)} (hP : P.map Prod.fst = s.queueWeights) (hkraft : kraft (P.map Prod.snd) ≤ 1)
    (hpos : ∀ p ∈ P, 1 ≤ p.2) : s.buildTree.internalSum ≤ cost P := by
  have hzero : s.internalSum = 0 := by rw [State.internalSum, h.internals_eq_empty, Finset.sum_empty]
  by_cases hone : s.nleaf = 1
  · obtain ⟨-, hpq⟩ := h.single hone
    have hnode := h.buildTree_nodeAt hone
    have hinternals : s.buildTree.internals = {2} := by
      ext i
      have hnone : (s.nodeAt i).kind ≠ .internal := fun hk => by
        simpa [h.internals_eq_empty] using State.mem_internals.2 hk
      rw [State.mem_internals, Finset.mem_singleton, hnode]
      split_ifs with h2 h1
      · exact iff_of_true rfl h2.symm
      · exact iff_of_false nofun (Ne.symm h2)
      · exact iff_of_false hnone (Ne.symm h2)
    rw [State.queueWeights, hpq] at hP
    obtain ⟨l, P, rfl, hP⟩ := exists_cons_of_map_fst (W := 0) hP
    have hl : 1 ≤ l := hpos (_, l) (Multiset.mem_cons_self _ _)
    rw [State.internalSum, hinternals, Finset.sum_singleton, hnode, if_pos rfl, cost_cons]
    exact (Nat.le_mul_of_pos_right _ hl).trans (Nat.le_add_right _ _)
  · have hle := h.forest.internalSum_mergeLoop_le 255 hg hP hkraft
    have hfinish : (s.mergeLoop 255).finishTree.internalSum = (s.mergeLoop 255).internalSum :=
      State.internalSum_congr fun _ => rfl
    rw [State.buildTree, if_neg hone, hfinish]
    omega

/-- The codes that `CT_GEN` makes from a tree (43_code_table.md R141). -/
theorem execCtGen_makes_codes {s : State} (hv : s.treeValid = true) (h : TreeInv s) :
    ∃ ct, execCtGen s = .next (answer { s with ct := ct, codesValid := true } 0 s.nleaf.toNat) ∧
      CodesInv { s with ct := ct, codesValid := true } := by
  obtain ⟨ct, hwalk⟩ := walk_completes h 511 [] _ [] (WalkInv.start h) rfl
  obtain ⟨v, hw⟩ := (WalkTable.start s).of_walk_done h hwalk
  refine ⟨ct, ?_, hw.codesInv h hv⟩
  rw [execCtGen, if_pos hv, show Config.nNodeMax = 511 from rfl, hwalk,
    ← BitVec.toNat_setWidth_of_le (w' := 56) (by decide) (b := s.nleaf)]
  exact succeed_eq_answer _ _

/-- The counts of the keys of `s`, each with the length of its codeword. -/
def State.codeLengths (s : State) (c : Symbol → List Bool) : Multiset (Nat × Nat) :=
  Multiset.map (fun y => ((s.ftAt y).cnt.toNat, (c y).length)) (s.keysUpTo 256)

theorem State.cost_codeLengths (s : State) (c : Symbol → List Bool) :
    cost (s.codeLengths c) = keySum s fun y => (s.ftAt y).cnt.toNat * (c y).length := by
  rw [cost, State.codeLengths, Multiset.map_map, Multiset.map_coe, Multiset.sum_coe, keySum_eq]
  rfl

/-- The frequencies of the tree's internal records add up to no more than the weighted path length of any instantaneous code for
the keys with codewords of a bit or more. -/
theorem State.built_internalSum_le (s : State) (c : Symbol → List Bool)
    (hne : ∀ y : Symbol, (s.ftAt y).v = true → c y ≠ [])
    (hprefix : ∀ y z : Symbol, (s.ftAt y).v = true → (s.ftAt z).v = true → y ≠ z → ¬ c y <+: c z) :
    s.built.internalSum ≤ keySum s fun y => (s.ftAt y).cnt.toNat * (c y).length := by
  have hscan := Scanned.clearDerived s
  have hkeys := ScannedKeys.clearDerived s
  have hweights : (s.codeLengths c).map Prod.fst = s.clearDerived.scanTable.queueWeights := by
    rw [State.codeLengths, hscan.queueWeights_eq, s.scanTable_hasLeavesOf, Multiset.map_map, Multiset.map_coe,
      Multiset.map_coe, List.map_map]
    simp only [Function.comp_def, State.keyLeaf_freq]
  have hkraft : kraft ((s.codeLengths c).map Prod.snd) ≤ 1 := by
    rw [State.codeLengths, Multiset.map_map]
    exact kraft_le_one_of_prefixFree _ c s.keysUpTo_nodup (fun y hy => hne y (State.mem_keysUpTo.1 hy))
      fun y hy z hz => hprefix y z (State.mem_keysUpTo.1 hy) (State.mem_keysUpTo.1 hz)
  have hpos : ∀ p ∈ s.codeLengths c, 1 ≤ p.2 := by
    intro p hp
    obtain ⟨y, hy, rfl⟩ := Multiset.mem_map.1 hp
    exact List.length_pos_iff.2 (hne y (State.mem_keysUpTo.1 (Multiset.mem_coe.1 hy)))
  rw [State.built_eq_buildTree, ← State.cost_codeLengths]
  exact hscan.internalSum_buildTree_le hkeys.greedy hweights hkraft hpos

/-- The arena is a function of the table (R134). -/
theorem State.built_node_congr {s s' : State} (h : ∀ y : Symbol, s.ftAt y = s'.ftAt y) : s.built.node = s'.built.node := by
  rw [State.built_eq_buildTree, State.built_eq_buildTree, State.scanTable_eq_withTreeOf h, State.withTreeOf_buildTree,
    State.withTreeOf_node]

/-- A step runs the legal command whose word is the host's next move. -/
theorem step_of_exec {s t : State} {i : Instr} {rest : List HostInput} (hin : s.inputs = .command (encode i) :: rest)
    (hwf : i.wf = true) (hfault : s.fault = false) (hexec : exec i { s with inputs := rest } = .next t) :
    step s = .next t :=
  ((step_command hin).trans (acceptWord_exec (decodeOfEncode i hwf) (.inl hfault))).trans hexec

/-- The run of `TB_BUILD; CT_GEN` ends without a fault, with the codes of the tree that `TB_BUILD` builds. -/
theorem runCommands_tbBuild_ctGen {s : State} (hfault : s.fault = false) (hkey : ∃ y : Symbol, (s.ftAt y).v = true) :
    ∃ t, runCommands [.tbBuild, .ctGen] s = .next t ∧ t.fault = false ∧ TreeInv t ∧ CodesInv t ∧ t.hasLeavesOf s ∧
      t.internalSum = s.built.internalSum := by
  let s₁ : State := { s with inputs := [.command (encode .ctGen)] }
  have hbuild : exec .tbBuild s₁ = _ := exec_tbBuild_of_key hkey
  have hframe : s₁.built = _ := State.built_eq hkey
  have hnode : s₁.built.node = s.built.node := State.built_node_congr fun _ => rfl
  have hleaves : s₁.built.hasLeavesOf s := s₁.built_hasLeavesOf
  obtain ⟨htree, -, hvalid, -, -⟩ := State.built_tree (s := s₁) hkey
  have hf : s₁.built.fault = false := by rw [hframe]; exact hfault
  have hin : s₁.built.inputs = [.command (encode .ctGen)] := by rw [hframe]
  generalize s₁.built = b at hbuild hnode hleaves htree hvalid hf hin
  obtain ⟨ct, hgen, hcodes⟩ := execCtGen_makes_codes
    (s := { answer b 0 (b.nnode.toNat * 2 ^ 9 + b.root.toNat) with inputs := [] }) hvalid (htree.of_same_tree rfl rfl rfl rfl)
  have hfirst : core.step (s.feed [.tbBuild, .ctGen]) = .next _ :=
    step_of_exec (s := s.feed [.tbBuild, .ctGen]) rfl rfl hfault hbuild
  have hsecond : core.step (answer b 0 (b.nnode.toNat * 2 ^ 9 + b.root.toNat)) = .next _ :=
    step_of_exec hin rfl hf hgen
  refine ⟨_, ((run_succ_of_step hfirst).trans (run_succ_of_step hsecond)).trans rfl, hf,
    htree.of_same_tree rfl rfl rfl rfl, { hcodes with }, hleaves, State.internalSum_congr fun i => ?_⟩
  exact congrArg (fun node => nodeRec node i) hnode

/-- Settles O35: the codes' weighted path length is the sum of the internal frequencies, and by Huffman's theorem along the
merges no instantaneous code has less. -/
theorem codesAreOptimal : Obligations.CodesAreOptimal := by
  intro s c hfault hkey hne hprefix
  obtain ⟨t, hrun, ht, htree, hcodes, hleaves, hsum⟩ := runCommands_tbBuild_ctGen hfault hkey
  refine ⟨t, hrun, ht, ?_⟩
  calc keySum s (fun y => (s.ftAt y).cnt.toNat * (t.ctAt y).len.toNat)
      = keySum s fun y => (s.keyLeaf y).freq.toNat * (t.ctAt (s.keyLeaf y).sym).len.toNat := by
        simp only [State.keyLeaf_freq]
        rfl
    _ = t.internalSum := by
        rw [← hleaves.sum_leaves htree fun n => n.freq.toNat * (t.ctAt n.sym).len.toNat, hcodes.weighted_length htree]
    _ = s.built.internalSum := hsum
    _ ≤ keySum s fun y => (s.ftAt y).cnt.toNat * (c y).length := s.built_internalSum_le c hne hprefix

end Sys2Proof.Machine

namespace Sys2Proof.Machine

open Sys2Proof.Spec

/-! ### The codes of a tree (43_code_table.md R140, R143) -/

/-- A leaf's symbol has the leaf's path for its code: one record holds the symbol, and one path leads to the record. -/
theorem CodesInv.code_of_leadsTo {s : State} (h : CodesInv s) (htree : TreeInv s) {p : List Bool} {y : Symbol}
    (hp : s.leadsTo p y) : (s.ctAt y).v = true ∧ (s.ctAt y).code = p := by
  obtain ⟨i, hi, hk, rfl⟩ := hp
  have hv := h.covers i hk
  obtain ⟨-, j, hj, hkj, hsym⟩ := h.paths _ hv
  obtain rfl := htree.leaf_unique hkj hk hsym
  exact ⟨hv, htree.path_unique hj hi⟩

/-- The stored bits are the code's, with zeros above its length (10_state.md R29). -/
theorem CodesInv.getLsbD_bits {s : State} (h : CodesInv s) (y : Symbol) (k : Nat) :
    (s.ctAt y).bits.getLsbD k = (s.ctAt y).code.getD k false := by
  by_cases hk : k < (s.ctAt y).len.toNat
  · simp [CtEntry.code, List.getD_eq_getElem?_getD, hk]
  · have hlen : (s.ctAt y).len.toNat ≤ k := Nat.le_of_not_lt hk
    rw [h.highBits y k hlen, List.getD_eq_default _ _ (by rwa [CtEntry.code_length])]

/-- A symbol that no leaf holds has no code (10_state.md R29, R30). -/
theorem CodesInv.ctAt_of_no_leaf {s : State} (h : CodesInv s) {y : Symbol}
    (hy : ∀ i, (s.nodeAt i).kind = .leaf → (s.nodeAt i).sym ≠ y) : s.ctAt y = ⟨false, 0, 0⟩ := by
  refine h.invalid y (Bool.eq_false_iff.2 fun hv => ?_)
  obtain ⟨-, i, -, hk, hsym⟩ := h.paths y hv
  exact hy i hk hsym

/-- `CT_GEN` starts from the empty table, so what it leaves is canonical whatever stood there before (R141; log 7). -/
theorem execCtGen_ct_wf {s t : State} (hv : s.treeValid = true) (ht : execCtGen s = .next t) :
    Memory.wf 256 CtEntry.empty t.ct := by
  obtain ⟨-, -, hempty⟩ := reset_memories_wf
  rw [execCtGen, if_pos hv] at ht
  split at ht
  · next hwalk =>
    cases ht
    exact walk_wf hempty (.inl hwalk)
  · next hwalk =>
    cases ht
    exact walk_wf hempty (.inr hwalk)
  · cases ht

/-- Settles O30: the walk completes with the codes of the tree, and a tree's codes are its leaves' paths. -/
theorem ctGenAssignsRootPaths : Obligations.CtGenAssignsRootPaths := by
  intro s hv htree
  obtain ⟨ct, hgen, hcodes⟩ := execCtGen_makes_codes hv htree
  have htree' : TreeInv { s with ct := ct, codesValid := true } := htree.of_same_tree rfl rfl rfl rfl
  refine ⟨ct, hgen, execCtGen_ct_wf hv hgen, fun y => ⟨fun p hp => ?_, ?_, hcodes.ctAt_of_no_leaf⟩⟩
  · obtain ⟨hvalid, rfl⟩ := hcodes.code_of_leadsTo htree' hp
    exact ⟨hvalid, (CtEntry.code_length _).symm, hcodes.getLsbD_bits y⟩
  · rintro ⟨i, hk, rfl⟩
    obtain ⟨p, hp⟩ := htree.exists_path i ((htree.allocated i).1 (by simp [hk]))
    exact ⟨p, i, hp, hk, rfl⟩

/-! ### No code begins another (R146) -/

/-- No path goes on from a record that is not internal. -/
theorem State.followPath_eq_of_prefix {s : State} {r i j : NodeIdx} {p q : List Bool}
    (hp : followPath s.node r p = some i) (hq : followPath s.node r q = some j) (hi : (s.nodeAt i).kind ≠ .internal)
    (hpq : p <+: q) : i = j := by
  obtain ⟨l, rfl⟩ := hpq
  rw [followPath_append_eq, hp] at hq
  cases l with
  | nil => exact Option.some.inj hq
  | cons x l =>
    obtain ⟨-, hk, -⟩ := followPath_cons_iff.1 hq
    exact absurd hk hi

/-- Settles O33: codes and the sentinel's path lead to records that are not internal, where no path goes on. -/
theorem codesArePrefixFree : Obligations.CodesArePrefixFree := by
  intro s hinv hvalid
  have hcodes := hinv.codes hvalid
  refine ⟨fun y z hy hz hne hpre => ?_, fun y p t hy ht hsent => ?_⟩
  · obtain ⟨-, i, hi, hki, rfl⟩ := hcodes.paths y hy
    obtain ⟨-, j, hj, -, rfl⟩ := hcodes.paths z hz
    exact hne (congrArg (fun i => (s.nodeAt i).sym) (State.followPath_eq_of_prefix hi hj (by simp [hki]) hpre))
  · obtain ⟨-, i, hi, hki, -⟩ := hcodes.paths y hy
    have hne : t ≠ i := by
      rintro rfl
      cases hsent.symm.trans hki
    exact ⟨fun hpre => hne (State.followPath_eq_of_prefix ht hi (by simp [hsent]) hpre),
      fun hpre => hne (State.followPath_eq_of_prefix hi ht (by simp [hki]) hpre).symm⟩

/-! ### The decoder walks the tree, not the table (R147; 45_decoder.md R163) -/

/-- The state with this code table. -/
def State.withCodes (ct : List (Nat × CtEntry)) (v : Bool) (s : State) : State := { s with ct := ct, codesValid := v }

/-- The same result of a bit where the code table was this one. -/
def DecResult.withCodes (ct : List (Nat × CtEntry)) (v : Bool) : DecResult → DecResult
  | .moved u e => .moved (u.withCodes ct v) e
  | .raises f => .raises f
  | .absent => .absent

/-- The same outcome of a command where the code table was this one. -/
def outcomeWithCodes (ct : List (Nat × CtEntry)) (v : Bool) :
    Host.Outcome State Fault Refusal → Host.Outcome State Fault Refusal
  | .next t => .next (t.withCodes ct v)
  | .fault f => .fault f
  | .refused r => .refused r

section
variable (ct : List (Nat × CtEntry)) (v : Bool)

/-- Each test of the transition is of the tree, the pointer or a record (45_decoder.md R162), so both sides take the same
branch. -/
theorem decBit_withCodes (x : Bool) (s : State) : decBit x (s.withCodes ct v) = (decBit x s).withCodes ct v := by
  change decBit x { s with ct := ct, codesValid := v } = _
  unfold decBit
  dsimp only
  split
  · split
    · rfl
    · split
      · split
        · rfl
        · split <;> rfl
      · rfl
  · rfl

theorem execDecBit_withCodes (x : Bool) (s : State) :
    execDecBit x (s.withCodes ct v) = outcomeWithCodes ct v (execDecBit x s) := by
  rw [execDecBit, execDecBit, decBit_withCodes]
  rcases decBit x s with ⟨u, _ | y⟩ | f | _ <;> rfl

theorem decBits_withCodes (w : Word) (l : List Bool) (i k : Nat) (s : State) :
    decBits w l i k (s.withCodes ct v) = outcomeWithCodes ct v (decBits w l i k s) := by
  induction l generalizing i k s with
  | nil => rfl
  | cons x l ih =>
    rw [decBits, decBits, decBit_withCodes]
    rcases decBit x s with ⟨u, _ | y⟩ | f | _
    · exact ih (i + 1) k u
    · exact ih (i + 1) (k + 1) u
    · rfl
    · rfl

/-- Each check of `DEC_END` is of the tree, the pointer or the counts (45_decoder.md R165). -/
theorem execDecEnd_withCodes (f : Bool) (s : State) :
    execDecEnd f (s.withCodes ct v) = outcomeWithCodes ct v (execDecEnd f s) := by
  change execDecEnd f { s with ct := ct, codesValid := v } = _
  unfold execDecEnd
  dsimp only
  split
  · split
    · split
      · split
        · rfl
        · split <;> rfl
      · rfl
    · rfl
  · rfl

end

/-- Settles O46: each decoder command commutes with replacing the code table. -/
theorem decoderIgnoresTheCodeTable : Obligations.DecoderIgnoresTheCodeTable := by
  intro i s t ct v hi ht
  have hcommutes : exec i (s.withCodes ct v) = outcomeWithCodes ct v (exec i s) := by
    cases i with
    | decBit x => exact execDecBit_withCodes ct v x s
    | decByte y n => exact decBits_withCodes ct v _ _ _ _ s
    | decEnd f => exact execDecEnd_withCodes ct v f s
    | _ => simp [Instr.mnemonic] at hi
  rw [ht] at hcommutes
  exact hcommutes

/-! ### Without a tree, and the read-out of the table (R141, R144, R145) -/

/-- Settles O29: without a tree `CT_GEN` raises before it walks. -/
theorem ctGenNeedsATree : Obligations.CtGenNeedsATree := by
  intro s hv
  rw [exec, execCtGen, if_neg (by simp [hv]), raised, raiseFault_eq_latched]
  rfl

/-- Settles O31: `CT_LEN` succeeds in the state it finds, and its data is positional: the valid bit above the 8-bit length. -/
theorem ctLenReadsTheLength : Obligations.CtLenReadsTheLength := by
  intro y s
  rw [exec, execCtLen, succeed_eq_answer, BitVec.toNat_setWidth_of_le (by decide), toNat_append_eq_add,
    toNat_ofBool_eq_num]

/-- A chunk's bits are the code's from position 32k on; there is no position 255 (R145). -/
theorem CtEntry.chunk_getLsbD (e : CtEntry) (k : BitVec 3) (j : Nat) : (e.chunk k).getLsbD j =
    (decide (j < 32) && decide (32 * k.toNat + j ≤ 254) && e.bits.getLsbD (32 * k.toNat + j)) := by
  rw [CtEntry.chunk, BitVec.getLsbD_extractLsb']
  by_cases hk : 32 * k.toNat + j ≤ 254
  · simp [hk]
  · simp [BitVec.getLsbD_of_ge e.bits (32 * k.toNat + j) (by omega)]

/-- Settles O32: `CT_BITS` succeeds in the state it finds, with the chunk below zeros. -/
theorem ctBitsReadsAChunk : Obligations.CtBitsReadsAChunk := by
  refine fun y k s => ⟨((s.ctAt y).chunk k).setWidth 56, succeed_eq_answer s _, fun j => ?_⟩
  rw [BitVec.getLsbD_setWidth, CtEntry.chunk_getLsbD]
  by_cases hj : j < 32
  · simp [show j < 56 by omega]
  · simp [hj]

end Sys2Proof.Machine

namespace Sys2Proof.Machine

open Sys2Proof.Spec

/-! ### Bit strings byte by byte (44_encoder.md R152, R153) -/

/-- Induction over a bit string byte by byte, as `fullBytes` and `leftOver` take it. -/
theorem bytewise_induction {motive : List Bool → Prop} (short : ∀ l, l.length < 8 → motive l)
    (byte : ∀ p l, p.length = 8 → motive l → motive (p ++ l)) (l : List Bool) : motive l := by
  by_cases h : l.length < 8
  · exact short l h
  · rw [← List.take_append_drop 8 l]
    exact byte _ _ (List.length_take_of_le (Nat.le_of_not_lt h)) (bytewise_induction short byte _)
termination_by l.length
decreasing_by
  rw [List.length_drop]
  omega

theorem fullBytes_of_lt {l : List Bool} (h : l.length < 8) : fullBytes l = [] := by
  rw [fullBytes]
  rintro a b c d e f g i l rfl
  simp only [List.length_cons] at h
  omega

theorem leftOver_of_lt {l : List Bool} (h : l.length < 8) : leftOver l = l := by
  rw [leftOver]
  rintro a b c d e f g i l rfl
  simp only [List.length_cons] at h
  omega

/-- Eight bits are these eight bits. -/
theorem exists_bits_of_length_eq_eight {p : List Bool} (h : p.length = 8) :
    ∃ a b c d e f g i, p = [a, b, c, d, e, f, g, i] := by
  match p, h with
  | [a, b, c, d, e, f, g, i], _ => exact ⟨a, b, c, d, e, f, g, i, rfl⟩

theorem fullBytes_byte_append {p : List Bool} (h : p.length = 8) (l : List Bool) :
    fullBytes (p ++ l) = byteOf p :: fullBytes l := by
  obtain ⟨a, b, c, d, e, f, g, i, rfl⟩ := exists_bits_of_length_eq_eight h
  rfl

theorem leftOver_byte_append {p : List Bool} (h : p.length = 8) (l : List Bool) : leftOver (p ++ l) = leftOver l := by
  obtain ⟨a, b, c, d, e, f, g, i, rfl⟩ := exists_bits_of_length_eq_eight h
  rfl

/-- Bits that follow complete the bytes that the bits left over before them begin. -/
theorem fullBytes_append (l l' : List Bool) : fullBytes (l ++ l') = fullBytes l ++ fullBytes (leftOver l ++ l') := by
  induction l using bytewise_induction with
  | short l h => rw [fullBytes_of_lt h, leftOver_of_lt h, List.nil_append]
  | byte p l h ih =>
    rw [List.append_assoc, fullBytes_byte_append h, fullBytes_byte_append h, leftOver_byte_append h, ih, List.cons_append]

theorem leftOver_append (l l' : List Bool) : leftOver (l ++ l') = leftOver (leftOver l ++ l') := by
  induction l using bytewise_induction with
  | short l h => rw [leftOver_of_lt h]
  | byte p l h ih => rw [List.append_assoc, leftOver_byte_append h, leftOver_byte_append h, ih]

theorem fullBytes_length (l : List Bool) : (fullBytes l).length = l.length / 8 := by
  induction l using bytewise_induction with
  | short l h => rw [fullBytes_of_lt h, List.length_nil, Nat.div_eq_of_lt h]
  | byte p l h ih =>
    rw [fullBytes_byte_append h, List.length_cons, ih, List.length_append]
    omega

theorem leftOver_eq_drop (l : List Bool) : leftOver l = l.drop (8 * (l.length / 8)) := by
  induction l using bytewise_induction with
  | short l h => rw [leftOver_of_lt h, Nat.div_eq_of_lt h, Nat.mul_zero, List.drop_zero]
  | byte p l h ih =>
    have hlen : 8 * ((p ++ l).length / 8) = p.length + 8 * (l.length / 8) := by
      rw [List.length_append]
      omega
    rw [leftOver_byte_append h, ih, hlen, List.drop_length_add_append]

theorem leftOver_length (l : List Bool) : (leftOver l).length = l.length % 8 := by
  rw [leftOver_eq_drop, List.length_drop]
  omega

/-- The number a bit string spells in binary has its bits, the last one lowest. -/
theorem testBit_foldl_num (l : List Bool) (i : Nat) :
    (l.foldl (fun acc x => 2 * acc + num x) 0).testBit i = l.reverse.getD i false := by
  induction l using List.reverseRecOn generalizing i with
  | nil => exact Nat.zero_testBit i
  | append_singleton l x ih =>
    have hbit : ∀ n, 2 * n + num x = Nat.bit x n := fun n => by cases x <;> rfl
    rw [List.foldl_append, List.foldl_cons, List.foldl_nil, hbit, List.reverse_append]
    cases i with
    | zero => exact Nat.testBit_bit_zero x _
    | succ i => exact (Nat.testBit_bit_succ i x _).trans (ih i)

theorem byteOf_getLsbD (l : List Bool) {i : Nat} (hi : i < 8) : (byteOf l).getLsbD i = l.reverse.getD i false := by
  rw [byteOf, BitVec.getLsbD_ofNat, testBit_foldl_num, decide_eq_true hi, Bool.true_and]

/-- Byte m of a bit string holds its bits 8m to 8m + 7, the earliest highest (20_memory.md R63). -/
theorem fullBytes_getLsbD (l : List Bool) {m j : Nat} (hm : m < l.length / 8) (hj : j < 8) :
    ((fullBytes l).getD m 0).getLsbD (7 - j) = l.getD (8 * m + j) false := by
  induction l using bytewise_induction generalizing m with
  | short l h => omega
  | byte p l h ih =>
    rw [fullBytes_byte_append h]
    cases m with
    | zero =>
      have hpos : p.length - 1 - (7 - j) = j := by omega
      rw [List.getD_cons_zero, byteOf_getLsbD p (by omega), List.getD_append _ _ _ _ (by omega),
        List.getD_eq_getElem?_getD, List.getElem?_reverse (by omega), hpos, Nat.mul_zero, Nat.zero_add,
        List.getD_eq_getElem?_getD]
    | succ m =>
      have hm' : m < l.length / 8 := by
        rw [List.length_append] at hm
        omega
      have hpos : 8 * (m + 1) + j - p.length = 8 * m + j := by omega
      rw [List.getD_cons_succ, ih hm', List.getD_append_right _ _ _ _ (by omega), hpos]

/-! ### The bits waiting in the packer (10_state.md R32) -/

theorem pending_length (s : State) : (pending s).length = s.pkCnt.toNat := by
  rw [pending, List.length_map, List.length_range]

theorem pending_length_lt (s : State) : (pending s).length < 8 := by
  rw [pending_length]
  exact s.pkCnt.isLt

theorem pending_getD (s : State) {j : Nat} (hj : j < s.pkCnt.toNat) :
    (pending s).getD j false = s.pkBuf.getLsbD (s.pkCnt.toNat - 1 - j) := by
  simp [pending, List.getD_eq_getElem?_getD, hj]

/-- From the last one on the waiting bits stand in the buffer from bit 0 up. -/
theorem pending_reverse_getD (s : State) {i : Nat} (hi : i < s.pkCnt.toNat) :
    (pending s).reverse.getD i false = s.pkBuf.getLsbD i := by
  have hpos : s.pkCnt.toNat - 1 - (s.pkCnt.toNat - 1 - i) = i := by omega
  rw [List.getD_eq_getElem?_getD, List.getElem?_reverse (by rwa [pending_length]), pending_length,
    ← List.getD_eq_getElem?_getD, pending_getD s (by omega), hpos]

theorem pending_of_empty {s : State} (h : s.pkCnt = 0) : pending s = [] := by
  rw [pending, h]
  rfl

/-- A bit shifted into a buffer with room waits behind the bits before it. -/
theorem pending_push {s t : State} {x : Bool} (hcnt : s.pkCnt ≠ 7) (hbuf' : t.pkBuf = s.pkBuf.setWidth 7 ++ BitVec.ofBool x)
    (hcnt' : t.pkCnt = s.pkCnt + 1) : pending t = pending s ++ [x] := by
  have hnext : t.pkCnt.toNat = s.pkCnt.toNat + 1 := by bv_omega
  have hbuf : t.pkBuf = (s.pkBuf.setWidth 7).concat x := hbuf'
  rw [pending, hnext, List.range_succ, List.map_append, List.map_singleton, pending]
  congr 1
  · refine List.map_congr_left fun j hj => ?_
    rw [List.mem_range] at hj
    have hpos : s.pkCnt.toNat + 1 - 1 - j = s.pkCnt.toNat - 1 - j + 1 := by omega
    have hlow : s.pkCnt.toNat - 1 - j < 7 := by omega
    rw [hpos, hbuf, BitVec.getLsbD_concat_succ, BitVec.getLsbD_setWidth, decide_eq_true hlow, Bool.true_and]
  · rw [Nat.add_sub_cancel, Nat.sub_self, hbuf, BitVec.getLsbD_concat_zero]

/-- Seven waiting bits and the eighth make the byte that the packer emits (R152). -/
theorem byteOf_pending_push {s : State} (hcnt : s.pkCnt = 7) (x : Bool) :
    byteOf (pending s ++ [x]) = s.pkBuf.setWidth 7 ++ BitVec.ofBool x := by
  refine BitVec.eq_of_getLsbD_eq fun i hi => ?_
  rw [byteOf_getLsbD _ hi, List.reverse_append]
  cases i with
  | zero => exact (BitVec.getLsbD_concat_zero (x := s.pkBuf.setWidth 7)).symm
  | succ i =>
    have hi' : i < 7 := Nat.lt_of_succ_lt_succ hi
    have hbit : ((s.pkBuf.setWidth 7).concat x).getLsbD (i + 1) = s.pkBuf.getLsbD i := by
      rw [BitVec.getLsbD_concat_succ, BitVec.getLsbD_setWidth, decide_eq_true hi', Bool.true_and]
    exact (pending_reverse_getD s (by rwa [hcnt])).trans hbit.symm

/-- The final byte: the waiting bits high, the pad zeros low (R154). -/
theorem byteOf_pending_pad {s : State} (hcnt : s.pkCnt ≠ 0) :
    byteOf (pending s ++ List.replicate (8 - s.pkCnt.toNat) false) = s.pkBuf <<< s.padCount := by
  have hpad : s.padCount = 8 - s.pkCnt.toNat := by
    rw [State.padCount]
    bv_omega
  refine BitVec.eq_of_getLsbD_eq fun i hi => ?_
  rw [byteOf_getLsbD _ hi, List.reverse_append, List.reverse_replicate, BitVec.getLsbD_shiftLeft, hpad, decide_eq_true hi,
    Bool.true_and]
  by_cases hlow : i < 8 - s.pkCnt.toNat
  · rw [List.getD_append _ _ _ _ (by rwa [List.length_replicate]), List.getD_replicate _ hlow, decide_eq_true hlow]
    rfl
  · rw [List.getD_append_right _ _ _ _ (by rw [List.length_replicate]; omega), List.length_replicate,
      pending_reverse_getD s (by omega), decide_eq_false hlow]
    rfl

/-! ### Emitting bits (R151, R152) -/

/-- From `s` to `t` the encoder emitted these bits: they stand on `BITOUT`, behind the waiting bits they completed their bytes on
`BYTEOUT` and left the rest waiting, they are counted, and nothing but the encoder, the traces and the host's moves changed. -/
structure State.emits (s t : State) (l : List Bool) : Prop where
  bits : t.bitTrace = s.bitTrace ++ l
  bytes : t.byteTrace = s.byteTrace ++ fullBytes (pending s ++ l)
  waiting : pending t = leftOver (pending s ++ l)
  count : t.encBitCnt.toNat = min (s.encBitCnt.toNat + l.length) (2 ^ 48 - 1)
  frame : t = { s with
    inputs := t.inputs, beats := t.beats, encSymCnt := t.encSymCnt, encBitCnt := t.encBitCnt, pkBuf := t.pkBuf,
    pkCnt := t.pkCnt }

theorem State.emits_nil (s : State) (moves : List HostInput) : s.emits { s with inputs := moves } [] where
  bits := (List.append_nil _).symm
  bytes := by
    rw [List.append_nil, fullBytes_of_lt (pending_length_lt s), List.append_nil]
    rfl
  waiting := by
    rw [List.append_nil, leftOver_of_lt (pending_length_lt s)]
    rfl
  count := (Nat.min_eq_left (Nat.le_sub_one_of_lt s.encBitCnt.isLt)).symm
  frame := rfl

theorem State.emits.trans {s t u : State} {l l' : List Bool} (h : s.emits t l) (h' : t.emits u l') :
    s.emits u (l ++ l') where
  bits := by rw [h'.bits, h.bits, List.append_assoc]
  bytes := by rw [h'.bytes, h.bytes, h.waiting, List.append_assoc, ← fullBytes_append, List.append_assoc]
  waiting := by rw [h'.waiting, h.waiting, ← leftOver_append, List.append_assoc]
  count := by
    rw [h'.count, h.count, List.length_append]
    omega
  frame := by rw [h'.frame, h.frame]

theorem State.emits_emitBit (s : State) (x : Bool) : s.emits (s.emitBit x) [x] := by
  have hlen : (pending s ++ [x]).length = s.pkCnt.toNat + 1 := by
    rw [List.length_append, pending_length, List.length_singleton]
  rcases s.emitBit_cases x with ⟨hcnt, heq⟩ | ⟨hcnt, heq⟩ <;> rw [heq]
  · have hbyte : (pending s ++ [x]).length = 8 := by rw [hlen, hcnt]; rfl
    exact {
      bits := by simp [State.bitTrace]
      bytes := by
        rw [← List.append_nil (pending s ++ [x]), fullBytes_byte_append hbyte, byteOf_pending_push hcnt]
        simp [State.byteTrace, fullBytes]
      waiting := by
        rw [← List.append_nil (pending s ++ [x]), leftOver_byte_append hbyte]
        exact pending_of_empty rfl
      count := satInc_toNat s.encBitCnt
      frame := rfl }
  · have hshort : (pending s ++ [x]).length < 8 := by rw [hlen]; bv_omega
    exact {
      bits := by simp [State.bitTrace]
      bytes := by simp [State.byteTrace, fullBytes_of_lt hshort]
      waiting := by rw [leftOver_of_lt hshort, pending_push hcnt rfl rfl]
      count := satInc_toNat s.encBitCnt
      frame := rfl }

theorem State.emits_emitBits (l : List Bool) (s : State) : s.emits (s.emitBits l) l := by
  induction l generalizing s with
  | nil => exact s.emits_nil s.inputs
  | cons x l ih => exact (s.emits_emitBit x).trans (ih (s.emitBit x))

/-- Settles O37: from an empty packer the bytes emitted are the full bytes of the bit string, and its rest is what waits. -/
theorem packedBytesHoldTheStream : Obligations.PackedBytesHoldTheStream := by
  intro l s hcnt _
  obtain ⟨hbits, hbytes, hwaiting, -, -⟩ := s.emits_emitBits l
  rw [pending_of_empty hcnt, List.nil_append] at hbytes hwaiting
  have hlen : (s.emitBits l).pkCnt.toNat = l.length % 8 := by rw [← pending_length, hwaiting, leftOver_length]
  refine ⟨fullBytes l, hbytes, fullBytes_length l, hlen, hbits, fun m j hm hj => fullBytes_getLsbD l hm hj,
    fun j hj => ?_⟩
  rw [← hlen, ← pending_getD _ (by rwa [hlen]), hwaiting, leftOver_eq_drop, List.getD_eq_getElem?_getD,
    List.getElem?_drop, List.getD_eq_getElem?_getD]

/-! ### The traces behind data beats and behind an answer (20_memory.md R74) -/

theorem State.rspTrace_of_emitsData {s t : State} (h : s.emitsData t) : t.rspTrace = s.rspTrace := by
  obtain ⟨bs, hbs, hdata⟩ := h
  rw [State.rspTrace, hbs, List.filterMap_append]
  refine List.append_right_eq_self.2 (List.filterMap_eq_nil_iff.2 ?_)
  rintro (w | x | y | y) hmem
  · exact absurd hmem (hdata w)
  all_goals rfl

section
variable (s : State) (st d : Nat)

@[simp] theorem rspTrace_answer : (answer s st d).rspTrace = s.rspTrace ++ [word st d] := by
  simp [State.rspTrace, answer]

@[simp] theorem bitTrace_answer : (answer s st d).bitTrace = s.bitTrace := by simp [State.bitTrace, answer]

@[simp] theorem byteTrace_answer : (answer s st d).byteTrace = s.byteTrace := by simp [State.byteTrace, answer]

@[simp] theorem symTrace_answer : (answer s st d).symTrace = s.symTrace := by simp [State.symTrace, answer]

end

/-! ### `ENC_SYM` (R151) -/

/-- The state after `ENC_SYM y` with a code, before its answer. -/
def State.encoded (s : State) (y : Symbol) : State :=
  { s.emitBits (s.ctAt y).code with encSymCnt := satInc s.encSymCnt }

theorem exec_encSym_of_code {y : Symbol} {s : State} (h : (s.ctAt y).v = true) :
    exec (.encSym y) s = .next (answer (s.encoded y) 0 (s.ctAt y).len.toNat) := by
  obtain ⟨-, -, hframe⟩ := s.emitBits_frame (s.ctAt y).code
  have hsyms : (s.emitBits (s.ctAt y).code).encSymCnt = s.encSymCnt := by rw [hframe]
  rw [exec, execEncSym, if_pos h, succeed_eq_answer, BitVec.toNat_setWidth_of_le (by decide), hsyms]
  rfl

theorem exec_encSym_of_no_code {y : Symbol} {s : State} (h : (s.ctAt y).v = false) :
    exec (.encSym y) s = .next (latched s 2 (info 0 0 y.toNat 0x40)) := by
  rw [exec, execEncSym, if_neg (by simp [h]), raised, raiseFault_eq_latched, ← fieldB_toNat, ← fieldA_toNat, ← fieldOp_toNat,
    fieldB_encode, fieldA_encode, fieldOp_encode]
  rfl

theorem State.emits_encoded (s : State) (y : Symbol) (d : Nat) :
    s.emits (answer (s.encoded y) 0 d) (s.ctAt y).code := by
  obtain ⟨hbits, hbytes, hwaiting, hcount, hframe⟩ := s.emits_emitBits (s.ctAt y).code
  exact {
    bits := (bitTrace_answer _ _ _).trans hbits
    bytes := (byteTrace_answer _ _ _).trans hbytes
    waiting := hwaiting
    count := hcount
    frame := by rw [answer, State.encoded, hframe] }

theorem State.emitsData_encoded (s : State) (y : Symbol) : s.emitsData (s.encoded y) :=
  s.emitsData_emitBits (s.ctAt y).code

theorem State.inputs_encoded (s : State) (y : Symbol) : (s.encoded y).inputs = s.inputs := by
  obtain ⟨-, -, hframe⟩ := s.emitBits_frame (s.ctAt y).code
  rw [State.encoded, hframe]

theorem exec_encSym_emits {y : Symbol} {s : State} (h : (s.ctAt y).v = true) :
    ∃ t, exec (.encSym y) s = .next t ∧ s.emits t (s.ctAt y).code ∧ t.inputs = s.inputs :=
  ⟨_, exec_encSym_of_code h, s.emits_encoded y _, s.inputs_encoded y⟩

/-- Settles O36: the check comes before any bit; with a code its bits go through the packer one by one. -/
theorem encSymEmitsTheCode : Obligations.EncSymEmitsTheCode := by
  refine fun y s => ⟨fun hv => ⟨_, exec_encSym_of_code hv, ?_⟩, exec_encSym_of_no_code⟩
  obtain ⟨hbits, hbytes, hwaiting, hcount, -⟩ := s.emits_encoded y (s.ctAt y).len.toNat
  obtain ⟨-, hsym, hframe⟩ := s.emitBits_frame (s.ctAt y).code
  rw [CtEntry.code_length] at hcount
  refine ⟨hbits, hbytes, hwaiting, hcount, satInc_toNat s.encSymCnt, ?_, ?_, ?_⟩
  · rw [rspTrace_answer, State.rspTrace_of_emitsData (s.emitsData_encoded y)]
  · rw [symTrace_answer]
    exact hsym
  · rw [answer, State.encoded, hframe]

/-- Settles O40: without codes the table is empty, so no symbol has a code (10_state.md R30). -/
theorem encSymNeedsGeneratedCodes : Obligations.EncSymNeedsGeneratedCodes := by
  intro s y hinv hcodes
  refine exec_encSym_of_no_code ?_
  rw [State.ctAt, hinv.noCodes hcodes, Memory.read_nil, CtEntry.empty]

/-! ### `ENC_FLUSH` (R154) -/

/-- Settles O38: the final byte is the waiting bits and the pad zeros, and the data is positional: the pad above the 48-bit
count. -/
theorem encFlushEndsTheStream : Obligations.EncFlushEndsTheStream := by
  intro s
  have hdata : ((BitVec.ofNat 3 s.padCount ++ s.encBitCnt).setWidth 56).toNat =
      (8 - s.pkCnt.toNat) % 8 * 2 ^ 48 + s.encBitCnt.toNat := by
    rw [BitVec.toNat_setWidth_of_le (by decide), toNat_append_eq_add, BitVec.toNat_ofNat, State.padCount, Nat.mod_mod]
  refine ⟨_, ?_, rfl⟩
  rw [exec, execEncFlush, succeed_eq_answer, hdata]
  by_cases hcnt : s.pkCnt = 0
  · rw [if_pos hcnt, if_pos hcnt, List.append_nil]
    rfl
  · rw [if_neg hcnt, if_neg hcnt, byteOf_pending_pad hcnt]
    rfl

/-! ### An encoding pass (R155) -/

/-- A run whose first command completes goes on with the rest from the state it leaves. -/
theorem runCommands_cons {i : Instr} {is : List Instr} {s t : State} (hwf : i.wf = true) (hfault : s.fault = false)
    (hexec : exec i (s.feed is) = .next t) (hin : t.inputs = (s.feed is).inputs) :
    runCommands (i :: is) s = runCommands is t := by
  have hstep : core.step (s.feed (i :: is)) = .next t := step_of_exec (s := s.feed (i :: is)) rfl hwf hfault hexec
  have hfeed : t.feed is = t := by
    rw [State.feed, show is.map _ = t.inputs from hin.symm]
  rw [runCommands, runCommands, hfeed, List.length_cons, run_succ_of_step hstep]

/-- The commands of a pass leave the table as it is, so each finds its code there. -/
theorem runCommands_encSym (l : List Symbol) {s : State} (hfault : s.fault = false)
    (hcodes : ∀ y ∈ l, (s.ctAt y).v = true) : ∃ t, runCommands (l.map .encSym) s = .next t ∧
      s.emits t (l.map fun y => (s.ctAt y).code).flatten := by
  induction l generalizing s with
  | nil => exact ⟨s.feed [], rfl, s.emits_nil []⟩
  | cons y l ih =>
    obtain ⟨hy, hl⟩ := List.forall_mem_cons.1 hcodes
    obtain ⟨u, hexec, hu, hin⟩ := exec_encSym_emits (s := s.feed (l.map .encSym)) (y := y) hy
    have hct : ∀ z, u.ctAt z = s.ctAt z := fun z => by
      rw [State.ctAt, hu.frame]
      rfl
    obtain ⟨t, hrun, ht⟩ := ih (s := u) (by rw [hu.frame]; exact hfault)
      (fun z hz => (congrArg CtEntry.v (hct z)).trans (hl z hz))
    refine ⟨t, (runCommands_cons rfl hfault hexec hin).trans hrun, ?_⟩
    simp only [hct] at ht
    exact { hu.trans ht with }

/-- Settles O39: each command of the pass emits its code behind those before it, and leaves the table as it is. -/
theorem encodingPassConcatenatesCodes : Obligations.EncodingPassConcatenatesCodes := by
  intro l s hfault hcodes
  obtain ⟨t, hrun, hbits, -, -, -, hframe⟩ := runCommands_encSym l hfault hcodes
  refine ⟨t, hrun, ?_, ?_, hbits⟩
  · rw [hframe]
    exact hfault
  · rw [hframe]

end Sys2Proof.Machine

namespace Sys2Proof.Machine

open Sys2Proof.Spec

/-! ### What the decoder's commands answer (45_decoder.md R163 to R165) -/

/-- A legal command's fault is latched with the fields of its word (60_exceptions.md R182, R184; log 8). -/
theorem raised_encode_eq_latched (s : State) (f : BlockFault) (k : BitVec 4) (i : Instr) :
    raised s f k (encode i) = .next (latched s f.code.toNat
      (info k.toNat i.encodeB.toNat i.encodeA.toNat i.mnemonic.row.op.toNat)) := by
  rw [raised, raiseFault_eq_latched, ← fieldB_toNat, ← fieldA_toNat, ← fieldOp_toNat, fieldB_encode, fieldA_encode,
    fieldOp_encode]

theorem satInc_eq_ofNat {n : Nat} (c : BitVec n) : satInc c = BitVec.ofNat n (min (c.toNat + 1) (2 ^ n - 1)) := by
  rw [← satInc_toNat, BitVec.ofNat_toNat, BitVec.setWidth_eq]

section
variable {s u : State} {x : Bool}

theorem exec_decBit_of_raises {f : BlockFault} (h : decBit x s = .raises f) :
    exec (.decBit x) s = .next (latched s f.code.toNat (info 0 (num x) 0 0x50)) := by
  rw [exec, execDecBit, h]
  refine (raised_encode_eq_latched s f 0 (.decBit x)).trans ?_
  cases x <;> rfl

theorem exec_decBit_of_moved (h : decBit x s = .moved u none) : exec (.decBit x) s = .next (answer u 0 0) := by
  rw [exec, execDecBit, h]
  exact succeed_eq_answer u 0

theorem exec_decBit_of_emits {y : Symbol} (h : decBit x s = .moved (s.emitSym y) (some y)) :
    exec (.decBit x) s = .next (symbolOut s y) := by
  have hdata : (((1 : BitVec 1) ++ y).setWidth 56).toNat = 2 ^ 8 + y.toNat := by
    rw [BitVec.toNat_setWidth_of_le (by decide), toNat_append_eq_add]
    simp
  rw [exec, execDecBit, h]
  refine (succeed_eq_answer _ _).trans ?_
  rw [hdata, symbolOut, ← satInc_eq_ofNat, answer, State.emitSym, State.emit, List.append_assoc]
  rfl

/-! ### One bit, by the record its edge leads to (45_decoder.md R162) -/

theorem decBit_of_no_tree (h : s.treeValid = false) : decBit x s = .raises .corruptTree := by
  simp [decBit, h]

theorem decBit_of_not_internal (hv : s.treeValid = true) (hcur : s.decCur.toNat < 511)
    (hk : (s.nodeAt s.decCur).kind ≠ .internal) : decBit x s = .raises .corruptTree := by
  rw [State.nodeAt] at hk
  simp [decBit, hv, nodeRec?_of_lt _ _ hcur, hk]

/-- The decoder at the end of an edge to record `c` (45_decoder.md R162). -/
def State.arrive (s : State) (c : NodeIdx) : DecResult :=
  match (s.nodeAt c).kind with
  | .internal => .moved { s with decCur := c } none
  | .leaf => .moved (s.emitSym (s.nodeAt c).sym) (some (s.nodeAt c).sym)
  | .sentinel => .raises .corruptStream
  | .free => .raises .corruptTree

theorem decBit_eq_arrive {c : NodeIdx} (hv : s.treeValid = true) (hcur : s.decCur.toNat < 511)
    (hc : s.isChild s.decCur x c) (hlt : c.toNat < 511) : decBit x s = s.arrive c := by
  obtain ⟨hk, rfl⟩ := hc
  rw [State.nodeAt] at hk hlt
  simp only [decBit, if_pos hv, nodeRec?_of_lt _ _ hcur, if_pos hk, nodeRec?_of_lt _ _ hlt]
  rfl

end

/-- Settles O41: the transition by the tree, the pointer's record and the child's record, with its answer. -/
theorem decBitWalksTheTree : Obligations.DecBitWalksTheTree := by
  refine fun x s => ⟨fun hv => ?_, fun hv hcur hk => ?_, fun hv hcur hk c hc hlt => ?_⟩
  · exact exec_decBit_of_raises (decBit_of_no_tree hv)
  · exact exec_decBit_of_raises (decBit_of_not_internal hv (Nat.lt_succ_of_le hcur) hk)
  · have hbit : decBit x s = s.arrive c :=
      decBit_eq_arrive hv (Nat.lt_succ_of_le hcur) ⟨hk, hc.symm⟩ (Nat.lt_succ_of_le hlt)
    refine ⟨fun hck => ?_, fun hck => ?_, fun hck => ?_, fun hck => ?_⟩ <;> rw [State.arrive, hck] at hbit
    · exact exec_decBit_of_moved hbit
    · exact exec_decBit_of_emits hbit
    · exact exec_decBit_of_raises hbit
    · exact exec_decBit_of_raises hbit

/-! ### `DEC_END` (45_decoder.md R165) -/

theorem raised_decEnd (s : State) (g : BlockFault) (f : Bool) :
    raised s g 0 (encode (.decEnd f)) = .next (latched s g.code.toNat (info 0 (num f) 0 0x52)) := by
  refine (raised_encode_eq_latched s g 0 (.decEnd f)).trans ?_
  cases f <;> rfl

/-- `DEC_END` without a fault answers the count and clears it. -/
theorem succeed_count (s : State) : succeed { s with decSymCnt := 0 } (s.decSymCnt.setWidth 56) =
    .next (answer { s with decSymCnt := 0 } 0 s.decSymCnt.toNat) := by
  rw [succeed_eq_answer, BitVec.toNat_setWidth_of_le (by decide)]

/-- Settles O44: the checks one by one, in the order of `DEC_END`'s tests. -/
theorem decEndChecksInOrder : Obligations.DecEndChecksInOrder := by
  refine fun f s => ⟨fun hv => ?_, fun hv hcur => ?_, fun hv hcur hf => ?_, fun hv hcur hf hroot => ?_⟩ <;>
    rw [exec, execDecEnd]
  · rw [if_neg (by simp [hv]), raised_decEnd]
    rfl
  · rw [if_pos hv, if_neg hcur, raised_decEnd]
    rfl
  · rw [if_pos hv, if_pos hcur, if_neg (by simp [hf]), succeed_count]
  · rw [if_pos hv, if_pos hcur, if_pos hf, nodeRec?_of_lt _ _ (Nat.lt_succ_of_le hroot)]
    refine ⟨fun heq => ?_, fun hne => ?_⟩
    · rw [← succeed_count]
      exact if_pos (BitVec.eq_of_toNat_eq heq)
    · exact (if_neg fun heq => hne (congrArg BitVec.toNat heq)).trans (raised_decEnd s .corruptStream f)

/-! ### The single-symbol tree (45_decoder.md R168; 42_tree_builder.md R129) -/

/-- The records of the tree of one leaf: the leaf, the sentinel and the root above both. -/
theorem TreeInv.records_of_one_leaf {s : State} (h : TreeInv s) (hone : s.nleaf.toNat = 1) :
    s.root = 2 ∧ (s.nodeAt 0).kind = .leaf ∧ s.nodeAt 1 = ⟨.sentinel, 0, 0, 0, 0⟩ ∧ (s.nodeAt 2).left = 0 ∧
      (s.nodeAt 2).right = 1 ∧ (s.nodeAt 2).freq = (s.nodeAt 0).freq := by
  obtain ⟨hsize, hleft, hright⟩ := h.sizeOne hone
  obtain ⟨hlast, hk⟩ := h.rootLast
  have hroot : s.root = 2 := by bv_omega
  rw [hroot] at hleft hright hk
  have hleaf : (s.nodeAt 0).kind = .leaf := (h.leafPlace 0).2 (by rw [hone]; decide)
  have hsent : s.nodeAt 1 = ⟨.sentinel, 0, 0, 0, 0⟩ := by
    cases hk1 : (s.nodeAt 1).kind with
    | free => exact absurd hk1 ((h.allocated 1).2 (by rw [hsize]; decide))
    | leaf => exact absurd ((h.leafPlace 1).1 hk1) (by rw [hone]; decide)
    | sentinel => exact (h.sentinelFields 1 hk1).2
    | internal =>
      have hzero : (s.nodeAt 1).left = 0 := by
        have hlt := (h.childBelow 1 hk1).1
        bv_omega
      obtain ⟨hparent, -⟩ := h.parent_unique (x := false) (x' := false) ⟨hk1, hzero⟩ ⟨hk, hleft⟩
      exact absurd hparent (by decide)
  refine ⟨hroot, hleaf, hsent, hleft, hright, BitVec.eq_of_toNat_eq ?_⟩
  rw [h.freqSum 2 hk, hleft, hright, hsent]
  rfl

/-- Settles O45: the pointer's only internal record is the root, whose left edge leads to the leaf, whose right edge to the
sentinel, and whose frequency is the leaf's. -/
theorem singleSymbolDecoding : Obligations.SingleSymbolDecoding := by
  intro s hv htree hone hcur
  obtain ⟨hroot, hleaf, hsent, hleft, hright, hfreq⟩ := htree.records_of_one_leaf hone
  have hcur2 : s.decCur = 2 := by
    have hlt := htree.lt_of_internal hcur
    obtain ⟨hsize, -, -⟩ := htree.sizeOne hone
    have h0 : s.decCur ≠ 0 := fun h => by rw [h, hleaf] at hcur; cases hcur
    have h1 : s.decCur ≠ 1 := fun h => by rw [h, hsent] at hcur; cases hcur
    bv_omega
  have hatRoot : s.decCur = s.root := hcur2.trans hroot.symm
  rw [← hcur2] at hleft hright
  obtain ⟨-, -, hbit0⟩ := decBitWalksTheTree false s
  obtain ⟨-, -, hbit1⟩ := decBitWalksTheTree true s
  have hle : s.decCur.toNat ≤ 510 := by rw [hcur2]; decide
  obtain ⟨-, hemit, -, -⟩ := hbit0 hv hle hcur 0 hleft.symm (by decide)
  obtain ⟨-, -, hraise, -⟩ := hbit1 hv hle hcur 1 hright.symm (by decide)
  obtain ⟨-, -, hend, -⟩ := decEndChecksInOrder false s
  obtain ⟨-, -, -, hcheck⟩ := decEndChecksInOrder true s
  obtain ⟨hequal, hdiffer⟩ := hcheck hv hatRoot rfl (by rw [hroot]; decide)
  rw [show (s.nodeAt s.root).freq = (s.nodeAt 0).freq by rw [hroot, hfreq]] at hequal hdiffer
  exact ⟨hatRoot, hemit hleaf, hraise (by rw [hsent]), hend hv hatRoot rfl, fun h => hequal (congrArg BitVec.toNat h),
    fun h => hdiffer fun h' => h (BitVec.eq_of_toNat_eq h')⟩

end Sys2Proof.Machine

namespace Sys2Proof.Machine

open Sys2Proof.Spec

/-! ### A bit string through the decoder (45_decoder.md R162) -/

/-- These bits take the decoder from one state to another without a raise and emit these symbols; no command has answered. -/
inductive State.decodes : State → List Bool → List Symbol → State → Prop where
  | nil (s : State) : State.decodes s [] [] s
  | cons {s t u : State} {x : Bool} {e : Option Symbol} {l : List Bool} {ys : List Symbol}
      (hbit : decBit x s = .moved t e) (hrest : t.decodes l ys u) : State.decodes s (x :: l) (e.toList ++ ys) u

section
variable {s t u : State} {l l' : List Bool} {ys ys' : List Symbol}

theorem State.decodes.append (h : s.decodes l ys t) (h' : t.decodes l' ys' u) : s.decodes (l ++ l') (ys ++ ys') u := by
  induction h with
  | nil s => exact h'
  | cons hbit _ ih =>
    rw [List.append_assoc]
    exact .cons hbit (ih h')

theorem State.decodes_append_iff {zs : List Symbol} : s.decodes (l ++ l') zs u ↔
    ∃ ys ys' t, zs = ys ++ ys' ∧ s.decodes l ys t ∧ t.decodes l' ys' u := by
  constructor
  · intro h
    induction l generalizing s zs with
    | nil => exact ⟨[], zs, s, rfl, .nil s, h⟩
    | cons x l ih =>
      cases h with
      | cons hbit hrest =>
        obtain ⟨ys, ys', t, rfl, hl, hl'⟩ := ih hrest
        exact ⟨_, ys', t, (List.append_assoc ..).symm, .cons hbit hl, hl'⟩
  · rintro ⟨ys, ys', t, rfl, hl, hl'⟩
    exact hl.append hl'

/-- A bit emits a symbol at most. -/
theorem State.decodes.length_le (h : s.decodes l ys u) : ys.length ≤ l.length := by
  induction h with
  | nil s => exact le_rfl
  | @cons _ _ _ _ e _ _ _ _ ih =>
    have he : e.toList.length ≤ 1 := by cases e <;> simp
    rw [List.length_append, List.length_cons]
    omega

/-- The bits change the pointer, count the symbols, saturating, and emit them; nothing else. -/
theorem State.decodes.frame (h : s.decodes l ys u) : u = { s with
    decCur := u.decCur, decSymCnt := BitVec.ofNat 40 (min (s.decSymCnt.toNat + ys.length) (2 ^ 40 - 1)),
    beats := s.beats ++ ys.map .sym } := by
  induction h with
  | nil s =>
    have hcount : min (s.decSymCnt.toNat + 0) (2 ^ 40 - 1) = s.decSymCnt.toNat :=
      Nat.min_eq_left (Nat.le_sub_one_of_lt s.decSymCnt.isLt)
    rw [List.length_nil, hcount, BitVec.ofNat_toNat, BitVec.setWidth_eq, List.map_nil, List.append_nil]
  | @cons s t u x e l ys hbit _ ih =>
    obtain ⟨-, ⟨rfl, c, -, rfl⟩ | ⟨y, rfl, rfl⟩⟩ := decBit_moved hbit
    · exact ih
    · have hcount : min ((s.emitSym y).decSymCnt.toNat + ys.length) (2 ^ 40 - 1) =
          min (s.decSymCnt.toNat + ((some y).toList ++ ys).length) (2 ^ 40 - 1) := by
        have hone := satInc_toNat s.decSymCnt
        rw [List.length_append, show (s.emitSym y).decSymCnt = satInc s.decSymCnt from rfl, hone, Option.toList_some,
          List.length_singleton]
        omega
      rw [hcount] at ih
      rw [ih]
      simp [State.emitSym, State.emit]

/-- The decoder reads neither the traces nor the host's moves. -/
theorem State.decodes.withPorts (h : s.decodes l ys u) (bs : List Beat) (moves : List HostInput) :
    (s.withPorts bs moves).decodes l ys (u.withPorts (bs ++ ys.map .sym) moves) := by
  induction h generalizing bs with
  | nil s =>
    rw [List.map_nil, List.append_nil]
    exact .nil _
  | @cons _ _ _ x e _ _ hbit _ ih =>
    have hmoved := (decBit_withPorts x _ bs moves).trans (congrArg (DecResult.withPorts bs moves) hbit)
    rw [List.map_append, ← List.append_assoc]
    exact .cons hmoved (ih _)

/-- The loop of `DEC_BYTE` over these bits goes on behind them with their symbols counted. -/
theorem State.decodes.decBits_append (h : s.decodes l ys u) (w : Word) (rest : List Bool) (i k : Nat) :
    decBits w (l ++ rest) i k s = decBits w rest (i + l.length) (k + ys.length) u := by
  induction h generalizing i k with
  | nil s => rfl
  | @cons s t _ x e l ys hbit _ ih =>
    have hfirst : decBits w (x :: l ++ rest) i k s = decBits w (l ++ rest) (i + 1) (k + e.toList.length) t := by
      rw [List.cons_append, decBits, hbit]
      cases e <;> rfl
    rw [hfirst, ih, List.length_cons, List.length_append, Nat.add_assoc, Nat.add_assoc, Nat.add_comm 1]

/-- A loop of `DEC_BYTE` that raised nothing took its bits through the decoder. -/
theorem State.exists_decodes_of_decBits {w : Word} {i k : Nat} (h : decBits w l i k s = .next t) (ht : t.fault = false) :
    ∃ ys u, s.decodes l ys u := by
  induction l generalizing i k s with
  | nil => exact ⟨[], s, .nil s⟩
  | cons x l ih =>
    rw [decBits] at h
    cases hbit : decBit x s with
    | moved v e =>
      obtain ⟨ys, u, hrest⟩ : ∃ ys u, v.decodes l ys u := by
        cases e with
        | none => exact ih (by simpa only [hbit] using h)
        | some y => exact ih (by simpa only [hbit] using h)
      exact ⟨_, u, .cons hbit hrest⟩
    | raises f =>
      rw [hbit] at h
      cases h
      cases ht
    | absent =>
      rw [hbit] at h
      cases h

/-- A run of `DEC_BIT` that faults nowhere took its bits through the decoder. -/
theorem State.exists_decodes_of_runCommands (h : runCommands (l.map .decBit) s = .next u) (hs : s.fault = false)
    (hu : u.fault = false) : ∃ ys t, s.decodes l ys t := by
  rw [runCommands_decBit] at h
  obtain ⟨ys, hys⟩ := decBits_of_run h rfl hs hu
  have hloop := hys 0 [] 0 0 s.beats s.inputs
  rw [List.append_nil] at hloop
  exact State.exists_decodes_of_decBits (s := s) hloop hu

/-! ### Bits that walk the tree (45_decoder.md R161; 43_code_table.md R140) -/

/-- A bit along an edge to an internal record. -/
theorem State.decodes_move {x : Bool} {c : NodeIdx} (hv : s.treeValid = true) (hcur : s.decCur.toNat < 511)
    (hc : s.isChild s.decCur x c) (hlt : c.toNat < 511) (hk : (s.nodeAt c).kind = .internal) :
    s.decodes [x] [] { s with decCur := c } := by
  have hbit := decBit_eq_arrive hv hcur hc hlt
  rw [State.arrive, hk] at hbit
  exact .cons hbit (.nil _)

/-- A bit along an edge to a leaf. -/
theorem State.decodes_emit {x : Bool} {c : NodeIdx} (hv : s.treeValid = true) (hcur : s.decCur.toNat < 511)
    (hc : s.isChild s.decCur x c) (hlt : c.toNat < 511) (hk : (s.nodeAt c).kind = .leaf) :
    s.decodes [x] [(s.nodeAt c).sym] (s.emitSym (s.nodeAt c).sym) := by
  have hbit := decBit_eq_arrive hv hcur hc hlt
  rw [State.arrive, hk] at hbit
  exact .cons hbit (.nil _)

/-- A path to an internal record moves the pointer there. -/
theorem State.decodes_of_path {p : List Bool} {c : NodeIdx} (hv : s.treeValid = true)
    (hp : followPath s.node s.decCur p = some c) (hlt : c.toNat < 511) (hk : (s.nodeAt c).kind = .internal) :
    s.decodes p [] { s with decCur := c } := by
  induction p using List.reverseRecOn generalizing c with
  | nil =>
    cases hp
    exact .nil s
  | append_singleton p x ih =>
    obtain ⟨k, hpk, hklt, hkk, hkc⟩ := followPath_concat_iff.1 hp
    exact (ih hpk hklt hkk).append
      (State.decodes_move (s := { s with decCur := k }) hv hklt ⟨hkk, hkc⟩ hlt hk)

/-- A path to a leaf emits its symbol. -/
theorem State.decodes_of_codeword {p : List Bool} {c : NodeIdx} (hv : s.treeValid = true) (hne : p ≠ [])
    (hp : followPath s.node s.decCur p = some c) (hlt : c.toNat < 511) (hk : (s.nodeAt c).kind = .leaf) :
    s.decodes p [(s.nodeAt c).sym] (s.emitSym (s.nodeAt c).sym) := by
  obtain ⟨q, x, rfl⟩ := List.eq_nil_or_concat p |>.resolve_left hne
  rw [List.concat_eq_append] at hp ⊢
  obtain ⟨k, hq, hklt, hkk, hkc⟩ := followPath_concat_iff.1 hp
  exact (State.decodes_of_path hv hq hklt hkk).append
    (State.decodes_emit (s := { s with decCur := k }) hv hklt ⟨hkk, hkc⟩ hlt hk)

end

/-- Bits that walk the tree of `s` as R161 says, from the pointer of a state with the same tree, go through the decoder. -/
theorem State.exists_decodes_of_decodesTo {s t : State} {l : List Bool} {out : List Symbol} {e : NodeIdx}
    (h : decodesTo s t.decCur l out e) (hv : t.treeValid = true) (hnode : t.node = s.node) (hroot : t.root = s.root) :
    ∃ u, t.decodes l out u ∧ u.decCur = e := by
  induction out generalizing t l with
  | nil =>
    obtain ⟨hp, hle, hk⟩ := h
    rw [State.nodeAt] at hk
    rw [← hnode] at hp hk
    exact ⟨_, State.decodes_of_path hv hp (Nat.lt_succ_of_le hle) hk, rfl⟩
  | cons y out ih =>
    obtain ⟨p, rest, c, rfl, hne, hp, hle, hk, rfl, hrest⟩ := h
    rw [State.nodeAt, ← hnode] at hk ⊢
    rw [← hnode] at hp
    have hword := State.decodes_of_codeword hv hne hp (Nat.lt_succ_of_le hle) hk
    rw [← hroot] at hrest
    obtain ⟨u, hu, hcur⟩ := ih (t := t.emitSym (t.nodeAt c).sym) hrest hv hnode hroot
    exact ⟨u, hword.append hu, hcur⟩

/-- An edge more before the walk. -/
theorem decodesTo_cons {s : State} {c d e : NodeIdx} {x : Bool} {l : List Bool} {out : List Symbol}
    (hlt : c.toNat < 511) (hc : s.isChild c x d) (h : decodesTo s d l out e) : decodesTo s c (x :: l) out e := by
  obtain ⟨hk, rfl⟩ := hc
  cases out with
  | nil =>
    obtain ⟨hp, he⟩ := h
    exact ⟨followPath_cons_iff.2 ⟨hlt, hk, hp⟩, he⟩
  | cons y out =>
    obtain ⟨p, rest, i, rfl, -, hp, hrest⟩ := h
    exact ⟨x :: p, rest, i, rfl, List.cons_ne_nil _ _, followPath_cons_iff.2 ⟨hlt, hk, hp⟩, hrest⟩

/-- With two leaves or more every edge leads to a leaf or an internal record, so every bit string walks the tree. -/
theorem TreeInv.exists_decodesTo {s : State} (h : TreeInv s) (hmany : 2 ≤ s.nleaf.toNat) (l : List Bool) {c : NodeIdx}
    (hc : (s.nodeAt c).kind = .internal) : ∃ out e, out.length ≤ l.length ∧ decodesTo s c l out e := by
  have hlt {i : NodeIdx} (hi : i.toNat < s.nnode.toNat) : i.toNat < 511 := Nat.lt_of_lt_of_le hi h.nnode_le
  induction l generalizing c with
  | nil => exact ⟨[], c, le_rfl, rfl, Nat.le_of_lt_succ (hlt (h.lt_of_internal hc)), hc⟩
  | cons x l ih =>
    have hedge : s.isChild c x ((s.nodeAt c).child x) := ⟨hc, rfl⟩
    generalize (s.nodeAt c).child x = d at hedge
    have hclt := h.lt_of_internal hc
    have hd := Nat.lt_trans (h.child_lt hedge) hclt
    cases hk : (s.nodeAt d).kind with
    | free => exact absurd hk ((h.allocated d).2 hd)
    | sentinel =>
      obtain ⟨hone, -⟩ := h.sentinelFields d hk
      omega
    | internal =>
      obtain ⟨out, e, hlen, hout⟩ := ih hk
      exact ⟨out, e, Nat.le_succ_of_le hlen, decodesTo_cons (hlt hclt) hedge hout⟩
    | leaf =>
      obtain ⟨out, e, hlen, hout⟩ := ih h.rootLast.2
      obtain ⟨-, hchild⟩ := hedge
      exact ⟨(s.nodeAt d).sym :: out, e, Nat.succ_le_succ hlen, [x], l, d, rfl, List.cons_ne_nil _ _,
        followPath_cons_iff.2 ⟨hlt hclt, hc, congrArg some hchild⟩, Nat.le_of_lt_succ (hlt hd), hk, rfl, hout⟩

/-! ### `DEC_BYTE` (45_decoder.md R164) -/

theorem highBits_length (y : Byte) (n : BitVec 4) : (highBits y n).length = n.toNat := by
  rw [highBits, List.length_map, List.length_range]

/-- Bit 7 − i of a byte stands behind its i higher bits. -/
theorem highBits_split (y : Byte) {n : BitVec 4} {i : Nat} (hi : i < n.toNat) :
    highBits y n = (highBits y n).take i ++ y.getLsbD (7 - i) :: (highBits y n).drop (i + 1) := by
  have hlt : i < (highBits y n).length := by rwa [highBits_length]
  have hbit : (highBits y n)[i] = y.getLsbD (7 - i) := by simp [highBits]
  rw [← hbit, ← List.drop_eq_getElem_cons hlt, List.take_append_drop]

/-- `DEC_BYTE` whose bits go through the decoder answers the number of symbols. -/
theorem exec_decByte_of_decodes {s u : State} {y : Byte} {n : BitVec 4} {ys : List Symbol} (hn : n.toNat ≤ 8)
    (h : s.decodes (highBits y n) ys u) : exec (.decByte y n) s = .next (answer u 0 ys.length) := by
  have hloop := h.decBits_append (encode (.decByte y n)) [] 0 0
  have hlen := h.length_le
  rw [highBits_length] at hlen
  rw [List.append_nil, Nat.zero_add, Nat.zero_add] at hloop
  rw [exec, execDecByte, byteBits_eq_highBits y hn, hloop, decBits, succeed_eq_answer, BitVec.toNat_ofNat,
    Nat.mod_eq_of_lt (by omega)]

/-- `DEC_BYTE` one of whose bits raises, those before it having gone through the decoder. -/
theorem exec_decByte_of_raises {s u : State} {y : Byte} {n : BitVec 4} {ys : List Symbol} {i : Nat} {f : BlockFault}
    (hn : n.toNat ≤ 8) (hi : i < n.toNat) (h : s.decodes ((highBits y n).take i) ys u)
    (hraise : decBit (y.getLsbD (7 - i)) u = .raises f) :
    exec (.decByte y n) s = .next (latched u f.code.toNat (info i n.toNat y.toNat 0x51)) := by
  have hlt : i < (highBits y n).length := by rwa [highBits_length]
  have hloop := h.decBits_append (encode (.decByte y n)) (y.getLsbD (7 - i) :: (highBits y n).drop (i + 1)) 0 0
  rw [← highBits_split y hi, List.length_take_of_le hlt.le, Nat.zero_add, decBits, hraise] at hloop
  have hindex : (BitVec.ofNat 4 i).toNat = i := by
    rw [BitVec.toNat_ofNat]
    exact Nat.mod_eq_of_lt (by omega)
  have hcount : (Instr.decByte y n).encodeB.toNat = n.toNat := BitVec.toNat_setWidth_of_le (by decide)
  rw [exec, execDecByte, byteBits_eq_highBits y hn, hloop]
  refine (raised_encode_eq_latched u f (BitVec.ofNat 4 i) (.decByte y n)).trans ?_
  rw [hindex, hcount]
  rfl

/-- Settles O43: a walk of the bits takes them through the decoder, and with two leaves or more there is one. -/
theorem decByteCompletes : Obligations.DecByteCompletes := by
  refine fun y n s _ hn hv => ⟨fun out e hwalk => ?_, fun htree hmany hcur => ?_⟩
  · obtain ⟨u, hu, rfl⟩ := State.exists_decodes_of_decodesTo hwalk hv rfl rfl
    rw [exec_decByte_of_decodes hn hu, answer]
    have hframe := hu.frame
    generalize hc : u.decCur = c at hframe ⊢
    rw [hframe]
  · obtain ⟨out, e, hlen, hout⟩ := htree.exists_decodesTo hmany (highBits y n) hcur
    exact ⟨out, e, by rwa [highBits_length] at hlen, hout⟩

end Sys2Proof.Machine

namespace Sys2Proof.Machine

open Sys2Proof.Spec

/-! ### No command reads the host's later moves (10_state.md R19; log 1) -/

/-- The state with these moves of the host to come. -/
def State.withMoves (moves : List HostInput) (s : State) : State := { s with inputs := moves }

/-- The same result of a bit where these moves of the host were to come. -/
def DecResult.withMoves (moves : List HostInput) : DecResult → DecResult
  | .moved u e => .moved (u.withMoves moves) e
  | .raises f => .raises f
  | .absent => .absent

/-- The same outcome of a command where these moves of the host were to come. -/
def outcomeWithMoves (moves : List HostInput) :
    Host.Outcome State Fault Refusal → Host.Outcome State Fault Refusal
  | .next t => .next (t.withMoves moves)
  | .fault f => .fault f
  | .refused r => .refused r

section
variable (moves : List HostInput) (s : State)

theorem State.withMoves_scanTable :
    (s.withMoves moves).clearDerived.scanTable = s.clearDerived.scanTable.withMoves moves := by
  have hbody := State.scanTable_eq_withTreeOf (s := s.withMoves moves) (s' := s) fun _ => rfl
  have hself : s.clearDerived.scanTable = s.clearDerived.withTreeOf s.clearDerived.scanTable :=
    s.clearDerived.sameOutsideTree_scanTable
  generalize s.clearDerived.scanTable = t at hbody hself ⊢
  rw [hself]
  exact hbody

theorem State.withMoves_buildTree : (s.withMoves moves).buildTree = s.buildTree.withMoves moves := by
  have hbody := State.withTreeOf_buildTree (s.withMoves moves) s
  have hself : s.buildTree = s.withTreeOf s.buildTree := s.sameOutsideTree_buildTree
  generalize s.buildTree = t at hbody hself ⊢
  rw [hself]
  exact hbody

theorem execTbBuild_withMoves : execTbBuild (s.withMoves moves) = outcomeWithMoves moves (execTbBuild s) := by
  rw [execTbBuild, execTbBuild, State.withMoves_scanTable]
  generalize s.clearDerived.scanTable = t
  dsimp only
  rw [State.withMoves_buildTree, apply_ite (outcomeWithMoves moves)]
  rfl

theorem execCtGen_withMoves : execCtGen (s.withMoves moves) = outcomeWithMoves moves (execCtGen s) := by
  change execCtGen { s with inputs := moves } = _
  unfold execCtGen
  dsimp only
  split
  · split <;> rfl
  · rfl

theorem State.withMoves_emitBits (l : List Bool) : (s.withMoves moves).emitBits l = (s.emitBits l).withMoves moves := by
  induction l generalizing s with
  | nil => rfl
  | cons x l ih =>
    have hbit : (s.withMoves moves).emitBit x = (s.emitBit x).withMoves moves := by
      change State.emitBit { s with inputs := moves } x = _
      unfold State.emitBit
      dsimp only
      split <;> rfl
    change ((s.withMoves moves).emitBit x).emitBits l = _
    rw [hbit]
    exact ih _

theorem execEncSym_withMoves (y : Symbol) :
    execEncSym y (s.withMoves moves) = outcomeWithMoves moves (execEncSym y s) := by
  rw [execEncSym, execEncSym, apply_ite (outcomeWithMoves moves), State.withMoves_emitBits]
  rfl

theorem decBit_withMoves (x : Bool) : decBit x (s.withMoves moves) = (decBit x s).withMoves moves := by
  refine (decBit_withPorts x s s.beats moves).trans ?_
  cases hbit : decBit x s with
  | moved u e =>
    obtain ⟨-, ⟨rfl, c, -, rfl⟩ | ⟨y, rfl, rfl⟩⟩ := decBit_moved hbit
    · rw [DecResult.withPorts, Option.toList_none, List.map_nil, List.append_nil]
      rfl
    · rfl
  | raises f => rfl
  | absent => rfl

theorem execDecBit_withMoves (x : Bool) :
    execDecBit x (s.withMoves moves) = outcomeWithMoves moves (execDecBit x s) := by
  rw [execDecBit, execDecBit, decBit_withMoves]
  rcases decBit x s with ⟨u, _ | y⟩ | f | _ <;> rfl

theorem decBits_withMoves (w : Word) (l : List Bool) (i k : Nat) :
    decBits w l i k (s.withMoves moves) = outcomeWithMoves moves (decBits w l i k s) := by
  induction l generalizing i k s with
  | nil => rfl
  | cons x l ih =>
    rw [decBits, decBits, decBit_withMoves]
    rcases decBit x s with ⟨u, _ | y⟩ | f | _
    · exact ih u (i + 1) k
    · exact ih u (i + 1) (k + 1)
    · rfl
    · rfl

theorem execDecEnd_withMoves (f : Bool) :
    execDecEnd f (s.withMoves moves) = outcomeWithMoves moves (execDecEnd f s) := by
  change execDecEnd f { s with inputs := moves } = _
  unfold execDecEnd
  dsimp only
  split
  · split
    · split
      · split
        · rfl
        · split <;> rfl
      · rfl
    · rfl
  · rfl

theorem execNdInfo_withMoves (n : NodeIdx) :
    execNdInfo n (s.withMoves moves) = outcomeWithMoves moves (execNdInfo n s) := by
  change execNdInfo n { s with inputs := moves } = _
  unfold execNdInfo
  dsimp only
  split <;> rfl

theorem execNdFreq_withMoves (n : NodeIdx) :
    execNdFreq n (s.withMoves moves) = outcomeWithMoves moves (execNdFreq n s) := by
  change execNdFreq n { s with inputs := moves } = _
  unfold execNdFreq
  dsimp only
  split <;> rfl

theorem execEncFlush_withMoves : execEncFlush (s.withMoves moves) = outcomeWithMoves moves (execEncFlush s) := by
  change execEncFlush { s with inputs := moves } = _
  unfold execEncFlush
  dsimp only
  split <;> rfl

/-- No command reads the host's moves, and none changes them. -/
theorem exec_withMoves (i : Instr) : exec i (s.withMoves moves) = outcomeWithMoves moves (exec i s) := by
  cases i with
  | nop | clr | rdreg r | ftSet y c | ftRd y | ctLen y | ctBits y k => rfl
  | faSym y =>
    change execFaSym y _ = outcomeWithMoves moves (execFaSym y s)
    rw [execFaSym, execFaSym, apply_ite (outcomeWithMoves moves)]
    rfl
  | ndInfo n => exact execNdInfo_withMoves moves s n
  | ndFreq n => exact execNdFreq_withMoves moves s n
  | tbBuild => exact execTbBuild_withMoves moves s
  | ctGen => exact execCtGen_withMoves moves s
  | encSym y => exact execEncSym_withMoves moves s y
  | encFlush => exact execEncFlush_withMoves moves s
  | decBit x => exact execDecBit_withMoves moves s x
  | decByte y n => exact decBits_withMoves moves s _ _ 0 0
  | decEnd f => exact execDecEnd_withMoves moves s f

theorem acceptWord_withMoves (w : Word) : acceptWord w (s.withMoves moves) = outcomeWithMoves moves (acceptWord w s) := by
  unfold acceptWord
  split
  · rw [apply_ite (outcomeWithMoves moves)]
    rfl
  · rw [apply_ite (outcomeWithMoves moves), exec_withMoves]
    rfl

end

/-- A run of commands goes on with further commands from where it ends. -/
theorem runCommands_append {is : List Instr} (js : List Instr) {s t : State} (h : runCommands is s = .next t) :
    runCommands (is ++ js) s = runCommands js t := by
  induction is generalizing s with
  | nil =>
    cases h
    rfl
  | cons i is ih =>
    obtain ⟨u, hstep, hrun⟩ := run_core_succ_next h
    have haccept : acceptWord (encode i) (s.feed is) = .next u := hstep
    have hmoves (ks : List Instr) : acceptWord (encode i) (s.feed ks) = .next (u.feed ks) :=
      (acceptWord_withMoves (s.feed ks).inputs (s.feed is) (encode i)).trans
        (congrArg (outcomeWithMoves (s.feed ks).inputs) haccept)
    have hu : u = u.feed is := Host.Outcome.next.inj (haccept.symm.trans (hmoves is))
    have hfirst : core.step (s.feed (i :: is ++ js)) = .next (u.feed (is ++ js)) := hmoves (is ++ js)
    have hrest : runCommands is u = .next t := by rw [runCommands, ← hu]; exact hrun
    exact (run_succ_of_step hfirst).trans (ih hrest)

/-- A legal command that completes, and then the rest of a run. -/
theorem runCommands_cons_of_exec {i : Instr} (is : List Instr) {s t : State} (hwf : i.wf = true) (hf : s.fault = false)
    (h : exec i s = .next t) : runCommands (i :: is) s = runCommands is t :=
  runCommands_cons (t := t.feed is) hwf hf
    ((exec_withMoves (s.feed is).inputs s i).trans (congrArg (outcomeWithMoves (s.feed is).inputs) h)) rfl

end Sys2Proof.Machine

namespace Sys2Proof.Machine

open Sys2Proof.Spec

/-! ### Commands that read bits (45_decoder.md R163, R164) -/

/-- `v` is the state `u` of the decoder with other ports: since `s` the symbols `ys` were emitted, among responses or not. -/
structure State.decoded (s u : State) (ys : List Symbol) (v : State) : Prop where
  state : v = u.withPorts v.beats v.inputs
  beats : s.beats <+: v.beats
  symbols : v.symTrace = s.symTrace ++ ys

/-- The command takes these bits through the decoder, from every state in which they raise nothing. -/
def readsBits (i : Instr) (p : List Bool) : Prop :=
  i.wf = true ∧ ∀ s u ys, State.decodes s p ys u → ∃ v, exec i s = .next v ∧ s.decoded u ys v

section
variable {s t u v w : State} {l : List Bool} {ys zs : List Symbol}

theorem State.decoded_feed (s : State) (is : List Instr) : s.decoded s [] (s.feed is) where
  state := rfl
  beats := List.prefix_rfl
  symbols := (List.append_nil _).symm

theorem State.decoded.trans {bs : List Beat} {moves : List HostInput} (h : s.decoded t ys v)
    (h' : v.decoded (u.withPorts bs moves) zs w) : s.decoded u (ys ++ zs) w where
  state := h'.state
  beats := h.beats.trans h'.beats
  symbols := by rw [h'.symbols, h.symbols, List.append_assoc]

theorem State.decodes.symTrace (h : s.decodes l ys u) : u.symTrace = s.symTrace ++ ys := by
  induction h with
  | nil s => exact (List.append_nil _).symm
  | @cons s t u x e l ys hbit _ ih =>
    obtain ⟨-, ⟨rfl, c, -, rfl⟩ | ⟨y, rfl, rfl⟩⟩ := decBit_moved hbit
    · exact ih
    · have hsym : (s.emitSym y).symTrace = s.symTrace ++ [y] := s.symTrace_emit_sym y
      rw [ih, hsym, List.append_assoc, Option.toList_some]

/-- An answer behind the symbols. -/
theorem State.decodes.decoded_answer (h : s.decodes l ys u) (d : Nat) : s.decoded u ys (answer u 0 d) where
  state := rfl
  beats := by
    rw [answer, congrArg State.beats h.frame]
    exact (List.prefix_append _ _).trans (List.prefix_append _ _)
  symbols := (symTrace_answer u 0 d).trans h.symTrace

theorem readsBits_decBit (x : Bool) : readsBits (.decBit x) [x] := by
  refine ⟨rfl, fun s u ys h => ?_⟩
  obtain ⟨d, hd⟩ : ∃ d, exec (.decBit x) s = .next (answer u 0 d) := by
    cases h with
    | @cons _ t _ _ e _ _ hbit hrest =>
      cases hrest
      rw [exec, execDecBit, hbit]
      cases e <;> exact ⟨_, succeed_eq_answer _ _⟩
  exact ⟨_, hd, h.decoded_answer d⟩

theorem readsBits_decByte {y : Byte} {n : BitVec 4} (hlo : 1 ≤ n.toNat) (hhi : n.toNat ≤ 8) :
    readsBits (.decByte y n) (highBits y n) :=
  ⟨decide_eq_true ⟨hlo, hhi⟩, fun _ _ _ h => ⟨_, exec_decByte_of_decodes hhi h, h.decoded_answer _⟩⟩

/-- A run of commands that read bits takes all their bits through the decoder. -/
theorem runCommands_of_readsBits {is : List Instr} {ps : List (List Bool)} (h : List.Forall₂ readsBits is ps)
    (hs : s.fault = false) (hd : s.decodes ps.flatten ys u) :
    ∃ v, runCommands is s = .next v ∧ s.decoded u ys v := by
  induction h generalizing s u ys with
  | nil =>
    cases hd
    exact ⟨_, rfl, s.decoded_feed []⟩
  | @cons i p is ps hi _ ih =>
    obtain ⟨ys, zs, t, rfl, hfirst, hrest⟩ := State.decodes_append_iff.1 hd
    obtain ⟨hwf, hreads⟩ := hi
    obtain ⟨v, hexec, hv⟩ := hreads s t ys hfirst
    have hvf : v.fault = false := by
      rw [hv.state]
      exact (congrArg State.fault hfirst.frame).trans hs
    have hports := hrest.withPorts v.beats v.inputs
    rw [← hv.state] at hports
    obtain ⟨w, hrun, hw⟩ := ih hvf hports
    exact ⟨w, (runCommands_cons_of_exec is hwf hs hexec).trans hrun, hv.trans hw⟩

/-- The bits one by one. -/
theorem forall₂_readsBits_decBit (l : List Bool) :
    List.Forall₂ readsBits (l.map .decBit) (l.map fun x => [x]) := by
  rw [List.forall₂_map_left_iff, List.forall₂_map_right_iff, List.forall₂_same]
  exact fun x _ => readsBits_decBit x

theorem runCommands_decBit_of_decodes (hs : s.fault = false) (h : s.decodes l ys u) :
    ∃ v, runCommands (l.map .decBit) s = .next v ∧ s.decoded u ys v :=
  runCommands_of_readsBits (forall₂_readsBits_decBit l) hs (by rwa [← List.flatMap_def, List.flatMap_singleton'])

/-- The beats since a state are its trace's continuation. -/
theorem symTrace_eq_append_symbolsSince (h : s.beats <+: v.beats) : v.symTrace = s.symTrace ++ symbolsSince s v := by
  obtain ⟨bs, hbs⟩ := h
  rw [symbolsSince, State.symTrace, ← hbs, List.drop_left, List.filterMap_append]
  rfl

/-- What a run of `DEC_BIT` leaves is what its bits leave of the decoder, with the symbols since then. -/
theorem State.decodes_of_runCommands_decBit (h : runCommands (l.map .decBit) s = .next v) (hs : s.fault = false)
    (hv : v.fault = false) : s.decodes l (symbolsSince s v)
      { v with inputs := s.inputs, beats := s.beats ++ (symbolsSince s v).map .sym } := by
  obtain ⟨ys, u, hd⟩ := State.exists_decodes_of_runCommands h hs hv
  obtain ⟨v', hrun, hstate, hbeats, hsyms⟩ := runCommands_decBit_of_decodes hs hd
  obtain rfl := Host.Outcome.next.inj (h.symm.trans hrun)
  obtain rfl : ys = symbolsSince s v :=
    List.append_cancel_left (hsyms.symm.trans (symTrace_eq_append_symbolsSince hbeats))
  have hu : u = { v with inputs := s.inputs, beats := s.beats ++ (symbolsSince s v).map .sym } := by
    have hports : u.beats = s.beats ++ (symbolsSince s v).map .sym := congrArg State.beats hd.frame
    have hmoves : u.inputs = s.inputs := by rw [hd.frame]
    rw [← hports, ← hmoves, hstate]
    rfl
  rwa [← hu]

/-- `DEC_BIT` enters the fault state where its bit raises. -/
theorem decBit_raises_of_fault {x : Bool} (h : exec (.decBit x) u = .next v) (hu : u.fault = false)
    (hv : v.fault = true) : ∃ f, decBit x u = .raises f ∧ v.err = f.code := by
  rw [exec, execDecBit] at h
  cases hbit : decBit x u with
  | moved t e =>
    have ht : v.fault = t.fault := by
      rw [hbit] at h
      cases e <;> cases h <;> rfl
    obtain ⟨-, ⟨-, c, -, rfl⟩ | ⟨y, -, rfl⟩⟩ := decBit_moved hbit <;> cases hu.symm.trans (ht.symm.trans hv)
  | raises f =>
    rw [hbit] at h
    cases h
    exact ⟨f, rfl, rfl⟩
  | absent =>
    rw [hbit] at h
    cases h

end

/-- Settles O42: a run of `DEC_BIT` without a fault took its bits through the decoder, and `DEC_BYTE` does the same with them, up
to the first that raises. -/
theorem decByteIsItsBits : Obligations.DecByteIsItsBits := by
  refine fun y n s u _ hn hs => ⟨fun hrun hu => ?_, fun i v hi hrun hu hexec hv => ?_⟩
  · exact exec_decByte_of_decodes hn (State.decodes_of_runCommands_decBit hrun hs hu)
  · obtain ⟨f, hraise, herr⟩ := decBit_raises_of_fault hexec hu hv
    have hdecodes := State.decodes_of_runCommands_decBit hrun hs hu
    rw [herr]
    exact exec_decByte_of_raises hn hi hdecodes
      ((decBit_withPorts _ u _ _).trans (congrArg (DecResult.withPorts _ _) hraise))

end Sys2Proof.Machine

namespace Sys2Proof.Machine

open Sys2Proof.Spec

/-! ### The bytes of a bit string (44_encoder.md R153, R154; 70_reset_and_hazards.md R206) -/

/-- The byte of up to eight bits, the bits high and pad zeros low (44_encoder.md R154). -/
def paddedByte (p : List Bool) : Byte := byteOf (p ++ List.replicate (8 - p.length) false)

/-- The full bytes of a bit string, and the bits left over in a last byte. -/
def packedBytes (l : List Bool) : List Byte := fullBytes l ++ if leftOver l = [] then [] else [paddedByte (leftOver l)]

theorem highBits_paddedByte {p : List Bool} {n : BitVec 4} (hp : p.length ≤ 8) (hn : n.toNat = p.length) :
    highBits (paddedByte p) n = p := by
  have hlen : (p ++ List.replicate (8 - p.length) false).length = 8 := by
    rw [List.length_append, List.length_replicate]
    omega
  refine List.ext_getElem (by rw [highBits_length, hn]) fun j hj hjp => ?_
  have hfull := fullBytes_byte_append hlen []
  have hbit := fullBytes_getLsbD (p ++ List.replicate (8 - p.length) false) (m := 0) (j := j) (by omega) (by omega)
  rw [List.append_nil] at hfull
  rw [hfull, List.getD_cons_zero, Nat.mul_zero, Nat.zero_add, List.getD_append _ _ _ _ hjp] at hbit
  simpa [highBits, paddedByte, hjp, List.getD_eq_getElem?_getD] using hbit

theorem readsBits_paddedByte {p : List Bool} (hlo : 1 ≤ p.length) (hhi : p.length ≤ 8) :
    readsBits (.decByte (paddedByte p) (BitVec.ofNat 4 p.length)) p := by
  have hn : (BitVec.ofNat 4 p.length).toNat = p.length := by
    rw [BitVec.toNat_ofNat]
    exact Nat.mod_eq_of_lt (by omega)
  have hreads := readsBits_decByte (y := paddedByte p) (n := BitVec.ofNat 4 p.length) (by omega) (by omega)
  rwa [highBits_paddedByte hhi hn] at hreads

theorem packedBytes_of_lt {l : List Bool} (h : l.length < 8) :
    packedBytes l = if l = [] then [] else [paddedByte l] := by
  rw [packedBytes, fullBytes_of_lt h, leftOver_of_lt h, List.nil_append]

theorem packedBytes_byte_append {p : List Bool} (h : p.length = 8) (l : List Bool) :
    packedBytes (p ++ l) = paddedByte p :: packedBytes l := by
  have hp : paddedByte p = byteOf p := by
    rw [paddedByte, h]
    exact congrArg byteOf (List.append_nil p)
  rw [packedBytes, fullBytes_byte_append h, leftOver_byte_append h, hp]
  rfl

/-- The commands of R206 read the bit string that the bytes hold. -/
theorem exists_readsBits_byteCommands (l : List Bool) :
    ∃ ps, List.Forall₂ readsBits (byteCommands (packedBytes l) l.length) ps ∧ ps.flatten = l := by
  induction l using bytewise_induction with
  | short l h =>
    rw [packedBytes_of_lt h]
    split
    · next hnil => exact ⟨[], .nil, hnil.symm⟩
    · next hne =>
      rw [byteCommands, byteCommands, Nat.min_eq_right h.le]
      exact ⟨[l], .cons (readsBits_paddedByte (List.length_pos_iff.2 hne) h.le) .nil, List.append_nil l⟩
  | byte p l h ih =>
    obtain ⟨ps, hps, hflat⟩ := ih
    have hreads := readsBits_paddedByte (p := p) (by omega) h.le
    rw [packedBytes_byte_append h, byteCommands, List.length_append, Nat.min_eq_left (by omega), h, Nat.add_sub_cancel_left]
    rw [h] at hreads
    exact ⟨p :: ps, .cons hreads hps, congrArg (p ++ ·) hflat⟩

/-! ### The encoding side of the round trip (R167; 44_encoder.md R155) -/

/-- From `s` to `u`, without a fault, the bits `l` were emitted: their full bytes are emitted and the rest waits. -/
structure State.encodes (s u : State) (l : List Bool) : Prop where
  fault : u.fault = false
  bits : u.bitTrace = s.bitTrace ++ l
  bytes : u.byteTrace = s.byteTrace ++ fullBytes l
  waiting : pending u = leftOver l

theorem State.encodes.emits {s t u : State} {l l' : List Bool} (h : s.encodes t l) (h' : t.emits u l') :
    s.encodes u (l ++ l') where
  fault := by
    rw [h'.frame]
    exact h.fault
  bits := by rw [h'.bits, h.bits, List.append_assoc]
  bytes := by rw [h'.bytes, h.bytes, h.waiting, List.append_assoc, ← fullBytes_append]
  waiting := by rw [h'.waiting, h.waiting, ← leftOver_append]

/-- `TB_BUILD; CT_GEN` emits no bit and gives each key the path to its leaf (R126, R141). -/
theorem exists_codes_of_keys {s : State} (hs : s.fault = false) (hkey : ∃ y : Symbol, (s.ftAt y).v = true) :
    ∃ t u : State, exec .tbBuild s = .next t ∧ (∀ is, runCommands ([.tbBuild, .ctGen] ++ is) s = runCommands is u) ∧
      s.encodes u [] ∧ ∀ y : Symbol, (s.ftAt y).v = true →
        (u.ctAt y).v = true ∧ (u.ctAt y).code ≠ [] ∧ t.leadsTo (u.ctAt y).code y := by
  obtain ⟨t, hbuild, hframe, -, htree, hleaf, -, -⟩ := tbBuildBuildsTheTree s hkey
  have htf : t.fault = false := by
    rw [hframe]
    exact hs
  obtain ⟨ct, hgen, hcodes⟩ := execCtGen_makes_codes (s := t) (by rw [hframe]) htree
  have hbuilt := changesOwned_exec .tbBuild s t hbuild
  have hmade := changesOwned_exec .ctGen t _ hgen
  refine ⟨t, _, hbuild, fun is => (runCommands_cons_of_exec (.ctGen :: is) rfl hs hbuild).trans
    (runCommands_cons_of_exec (i := .ctGen) is rfl htf hgen), ⟨htf, ?_, ?_, ?_⟩, fun y hy => ?_⟩
  · rw [hmade.bits (by decide), hbuilt.bits (by decide), List.append_nil]
  · rw [hmade.bytes (by decide), hbuilt.bytes (by decide)]
    exact (List.append_nil _).symm
  · exact pending_of_empty (show t.pkCnt = 0 by rw [hframe])
  · obtain ⟨i, -, hi⟩ := hleaf y hy
    obtain rfl : (t.nodeAt i).sym = y := congrArg NodeRec.sym hi
    have hv := hcodes.covers i (congrArg NodeRec.kind hi)
    obtain ⟨hlen, hpath⟩ := hcodes.paths _ hv
    rw [← CtEntry.code_length] at hlen
    exact ⟨hv, List.length_pos_iff.1 hlen, hpath⟩

/-- Building, generating and encoding emits the paths in the tree to the leaves of the symbols. -/
theorem exists_encodes {s : State} {l : List Symbol} (hs : s.fault = false) (hne : l ≠ [])
    (hkeys : ∀ y ∈ l, (s.ftAt y).v = true) :
    ∃ (t u : State) (c : Symbol → List Bool), exec .tbBuild s = .next t ∧ (∀ y ∈ l, c y ≠ [] ∧ t.leadsTo (c y) y) ∧
      runCommands ([.tbBuild, .ctGen] ++ l.map .encSym) s = .next u ∧ s.encodes u (l.map c).flatten := by
  obtain ⟨z, hz⟩ := List.exists_mem_of_ne_nil l hne
  obtain ⟨t, v, hbuild, hrun, hv, hcodes⟩ := exists_codes_of_keys hs ⟨z, hkeys z hz⟩
  obtain ⟨u, hencode, hu⟩ := runCommands_encSym l hv.fault fun y hy => (hcodes y (hkeys y hy)).1
  exact ⟨t, u, _, hbuild, fun y hy => (hcodes y (hkeys y hy)).2, (hrun _).trans hencode, hv.emits hu⟩

/-- `ENC_FLUSH` completes the bytes of the bits emitted. -/
theorem exec_encFlush_of_encodes {s u : State} {l : List Bool} (h : s.encodes u l) :
    ∃ v, exec .encFlush u = .next v ∧ v.fault = false ∧ v.bitTrace = s.bitTrace ++ l ∧
      v.byteTrace = s.byteTrace ++ packedBytes l := by
  obtain ⟨v, hexec, hv⟩ := encFlushEndsTheStream u
  have hframe := changesOwned_exec .encFlush u v hexec
  refine ⟨v, hexec, ?_, (hframe.bits (by decide)).trans h.bits, ?_⟩
  · rw [hv]
    exact h.fault
  · have hcnt : u.pkCnt.toNat = (leftOver l).length := by rw [← h.waiting, pending_length]
    have hzero : u.pkCnt = 0 ↔ leftOver l = [] := by
      rw [← List.length_eq_zero_iff, ← hcnt, ← BitVec.toNat_inj]
      rfl
    have hlast : v.byteTrace = u.byteTrace ++ if leftOver l = [] then [] else [paddedByte (leftOver l)] := by
      rw [State.byteTrace, hv]
      simp only [List.filterMap_append, hzero, h.waiting, hcnt]
      split <;> simp [State.byteTrace, paddedByte]
    rw [hlast, h.bytes, packedBytes, List.append_assoc]

/-! ### The decoding side of the round trip (R165, R167) -/

/-- The codewords of a sequence walk the tree from the root back to the root. -/
theorem decodesTo_codewords {s : State} {c : Symbol → List Bool} {l : List Symbol} (htree : TreeInv s)
    (h : ∀ y ∈ l, c y ≠ [] ∧ s.leadsTo (c y) y) : decodesTo s s.root (l.map c).flatten l s.root := by
  obtain ⟨hlast, hroot⟩ := htree.rootLast
  have hle := htree.nnode_le
  induction l with
  | nil => exact ⟨rfl, by omega, hroot⟩
  | cons y l ih =>
    obtain ⟨⟨hne, i, hpath, hk, hsym⟩, hl⟩ := List.forall_mem_cons.1 h
    have hi : i.toNat < s.nnode.toNat := (htree.allocated i).1 (by simp [hk])
    exact ⟨c y, (l.map c).flatten, i, rfl, hne, hpath, by omega, hk, hsym, ih hl⟩

/-- A table that holds the counts of a sequence adds up to its length. -/
theorem keySum_eq_length {s : State} {l : List Symbol}
    (h : ∀ y : Symbol, (s.ftAt y).v = decide (y ∈ l) ∧ (s.ftAt y).cnt.toNat = l.count y) :
    keySum s (fun y => (s.ftAt y).cnt.toNat) = l.length := by
  have hperm : (s.keysUpTo 256).Perm l.dedup :=
    (List.perm_ext_iff_of_nodup s.keysUpTo_nodup l.nodup_dedup).2 fun y => by
      rw [State.mem_keysUpTo, (h y).1, decide_eq_true_iff, List.mem_dedup]
  simp only [fun y => (h y).2]
  rw [keySum_eq, (hperm.map _).sum_eq, List.sum_map_count_dedup_eq_length]

/-- `DEC_END` at the root, with the right count where the check is asked for. -/
theorem exec_decEnd_at_root {s : State} {f : Bool} (hv : s.treeValid = true) (hcur : s.decCur = s.root)
    (hcheck : f = true → s.root.toNat ≤ 510 ∧ s.decSymCnt.toNat = (s.nodeAt s.root).freq.toNat) :
    exec (.decEnd f) s = .next (answer { s with decSymCnt := 0 } 0 s.decSymCnt.toNat) := by
  obtain ⟨-, -, hplain, hchecked⟩ := decEndChecksInOrder f s
  cases f with
  | false => exact hplain hv hcur rfl
  | true =>
    obtain ⟨hroot, hcount⟩ := hcheck rfl
    exact (hchecked hv hcur rfl hroot).1 hcount

/-- Building and decoding bits that walk the tree from the root back to it gives their symbols, and `DEC_END` succeeds, its check
too where the root's frequency is their number. -/
theorem runCommands_decoding {s t : State} {l : List Symbol} {is : List Instr} {ps : List (List Bool)} {f : Bool}
    (hs : s.fault = false) (hkey : ∃ y : Symbol, (s.ftAt y).v = true) (hbuild : exec .tbBuild s = .next t)
    (hwalk : decodesTo t t.root ps.flatten l t.root) (hreads : List.Forall₂ readsBits is ps)
    (hcount : f = true → (t.nodeAt t.root).freq.toNat = l.length) :
    ∃ v, runCommands ([.tbBuild] ++ is ++ [.decEnd f]) s = .next v ∧ v.fault = false ∧ v.symTrace = s.symTrace ++ l := by
  obtain ⟨t', hbuild', hframe, -, htree, -⟩ := tbBuildBuildsTheTree s hkey
  obtain rfl := Host.Outcome.next.inj (hbuild'.symm.trans hbuild)
  obtain ⟨htf, hv, hcur, hzero⟩ :
      t'.fault = s.fault ∧ t'.treeValid = true ∧ t'.decCur = t'.root ∧ t'.decSymCnt.toNat = 0 := by
    rw [hframe]
    exact ⟨rfl, rfl, rfl, rfl⟩
  have hsyms : t'.symTrace = s.symTrace := (changesOwned_exec .tbBuild s t' hbuild).symbols (by decide)
  obtain ⟨u, hdecodes, hend⟩ := State.exists_decodes_of_decodesTo (t := t') (e := t'.root) (by rwa [hcur]) hv rfl rfl
  have hu := hdecodes.frame
  rw [hend, hzero, Nat.zero_add] at hu
  obtain ⟨w, hrun, hw⟩ := runCommands_of_readsBits hreads (htf.trans hs) hdecodes
  obtain ⟨hwf, hwv, hwcur, hwroot, hwnode, hwcount⟩ :
      w.fault = t'.fault ∧ w.treeValid = t'.treeValid ∧ w.decCur = w.root ∧ w.root = t'.root ∧
        w.nodeAt t'.root = t'.nodeAt t'.root ∧ w.decSymCnt.toNat = min l.length (2 ^ 40 - 1) % 2 ^ 40 := by
    rw [hw.state, hu]
    exact ⟨rfl, rfl, rfl, rfl, rfl, BitVec.toNat_ofNat _ _⟩
  have hfault : w.fault = false := hwf.trans (htf.trans hs)
  have hfinish := exec_decEnd_at_root (f := f) (hwv.trans hv) hwcur fun hf => by
    have hlt := (t'.nodeAt t'.root).freq.isLt
    have hle := htree.nnode_le
    obtain ⟨hlast, -⟩ := htree.rootLast
    rw [hwroot, hwnode, hwcount, hcount hf]
    rw [hcount hf] at hlt
    omega
  refine ⟨_, (runCommands_append [.decEnd f] ((runCommands_cons_of_exec is rfl hs hbuild).trans hrun)).trans
    (runCommands_cons_of_exec [] rfl hfault hfinish), hfault, ?_⟩
  change (answer { w with decSymCnt := 0 } 0 w.decSymCnt.toNat).symTrace = _
  rw [symTrace_answer, ← hsyms]
  exact hw.symbols

/-! ### The round trip (45_decoder.md R167) -/

/-- The encoding side emits bits that any commands reading them give back on the decoding side as the sequence: equal tables build
equal trees, so the codes of one side walk the tree of the other. -/
theorem exists_roundTrip {s s' : State} {l : List Symbol} {f : Bool} (hne : l ≠ []) (hs : s.fault = false)
    (hs' : s'.fault = false) (htables : ∀ y : Symbol, s.ftAt y = s'.ftAt y) (hkeys : ∀ y ∈ l, (s.ftAt y).v = true)
    (hexact : f = true → ∀ y : Symbol, (s.ftAt y).v = decide (y ∈ l) ∧ (s.ftAt y).cnt.toNat = l.count y) :
    ∃ (u : State) (bits : List Bool), runCommands ([.tbBuild, .ctGen] ++ l.map .encSym) s = .next u ∧ s.encodes u bits ∧
      ∀ (is : List Instr) (ps : List (List Bool)), List.Forall₂ readsBits is ps → ps.flatten = bits →
        ∃ v, runCommands ([.tbBuild] ++ is ++ [.decEnd f]) s' = .next v ∧ v.fault = false ∧
          v.symTrace = s'.symTrace ++ l := by
  obtain ⟨z, hz⟩ := List.exists_mem_of_ne_nil l hne
  have hkey' : ∃ y : Symbol, (s'.ftAt y).v = true := ⟨z, htables z ▸ hkeys z hz⟩
  obtain ⟨t, u, c, hbuild, hcodes, hrun, hu⟩ := exists_encodes hs hne hkeys
  obtain ⟨t₁, t', hbuild₁, hbuild', hnode, -, -, hroot, -⟩ := tbBuildDependsOnTheTableAlone s s' htables
  obtain rfl := Host.Outcome.next.inj (hbuild₁.symm.trans hbuild)
  obtain ⟨t₂, hbuild₂, -, -, htree, -⟩ := tbBuildBuildsTheTree s' hkey'
  obtain rfl := Host.Outcome.next.inj (hbuild₂.symm.trans hbuild')
  refine ⟨u, _, hrun, hu, fun is ps hreads hflat => runCommands_decoding hs' hkey' hbuild' ?_ hreads fun hf => ?_⟩
  · rw [hflat]
    refine decodesTo_codewords htree fun y hy => ?_
    obtain ⟨hcode, hleads⟩ := hcodes y hy
    exact ⟨hcode, by simpa only [State.leadsTo, State.nodeAt, hnode, hroot] using hleads⟩
  · obtain ⟨t₃, hbuild₃, hfreq⟩ := rootFrequencyIsTheTotal s' hkey'
    obtain rfl := Host.Outcome.next.inj (hbuild₃.symm.trans hbuild')
    rw [hfreq]
    exact keySum_eq_length fun y => htables y ▸ hexact hf y

/-- Settles O47: the bits of the encoding side, read one by one. -/
theorem roundTripByBits : Obligations.RoundTripByBits := by
  intro s s' l f hne hs hs' htables hkeys hexact
  obtain ⟨u, bits, hencode, hu, hdecode⟩ := exists_roundTrip hne hs hs' htables hkeys hexact
  obtain ⟨v, hrun, hv, hsyms⟩ :=
    hdecode _ _ (forall₂_readsBits_decBit bits) (by rw [← List.flatMap_def, List.flatMap_singleton'])
  exact ⟨u, v, bits, hencode, hu.fault, hu.bits, hrun, hv, hsyms⟩

/-- Settles O48: the flush completes the bytes of the bits, and the host's `DEC_BYTE`s read exactly the bits from the bytes. -/
theorem roundTripByBytes : Obligations.RoundTripByBytes := by
  intro s s' l f hne hs hs' htables hkeys hexact
  obtain ⟨u, bits, hencode, hu, hdecode⟩ := exists_roundTrip hne hs hs' htables hkeys hexact
  obtain ⟨w, hflush, hw, hbits, hbytes⟩ := exec_encFlush_of_encodes hu
  obtain ⟨ps, hreads, hflat⟩ := exists_readsBits_byteCommands bits
  obtain ⟨v, hrun, hv, hsyms⟩ := hdecode _ ps hreads hflat
  exact ⟨w.feed [], v, bits, packedBytes bits,
    (runCommands_append [.encFlush] hencode).trans (runCommands_cons_of_exec [] rfl hu.fault hflush), hw, hbits, hbytes,
    hrun, hv, hsyms⟩

end Sys2Proof.Machine

namespace Sys2Proof.Machine

open Sys2Proof.Spec

/-! ### The host's moves (70_reset_and_hazards.md R200, R205) -/

theorem acceptWord_inputs {s t : State} {w : Word} (h : acceptWord w s = .next t) : t.inputs = s.inputs := by
  rcases acceptWord_cases w s with ⟨-, -, hacc⟩ | ⟨-, -, hacc⟩ | ⟨i, -, -, hacc⟩ <;> rw [hacc] at h
  · cases h
    rfl
  · cases h
    rfl
  · exact (changesOwned_exec i s t h).moves

/-- Settles O6: the step takes one move off the queue, and no command touches the moves behind it. -/
theorem hostMovesAreTakenInOrder : Obligations.HostMovesAreTakenInOrder := by
  refine fun s => ⟨fun hin => ?_, fun rest hin => ?_, fun w rest t hin ht => ?_⟩
  · simp [step, takeInput, hin]
  · exact ⟨{ State.reset with inputs := rest }, by simp [step, takeInput, hin, State.hardReset], rfl⟩
  · rw [step_command hin] at ht
    exact acceptWord_inputs ht

/-! ### The fault state (60_exceptions.md R186) -/

/-- The commands of `ALWAYS` other than `CLR` write no state: they only answer. -/
theorem exec_always_only_answers {i : Instr} (s : State) (hwf : i.wf = true) (hi : i.mnemonic ∈ always) (hclr : i ≠ .clr) :
    ∃ d, exec i s = .next (answer s 0 d) := by
  cases i with
  | nop => exact ⟨_, nopOnlyAnswers s⟩
  | clr => exact absurd rfl hclr
  | rdreg r => exact ⟨_, succeed_eq_answer s (s.reg r)⟩
  | ftRd y => exact ⟨_, succeed_eq_answer s _⟩
  | ndInfo n => exact ⟨_, ndInfoReadsTheRecord n s (by simpa [Instr.wf] using hwf)⟩
  | ndFreq n => exact ⟨_, ndFreqReadsTheFrequency n s (by simpa [Instr.wf] using hwf)⟩
  | ctLen y => exact ⟨_, ctLenReadsTheLength y s⟩
  | ctBits y k => exact ⟨_, succeed_eq_answer s _⟩
  | faSym | ftSet | tbBuild | ctGen | encSym | encFlush | decBit | decByte | decEnd =>
    simp [Instr.mnemonic, always] at hi

/-- Settles O9: a word that does not execute is answered `Aborted`, and of those that do all but `CLR` only answer. -/
theorem faultStateChangesNothing : Obligations.FaultStateChangesNothing := by
  intro s w rest hf hin hclr
  rw [step_command hin]
  cases hd : decode w with
  | error e => exact ⟨_, word 8 0, acceptWord_illegal_aborted hd hf, rfl, fun _ => rfl⟩
  | ok i =>
    by_cases hi : i.mnemonic ∈ always
    · obtain ⟨d, hexec⟩ := exec_always_only_answers { s with inputs := rest } (wf_of_decode hd) hi
        fun h => hclr (h ▸ hd)
      exact ⟨_, word 0 d, (acceptWord_exec hd (.inr hi)).trans hexec, rfl, fun h => absurd hi (h i rfl)⟩
    · exact ⟨_, word 8 0, acceptWord_aborted hd hf hi, rfl, fun _ => rfl⟩

/-! ### Fault entry (60_exceptions.md R180, R182, R184, R185) -/

/-- From `s`, the command `i` can raise `f` in the state `u`, recording the bit index `k`: only data beats lie behind it, the
fault is one of the command's, and the bit index is 0 but for `DEC_BYTE`. The commands whose rules write before they raise are
`TB_BUILD`, `DEC_BYTE` and, in the arm that no tree reaches, `CT_GEN`. -/
structure Raises (i : Instr) (s u : State) (f : BlockFault) (k : BitVec 4) : Prop where
  data : s.emitsData u
  code : f.code.toNat ∈ faultsOf i.mnemonic
  bit : i.wf = true → k.toNat ≤ 7
  noBit : i.mnemonic ≠ .decByte → k = 0
  precise : i.mnemonic ∉ [.tbBuild, .decByte] → i ≠ .ctGen → u = s

/-- If the outcome is a next state in the fault state, the command `i` raised that fault with its own word. -/
def faultsBy (i : Instr) (s : State) (o : Host.Outcome State Fault Refusal) : Prop :=
  ∀ t, o = .next t → t.fault = true → ∃ u f k, t = u.raiseFault f k (encode i) ∧ Raises i s u f k

/-- A command that raises before it writes anything. -/
theorem Raises.at_once {i : Instr} (s : State) {f : BlockFault} (hf : f.code.toNat ∈ faultsOf i.mnemonic) :
    Raises i s s f 0 where
  data := State.emitsData_of_beats rfl
  code := hf
  bit := fun _ => Nat.zero_le 7
  noBit := fun _ => rfl
  precise := fun _ _ => rfl

theorem faultsBy_raised {i : Instr} {s u : State} {f : BlockFault} {k : BitVec 4} (h : Raises i s u f k) :
    faultsBy i s (raised u f k (encode i)) := by
  rintro t ⟨⟩ -
  exact ⟨u, f, k, rfl, h⟩

theorem faultsBy_succeed (i : Instr) (s : State) {u : State} (d : BitVec 56) (h : u.fault = false) :
    faultsBy i s (succeed u d) := by
  rintro t ⟨⟩ ht
  exact absurd (h.symm.trans ht) Bool.false_ne_true

theorem faultsBy_fault (i : Instr) (s : State) (f : Fault) : faultsBy i s (.fault f) := by
  rintro t ⟨⟩

/-- The faults of one bit (45_decoder.md R162). -/
theorem decBit_raises_code {x : Bool} {s : State} {f : BlockFault} (h : decBit x s = .raises f) :
    f.code.toNat ∈ [4, 5] := by
  have htree : BlockFault.corruptTree.code.toNat ∈ [4, 5] := by decide
  have hstream : BlockFault.corruptStream.code.toNat ∈ [4, 5] := by decide
  rcases decBit_cases x s with ⟨-, hd⟩ | ⟨-, -, hd⟩ | ⟨n, -, -, ⟨-, hd⟩ | ⟨-, -, hd⟩ | ⟨c, -, -, hc⟩⟩
  · cases hd.symm.trans h
    exact htree
  · cases hd.symm.trans h
  · cases hd.symm.trans h
    exact htree
  · cases hd.symm.trans h
  · rcases hc with ⟨-, hd⟩ | ⟨-, hd⟩ | ⟨-, hd⟩ | ⟨-, hd⟩ <;> cases hd.symm.trans h
    · exact hstream
    · exact htree

theorem decBit_moved_fault {x : Bool} {s u : State} {e : Option Symbol} (h : decBit x s = .moved u e) :
    u.fault = s.fault := by
  obtain ⟨-, ⟨-, c, -, rfl⟩ | ⟨y, -, rfl⟩⟩ := decBit_moved h
  · rfl
  · rfl

/-- The loop of `DEC_BYTE` may stand behind bits already decoded; a legal byte has at most 8. -/
theorem faultsBy_decBits (y : Byte) (n : BitVec 4) (l : List Bool) (i k : Nat) {s u : State} (hdata : s.emitsData u)
    (hu : u.fault = false) (hlen : (Instr.decByte y n).wf = true → i + l.length ≤ 8) :
    faultsBy (.decByte y n) s (decBits (encode (.decByte y n)) l i k u) := by
  induction l generalizing i k u with
  | nil => exact faultsBy_succeed _ _ _ hu
  | cons x l ih =>
    have hlen' (hwf : (Instr.decByte y n).wf = true) : i + 1 + l.length ≤ 8 := by
      have hcons := hlen hwf
      rw [List.length_cons] at hcons
      omega
    have hnext {u' : State} {e : Option Symbol} (hd : decBit x u = .moved u' e) (k' : Nat) :
        faultsBy (.decByte y n) s (decBits (encode (.decByte y n)) l (i + 1) k' u') :=
      ih _ _ (State.emitsData_trans hdata (State.emitsData_decBit hd)) ((decBit_moved_fault hd).trans hu) hlen'
    unfold decBits
    split
    · next hd => exact hnext hd _
    · next hd => exact hnext hd _
    · next hd =>
      refine faultsBy_raised ⟨hdata, decBit_raises_code hd, fun hwf => ?_, by simp [Instr.mnemonic], by simp [Instr.mnemonic]⟩
      have hbits := hlen' hwf
      rw [BitVec.toNat_ofNat]
      omega
    · exact faultsBy_fault _ _ _

section
variable {s : State} (hs : s.fault = false)
include hs

theorem faultsBy_execFaSym (y : Symbol) : faultsBy (.faSym y) s (execFaSym y s) := by
  unfold execFaSym
  split
  · exact faultsBy_raised (Raises.at_once s (List.mem_singleton_self _))
  · exact faultsBy_succeed _ _ _ hs

theorem faultsBy_execTbBuild : faultsBy .tbBuild s (execTbBuild s) := by
  have hraises : Raises .tbBuild s s .invalidInput 0 := Raises.at_once s (List.mem_singleton_self _)
  have hbeats : s.clearDerived.scanTable.beats = s.clearDerived.beats :=
    State.beats_of_sameOutsideTree s.clearDerived.sameOutsideTree_scanTable
  intro t ht
  rcases execTbBuild_cases s t ht with ⟨-, rfl⟩ | ⟨-, hsame, rfl⟩
  · exact fun _ => ⟨_, .invalidInput, 0, rfl,
      { hraises with
        data := State.emitsData_of_beats hbeats
        precise := by simp [Instr.mnemonic] }⟩
  · refine faultsBy_succeed .tbBuild s _ ?_ _ rfl
    rw [hsame]
    exact hs

theorem faultsBy_execNdInfo (n : NodeIdx) : faultsBy (.ndInfo n) s (execNdInfo n s) := by
  unfold execNdInfo
  split
  · exact faultsBy_succeed _ _ _ hs
  · exact faultsBy_fault _ _ _

theorem faultsBy_execNdFreq (n : NodeIdx) : faultsBy (.ndFreq n) s (execNdFreq n s) := by
  unfold execNdFreq
  split
  · exact faultsBy_succeed _ _ _ hs
  · exact faultsBy_fault _ _ _

theorem faultsBy_execCtGen : faultsBy .ctGen s (execCtGen s) := by
  have hraises : Raises .ctGen s s .corruptTree 0 := Raises.at_once s (List.mem_singleton_self _)
  unfold execCtGen
  split
  · split
    · exact faultsBy_succeed _ _ _ hs
    · exact faultsBy_raised { hraises with data := State.emitsData_of_beats rfl, precise := fun _ h => absurd rfl h }
    · exact faultsBy_fault _ _ _
  · exact faultsBy_raised hraises

theorem faultsBy_execEncSym (y : Symbol) : faultsBy (.encSym y) s (execEncSym y s) := by
  unfold execEncSym
  dsimp only
  split
  · obtain ⟨-, -, hframe⟩ := s.emitBits_frame (s.ctAt y).code
    exact faultsBy_succeed _ _ _ ((congrArg State.fault hframe).trans hs)
  · exact faultsBy_raised (Raises.at_once s (List.mem_singleton_self _))

theorem faultsBy_execEncFlush : faultsBy .encFlush s (execEncFlush s) := by
  unfold execEncFlush
  dsimp only
  split
  · exact faultsBy_succeed _ _ _ hs
  · exact faultsBy_succeed _ _ _ hs

theorem faultsBy_execDecBit (x : Bool) : faultsBy (.decBit x) s (execDecBit x s) := by
  unfold execDecBit
  split
  · next hd => exact faultsBy_succeed _ _ _ ((decBit_moved_fault hd).trans hs)
  · next hd => exact faultsBy_succeed _ _ _ ((decBit_moved_fault hd).trans hs)
  · next hd => exact faultsBy_raised (Raises.at_once s (decBit_raises_code hd))
  · exact faultsBy_fault _ _ _

theorem faultsBy_execDecByte (y : Byte) (n : BitVec 4) : faultsBy (.decByte y n) s (execDecByte y n s) := by
  refine faultsBy_decBits y n _ 0 0 (State.emitsData_of_beats rfl) hs fun hwf => ?_
  obtain ⟨-, hn⟩ : 1 ≤ n.toNat ∧ n.toNat ≤ 8 := by simpa [Instr.wf] using hwf
  simpa [byteBits] using hn

theorem faultsBy_execDecEnd (f : Bool) : faultsBy (.decEnd f) s (execDecEnd f s) := by
  have hraised (g : BlockFault) (hg : g.code.toNat ∈ [3, 4, 5]) :
      faultsBy (.decEnd f) s (raised s g 0 (encode (.decEnd f))) := faultsBy_raised (Raises.at_once s hg)
  have hok : faultsBy (.decEnd f) s (succeed { s with decSymCnt := 0 } (s.decSymCnt.setWidth 56)) :=
    faultsBy_succeed _ _ _ hs
  unfold execDecEnd
  split_ifs
  · split
    · exact faultsBy_fault _ _ _
    · split
      · exact hok
      · exact hraised .corruptStream (by decide)
  · exact hok
  · exact hraised .truncatedStream (by decide)
  · exact hraised .corruptTree (by decide)

/-- Outside the fault state a command enters it by raising one of its own faults. -/
theorem faultsBy_exec (i : Instr) : faultsBy i s (exec i s) := by
  have hsame (i : Instr) (d : BitVec 56) : faultsBy i s (succeed s d) := faultsBy_succeed i s d hs
  cases i with
  | nop | rdreg r | ftRd y | ctLen y | ctBits y k => exact hsame _ _
  | clr => exact faultsBy_succeed .clr s (u := s.clearSession) _ rfl
  | faSym y => exact faultsBy_execFaSym hs y
  | ftSet y c => exact faultsBy_succeed (.ftSet y c) s (u := s.setFt y ⟨true, c⟩) _ hs
  | tbBuild => exact faultsBy_execTbBuild hs
  | ndInfo n => exact faultsBy_execNdInfo hs n
  | ndFreq n => exact faultsBy_execNdFreq hs n
  | ctGen => exact faultsBy_execCtGen hs
  | encSym y => exact faultsBy_execEncSym hs y
  | encFlush => exact faultsBy_execEncFlush hs
  | decBit x => exact faultsBy_execDecBit hs x
  | decByte y n => exact faultsBy_execDecByte hs y n
  | decEnd f => exact faultsBy_execDecEnd hs f

end

@[simp] theorem rspTrace_latched (s : State) (code fi : Nat) :
    (latched s code fi).rspTrace = s.rspTrace ++ [word code 0] := by
  simp [State.rspTrace, latched]

/-- Settles O10: an illegal word raises `IllegalCommand`, and a legal one enters the fault state only by a fault of its command,
recorded with the word that the command is encoded by, which is the accepted one. -/
theorem faultEntryRecordsTheWord : Obligations.FaultEntryRecordsTheWord := by
  intro s t w rest hin hs hstep ht
  rw [step_command hin] at hstep
  cases hd : decode w with
  | error e =>
    cases (acceptWord_illegal_raises (s := { s with inputs := rest }) hd hs).symm.trans hstep
    exact ⟨0, 7, Nat.zero_le 7, rfl, rfl, rspTrace_latched _ _ _, fun _ _ => ⟨rfl, rfl⟩, by rintro _ ⟨⟩⟩
  | ok i =>
    have hexec : exec i { s with inputs := rest } = .next t :=
      (acceptWord_exec (s := { s with inputs := rest }) hd (.inl hs)).symm.trans hstep
    obtain ⟨u, f, k, rfl, hraises⟩ := faultsBy_exec (s := { s with inputs := rest }) hs i t hexec ht
    have hrsp : u.rspTrace = s.rspTrace := State.rspTrace_of_emitsData hraises.data
    rw [encode_of_decode hd, raiseFault_eq_latched, rspTrace_latched, hrsp]
    refine ⟨k.toNat, f.code.toNat, hraises.bit (wf_of_decode hd), rfl, rfl, rfl, by rintro _ ⟨⟩, ?_⟩
    rintro _ ⟨⟩
    exact ⟨hraises.code, fun hi => congrArg BitVec.toNat (hraises.noBit hi)⟩

/-- On a tree `CT_GEN` raises nothing: its walk meets no free record (43_code_table.md R141). -/
theorem exec_ctGen_fault_of_tree {s t : State} (hv : s.treeValid = true) (htree : TreeInv s)
    (h : exec .ctGen s = .next t) : t.fault = s.fault := by
  obtain ⟨ct, hgen, -⟩ := ctGenAssignsRootPaths s hv htree
  cases hgen.symm.trans h
  rfl

/-- Settles O11: each of these commands raises before it writes; `CT_GEN` writes before it raises only on records that form no
tree. -/
theorem faultsArePrecise : Obligations.FaultsArePrecise := by
  intro i s t hinv hs htb hdb hexec ht
  by_cases hgen : i = .ctGen
  · subst hgen
    cases hv : s.treeValid with
    | false => exact ⟨4, 0x30, (Host.Outcome.next.inj ((ctGenNeedsATree s hv).symm.trans hexec)).symm⟩
    | true =>
      obtain ⟨htree, -⟩ := hinv.tree hv
      cases hs.symm.trans ((exec_ctGen_fault_of_tree hv htree hexec).symm.trans ht)
  · obtain ⟨u, f, k, rfl, hraises⟩ := faultsBy_exec hs i t hexec ht
    rw [hraises.precise (by simp [htb, hdb]) hgen]
    exact ⟨_, _, raiseFault_eq_latched s f k _⟩

end Sys2Proof.Machine

namespace Sys2Proof.Machine

open Sys2Proof.Spec

/-! ### The first command after reset (70_reset_and_hazards.md R202) -/

/-- The first entry written to an empty memory is its only one. -/
theorem Memory.write_nil {α : Type} [DecidableEq α] {d v : α} (i : Nat) (h : v ≠ d) :
    Memory.write d [] i v = [(i, v)] := if_neg h

/-- The first key of an empty frequency table is its only entry. -/
theorem State.setFt_key_of_empty {s : State} (h : s.ft = []) (y : Symbol) (c : BitVec 32) :
    s.setFt y ⟨true, c⟩ = { s with ft := [(y.toNat, ⟨true, c⟩)] } := by
  rw [State.setFt, h, Memory.write_nil _ (by simp [FtEntry.empty])]

/-- Every register reads 0 after reset but the constant `PARAMS` (10_state.md R45 to R47, R55). -/
theorem regValue_reset (bs : List Beat) (moves : List HostInput) (r : StatusReg) :
    regValue { State.reset with beats := bs, inputs := moves } r = if r = .params then 0x1FF282008 else 0 := by
  cases r
  case params => exact (if_pos rfl).symm
  all_goals simp [regValue, State.ftAt, State.reset, FtEntry.empty, num]

/-- No chunk of an entry without a code has a bit (43_code_table.md R145; 10_state.md R29). -/
theorem CtEntry.chunk_empty (k : BitVec 3) : CtEntry.empty.chunk k = 0 := by
  simp [CtEntry.chunk, CtEntry.empty]

/-- The first bit of `DEC_BYTE` already finds that there is no tree (45_decoder.md R162, R164). -/
theorem exec_decByte_of_no_tree {s : State} (hv : s.treeValid = false) (y : Byte) {n : BitVec 4} (hlo : 1 ≤ n.toNat)
    (hhi : n.toNat ≤ 8) : exec (.decByte y n) s = .next (latched s 4 (info 0 n.toNat y.toNat 0x51)) :=
  exec_decByte_of_raises hhi hlo (.nil s) (decBit_of_no_tree hv)

/-- Settles O53: at the reset values each unit's rule takes its branch for an empty memory, no tree or no codes. -/
theorem firstCommandAfterReset : Obligations.FirstCommandAfterReset := by
  intro bs moves s hs
  have hft : s.ft = [] := by rw [hs]; rfl
  have hct : ∀ y : Symbol, s.ctAt y = CtEntry.empty := fun y => by rw [hs]; rfl
  have hentry : ∀ y : Symbol, s.ftAt y = FtEntry.empty := fun y => by rw [State.ftAt, hft, Memory.read_nil]
  have hnode : ∀ i : NodeIdx, s.nodeAt i = NodeRec.empty := fun i => by rw [hs]; rfl
  have hv : s.treeValid = false := by rw [hs]; rfl
  refine ⟨?ftRd, ?ndRead, ?ctLen, ?ctBits, ?rdreg, ?faSym, ?ftSet, ?tbBuild, ctGenNeedsATree s hv, ?decBit, ?decByte, ?decEnd,
    ?encSym, ?encFlush⟩
  case ftRd =>
    intro y
    rw [ftRdReadsTheEntry, hentry]
    rfl
  case ndRead =>
    intro i hi
    rw [ndInfoReadsTheRecord i s hi, ndFreqReadsTheFrequency i s hi, hnode]
    exact ⟨rfl, rfl⟩
  case ctLen =>
    intro y
    rw [ctLenReadsTheLength, hct]
    rfl
  case ctBits =>
    intro y k
    rw [exec, execCtBits, hct, CtEntry.chunk_empty, succeed_eq_answer]
    rfl
  case rdreg =>
    obtain ⟨hread, -, -⟩ := rdregReadsTheRegister
    intro r
    rw [hread, hs, regValue_reset]
  case faSym =>
    intro y
    rw [exec_faSym_of_lt (by rw [hentry]; decide), hentry, State.setFt_key_of_empty hft]
    rfl
  case ftSet =>
    intro y c
    rw [exec, execFtSet, State.setFt_key_of_empty hft, succeed_eq_answer]
    rfl
  case tbBuild =>
    rw [tbBuildOfEmptyTableFaults s fun y => by rw [hentry]; rfl, hs]
  case decBit =>
    intro x
    obtain ⟨hnone, -, -⟩ := decBitWalksTheTree x s
    exact hnone hv
  case decByte => exact fun y n => exec_decByte_of_no_tree hv y
  case decEnd =>
    intro f
    obtain ⟨hnone, -⟩ := decEndChecksInOrder f s
    exact hnone hv
  case encSym => exact fun y => exec_encSym_of_no_code (by rw [hct]; rfl)
  case encFlush =>
    obtain ⟨t, hexec, rfl⟩ := encFlushEndsTheStream s
    rw [hexec, hs]
    simp [answer, State.reset]

end Sys2Proof.Machine
